-- ==== Sys2Proof/Word.lean ====
section
/-! DEFINITION. The word types of RHC (00_scope.md R7): bytes, register words, RLE symbols, frequency counts, and the byte
strings and bit strings of R11. Nothing but names for `BitVec` and `List`, so that the library's lemmas apply. -/

namespace Sys2Proof

/-- An input byte, a MEM byte, a run length, a byte value: 8 bits (R7). -/
abbrev Byte := BitVec 8

/-- A register of REG: 32 bits (R7, 10_state.md R32). -/
abbrev Word := BitVec 32

/-- An RLE symbol `(run_length << 8) | byte_value`: 16 bits (R7). -/
abbrev Symbol := BitVec 16

/-- A frequency count or a tree weight: 64 bits unsigned (R7). -/
abbrev Count := BitVec 64

/-- A byte string, index 0 first (R11). -/
abbrev Bytes := List Byte

/-- A bit string: the first element is nearest the tree root (a code) or earliest in the stream (a payload) (R11). -/
abbrev BitString := List Bool

end Sys2Proof
end

