-- ==== Sys2Proof/Config.lean ====
section
/-! DEFINITION. What one instance of the block fixes (00_scope.md R6) and the free values.

`Params` is the record of the parameters a model "takes as arguments"; their ranges are part of the types, so no illegal
instance exists. `State` carries one `Params`, which no step changes, so a theorem about every state is a theorem about
every instance. `Config.params` is the instance of `State.reset`: its OPEN values are constants with no body, which no
proof can evaluate (notes/assumptions/1.md). -/

namespace Sys2Proof

/-- The container magic, bytes 0..5 (00_scope.md R6, 30_encoding.md R110). -/
structure Signature where
  b0 : Byte
  b1 : Byte
  b2 : Byte
  b3 : Byte
  b4 : Byte
  b5 : Byte
  deriving DecidableEq, Repr

def Signature.toBytes (g : Signature) : Bytes := [g.b0, g.b1, g.b2, g.b3, g.b4, g.b5]

/-- The container version stamp, bytes 6..7, compared as raw bytes (30_encoding.md R111). -/
structure Version where
  b0 : Byte
  b1 : Byte
  deriving DecidableEq, Repr

def Version.toBytes (v : Version) : Bytes := [v.b0, v.b1]

/-- The parameters of one instance of the block, each with the range R6 gives it. -/
structure Params where
  /-- MEM_SIZE: bytes in MEM. -/
  memSize : { n : Nat // 16 ≤ n ∧ n ≤ 2 ^ 32 - 1 }
  signature : Signature
  version : Version
  /-- ALG_ID_RLE: the "no-context algorithm id", byte 8. -/
  algIdRle : Byte
  /-- ALG_ID_HUF: the "context algorithm id", byte 9. -/
  algIdHuf : Byte
  /-- XOR_KEY: the fixed key of the protection layer. -/
  xorKey : Byte
  /-- CODE_LEN_MAX: the longest code the code table can hold. -/
  codeLenMax : { n : Nat // 1 ≤ n ∧ n ≤ 65279 }
  deriving DecidableEq, Repr

/-- MEM_SIZE - 16 of the instance of `State.reset`: OPEN (D3), no value. -/
opaque Config.memSizeAbove16 : Fin 4294967280

/-- CODE_LEN_MAX - 1 of the instance of `State.reset`: OPEN (D31), no value. -/
opaque Config.codeLenMaxAbove1 : Fin 65279

/-- The `i`-th byte of SIGNATURE of the instance of `State.reset`: OPEN (D14), no value. -/
opaque Config.signatureByte : Nat → Byte

/-- The `i`-th byte of VERSION of the instance of `State.reset`: OPEN (D14), no value. -/
opaque Config.versionByte : Nat → Byte

/-- ALG_ID_RLE of the instance of `State.reset`: OPEN (D14), no value. -/
opaque Config.algIdRle : Byte

/-- ALG_ID_HUF of the instance of `State.reset`: OPEN (D14), no value. -/
opaque Config.algIdHuf : Byte

/-- XOR_KEY of the instance of `State.reset`: OPEN (D15), no value. -/
opaque Config.xorKey : Byte

/-- The parameters of the instance of `State.reset`: every legal instance is some value of the constants above. -/
def Config.params : Params where
  memSize := ⟨Config.memSizeAbove16.val + 16, by have := Config.memSizeAbove16.isLt; omega⟩
  signature :=
    ⟨Config.signatureByte 0, Config.signatureByte 1, Config.signatureByte 2, Config.signatureByte 3,
      Config.signatureByte 4, Config.signatureByte 5⟩
  version := ⟨Config.versionByte 0, Config.versionByte 1⟩
  algIdRle := Config.algIdRle
  algIdHuf := Config.algIdHuf
  xorKey := Config.xorKey
  codeLenMax := ⟨Config.codeLenMaxAbove1.val + 1, by have := Config.codeLenMaxAbove1.isLt; omega⟩

/-- FREE VALUE. The `n`-th unspecified byte: a destination byte after ALLOC, FORMAT, TRUNC or NOCODE (60_exceptions.md
R403 (c)), or what a host read of an in-flight destination byte returns (20_memory.md R82 (c)). `State.draws` counts `n`. -/
opaque Config.freeByte : Nat → Byte

/-- FREE VALUE. What a host read of the byte at address `a` returns while nothing has written it since the `e`-th reset
(20_memory.md R72, 93_implementation_defined.md I15). `State.epoch` counts `e`. -/
opaque Config.unwrittenByte : Nat → Nat → Byte

end Sys2Proof
end

