-- ==== Sys2Proof/Syntax.lean ====
section
/-! DEFINITION. The commands of the block (30_encoding.md R103), and the written forms around them: register names
(10_state.md R33), the host's accesses (20_memory.md R80) and the lines of a host program (30_encoding.md R116). -/

namespace Sys2Proof

/-- A legal command word, one constructor per row of the opcode map (30_encoding.md R103). A command's operands are not in
the word (R100): only ENCODE carries a field, the P bit (R102). -/
inductive Instr where
  | nop
  | rleEnc
  | rleDec
  | freq
  | treeBuild
  | codeGen
  | codeQuery
  | pack
  | unpack
  | xor
  | encode (protect : Bool)
  | decode
  | clear
  deriving DecidableEq, Repr

/-- The registers of REG, in the order of the register map (10_state.md R33). -/
inductive RegName where
  | ctrl
  | cmd
  | status
  | srcAddr
  | srcLen
  | dstAddr
  | dstCap
  | arg0
  | arg1
  | arg2
  | resLen
  | res0
  | res1
  | res2
  | res3
  | memsz
  | clmax
  deriving DecidableEq, Repr

/-- One step of the host (20_memory.md R80), the polling loop `wait` (30_encoding.md R117), and an access of any other
width, which is no step of the model (20_memory.md R73, R74). -/
inductive HostOp where
  | regRead (off : Nat)
  | regWrite (off : Nat) (v : Word)
  | memRead (a : Nat)
  | memWrite (a : Nat) (b : Byte)
  /-- Repeat `RegRead(STATUS)` until it returns BUSY = 0 (30_encoding.md R117). -/
  | wait
  /-- A REG access of a width other than 32 bits, `bytes` bytes at offset `off`. -/
  | regOtherWidth (bytes off : Nat)
  /-- A MEM access of `bytes` bytes (more than one) at address `a`, as one transaction. -/
  | memWide (bytes a : Nat)
  deriving DecidableEq, Repr

/-- Who takes a step (00_scope.md R3), the reset input among them (70_reset_and_hazards.md R450). -/
inductive Agent where
  | host
  | engine
  | reset
  deriving DecidableEq, Repr

/-- What a host read returned: a REG word or a MEM byte (20_memory.md R80). -/
inductive Reply where
  | word (w : Word)
  | byte (b : Byte)
  deriving DecidableEq, Repr

/-- `<reg>` of a host program: a register's name or an offset (30_encoding.md R116). -/
inductive RegRef where
  | name (r : RegName)
  | offset (off : Nat)
  deriving DecidableEq, Repr

/-- One line of a host program (30_encoding.md R116). `cmd` takes a mnemonic, which `Instr` names (`ENCODE.P` is
`Instr.encode true`). The name a `rd` binds is the host's alone. -/
inductive HostLine where
  | wr (reg : RegRef) (imm : Word)
  | rd (reg : RegRef) (name : Option String)
  | mw (addr : Nat) (bytes : Bytes)
  | mr (addr n : Nat)
  | cmd (i : Instr)
  | wait
  | ack
  | setsrc (addr len : Word)
  | setdst (addr cap : Word)
  deriving DecidableEq, Repr

end Sys2Proof
end

