-- ==== Sys2Proof/Machine/State.lean ====
section
/-! DEFINITION. The state of the block as plain data (10_state.md R33..R51, 20_memory.md R70..R72), the faults and
refusals of the model, and the state right after reset (10_state.md R51). -/

namespace Sys2Proof.Machine

/-- MEM: the written bytes only, at strictly rising addresses. A byte that is not listed is `unwritten` (20_memory.md R72). -/
abbrev Memory := List Host.Cell

/-- The canonical form of MEM: addresses strictly rise. No listed byte equals what an unlisted address reads as, for that is
no byte at all. -/
abbrev Memory.wf (m : Memory) : Prop := m.Pairwise (fun c d => c.1 < d.1)

/-- A non-Empty Huffman tree (10_state.md R45): `Empty` never occurs inside a node, so it is not a case of this type; the
register TREE is an `Option HuffTree`, whose `none` is the spec's `Empty`. -/
inductive HuffTree where
  | leaf (sym : Symbol) (w : Count)
  | node (w : Count) (left right : HuffTree)
  deriving DecidableEq, Repr

/-- CT, a partial map from symbols to codes (10_state.md R47): one entry per symbol that has a code, in tree order. -/
abbrev CodeTable := List (Symbol × BitString)

/-- The error kinds a completion can report (60_exceptions.md R400, codes 1..7). -/
inductive Err where
  | alloc
  | format
  | trunc
  | illegal
  | range
  | state
  | nocode
  deriving DecidableEq, Repr

/-- STATUS (10_state.md R36). `err = none` is the code 0, OK; the codes 8..15 are never produced (60_exceptions.md R400), so
they have no value here. -/
structure Status where
  busy : Bool
  done : Bool
  drop : Bool
  szmis : Bool
  err : Option Err
  tv : Bool
  cv : Bool
  deriving DecidableEq, Repr

/-- The operand registers SRC_ADDR..ARG2 (10_state.md R38, R39). -/
structure OperandRegs where
  srcAddr : Word
  srcLen : Word
  dstAddr : Word
  dstCap : Word
  arg0 : Word
  arg1 : Word
  arg2 : Word
  deriving DecidableEq, Repr

/-- The result registers RES_LEN, RES0..RES3 (10_state.md R40). -/
structure ResultRegs where
  resLen : Word
  res0 : Word
  res1 : Word
  res2 : Word
  res3 : Word
  deriving DecidableEq, Repr

/-- L, the operands latched when the command in flight was issued (10_state.md R44, 44_control.md R351). -/
structure Latch where
  cmd : Word
  ops : OperandRegs
  deriving DecidableEq, Repr

/-- The whole machine. Fields `cfg` (the instance's parameters) to `mem` are the spec's; `host`, `turns`, `replies`, `draws`
and `epoch` are the model's own (INVENTORY.md). MEMSZ, CLMAX and IRQ are views of what is here. -/
structure State where
  /-- The parameters of the instance (00_scope.md R6); MEMSZ and CLMAX read two of them (10_state.md R41). -/
  cfg : Params
  /-- CTRL.IE (10_state.md R34). -/
  ie : Bool
  /-- CMD (10_state.md R35). -/
  cmd : Word
  status : Status
  ops : OperandRegs
  res : ResultRegs
  latch : Latch
  /-- TREE; `none` is Empty (10_state.md R45). -/
  tree : Option HuffTree
  ct : CodeTable
  mem : Memory
  /-- The host accesses still to come, the next one first. -/
  host : List HostOp
  /-- Which agent moves next; when used up, the engine if BUSY = 1, else the host. -/
  turns : List Agent
  /-- What the host's reads returned, newest first. -/
  replies : List Reply
  /-- How many free bytes have been drawn from `Config.freeByte`. -/
  draws : Nat
  /-- How many resets there were after the first. -/
  epoch : Nat
  deriving DecidableEq, Repr

/-- Why the machine stops with a fault. -/
inductive Fault where
  /-- Raised by a command whose MemRead meets a MEM byte that is unwritten since reset (20_memory.md R72, I11). Safe. -/
  | readUnwritten
  /-- Raised by a host write to a byte of the source or destination range of the command in flight (20_memory.md R82 (b),
  I10). Safe. -/
  | hostRace
  deriving DecidableEq, Repr

/-- Why a step has no meaning. -/
inductive Refusal where
  /-- An instruction without a meaning yet, raised by its arm of `exec`; no arm of this model raises it. Safe. -/
  | notModelled (mnemonic : String)
  /-- A host REG access that is not an aligned 32-bit access below 0x100 (20_memory.md R74, I17). Safe. -/
  | regAccess
  /-- A host MEM access at an address at or above MEM_SIZE (20_memory.md R73, I18). Safe. -/
  | memOutside
  /-- A host MEM access of more than one byte as a single step (20_memory.md R73, I12). Safe. -/
  | memWide
  deriving DecidableEq, Repr

/-- What one step answers. -/
abbrev Result := Host.Outcome State Fault Refusal

def Status.reset : Status where
  busy := false
  done := false
  drop := false
  szmis := false
  err := none
  tv := false
  cv := false

def OperandRegs.reset : OperandRegs where
  srcAddr := 0
  srcLen := 0
  dstAddr := 0
  dstCap := 0
  arg0 := 0
  arg1 := 0
  arg2 := 0

/-- All five result registers 0: at reset (10_state.md R51) and after every error (60_exceptions.md R403 (b)). -/
def ResultRegs.zero : ResultRegs where
  resLen := 0
  res0 := 0
  res1 := 0
  res2 := 0
  res3 := 0

/-- The state after reset of the instance with parameters `p` (10_state.md R51). L, TREE and CT are unspecified and
unreadable there; the model holds 0, Empty and the empty map (DESIGN CHOICE, unsafe, notes/assumptions/9.md). -/
def State.resetWith (p : Params) : State where
  cfg := p
  ie := false
  cmd := 0
  status := Status.reset
  ops := OperandRegs.reset
  res := ResultRegs.zero
  latch := ⟨0, OperandRegs.reset⟩
  tree := none
  ct := []
  mem := []
  host := []
  turns := []
  replies := []
  draws := 0
  epoch := 0

/-- The machine right after reset (10_state.md R51), of an instance whose parameters are uninterpreted. -/
def State.reset : State := State.resetWith Config.params

end Sys2Proof.Machine
end

