-- ==== Sys2Proof/Machine/Formats.lean ====
section
/-! DEFINITION. The number and data formats: little-endian fields (00_scope.md R12), the RLE pair stream (30_encoding.md
R105), the frequency table (R106), the packed payload and its bit index (R107, R108), valid bits and the bit limit (R109). -/

namespace Sys2Proof.Machine

/-! ### Little-endian fields (00_scope.md R12) -/

/-- `le_k(v)`: the least significant byte first. -/
def leBytes : Nat → Nat → Bytes
  | 0, _ => []
  | k + 1, v => BitVec.ofNat 8 v :: leBytes k (v / 256)

/-- `from_le(s)`. -/
def fromLe : Bytes → Nat
  | [] => 0
  | b :: s => b.toNat + 256 * fromLe s

/-- `sle32(v)` of a signed value: two's complement. -/
def sle32 (v : Int) : Bytes := leBytes 4 (v % 2 ^ 32).toNat

/-- `from_sle32(s)`. -/
def fromSle32 (s : Bytes) : Int := if fromLe s < 2 ^ 31 then fromLe s else (fromLe s : Int) - 2 ^ 32

/-! ### Pairs and symbols (30_encoding.md R105, 40_rle.md R152) -/

/-- An RLE pair `(run_length, byte_value)` (00_scope.md R15). -/
structure Pair where
  run : Byte
  val : Byte
  deriving DecidableEq, Repr

/-- `sym(r, b) = r << 8 | b` (40_rle.md R152). -/
def Pair.sym (p : Pair) : Symbol := p.run ++ p.val

/-- `run(s) = s[15:8]` (40_rle.md R152). -/
def runOf (s : Symbol) : Byte := s.extractLsb' 8 8

/-- `byteval(s) = s[7:0]` (40_rle.md R152). -/
def bytevalOf (s : Symbol) : Byte := s.extractLsb' 0 8

/-- A symbol's two bytes, `le_2` (30_encoding.md R105). -/
def symBytes (s : Symbol) : Bytes := leBytes 2 s.toNat

/-- `PairBytes(pairs)` (30_encoding.md R105). -/
def pairBytes (ps : List Pair) : Bytes := ps.flatMap fun p => symBytes p.sym

/-- The pairs of a pair stream of even length: pair k is `(s[2k+1], s[2k])` (30_encoding.md R105). -/
def pairsOf : Bytes → List Pair
  | b :: r :: s => ⟨r, b⟩ :: pairsOf s
  | _ => []

/-! ### The frequency table (30_encoding.md R106) -/

/-- An entry of the frequency table. -/
structure Entry where
  sym : Symbol
  cnt : Count
  deriving DecidableEq, Repr

/-- One entry: `le_2(sym) ++ le_8(cnt)`. -/
def Entry.toBytes (e : Entry) : Bytes := leBytes 2 e.sym.toNat ++ leBytes 8 e.cnt.toNat

/-- `TableBytes(E)` (30_encoding.md R106). -/
def tableBytes (es : List Entry) : Bytes := es.flatMap Entry.toBytes

/-- The entry whose ten bytes are `s`. -/
def entryOf (s : Bytes) : Entry := ⟨BitVec.ofNat 16 (fromLe (s.take 2)), BitVec.ofNat 64 (fromLe ((s.drop 2).take 8))⟩

/-- The first `n` entries of a table, entry i at byte offset 10i (30_encoding.md R106). -/
def entriesOf : Nat → Bytes → List Entry
  | 0, _ => []
  | n + 1, s => entryOf (s.take 10) :: entriesOf n (s.drop 10)

/-! ### The payload (30_encoding.md R107..R109) -/

/-- `ceil(n/8)` (00_scope.md R9). -/
def ceilDiv8 (n : Nat) : Nat := (n + 7) / 8

/-- Byte `j` of `Packed(bits)`: the first bit lands in bit 7, and bits past the end are 0 (30_encoding.md R107). -/
def packedByte (bits : BitString) (j : Nat) : Byte :=
  BitVec.ofNat 8 (((List.range 8).map fun t => (bits.getD (8 * j + t) false).toNat * 2 ^ (7 - t)).sum)

/-- `Packed(bits)` (30_encoding.md R107). -/
def packed (bits : BitString) : Bytes := (List.range (ceilDiv8 bits.length)).map (packedByte bits)

/-- `bit(pl, k)` (30_encoding.md R108). -/
def bitAt (pl : Bytes) (k : Nat) : Bool := (pl.getD (k / 8) 0).getLsbD (7 - k % 8)

/-- `ValidBits(B)` (30_encoding.md R109). -/
def validBits (n : Nat) : Nat := if n = 0 then 8 else (n - 1) % 8 + 1

/-- `Limit(P, vb)` (30_encoding.md R109). -/
def bitLimit (p vb : Nat) : Nat := if p = 0 then 0 else 8 * (p - 1) + vb

end Sys2Proof.Machine
end

