-- ==== Sys2Proof/WellFormed.lean ====
section
/-! DEFINITION. The checks on raw terms: the fields and the legality of a command word (30_encoding.md R101..R103), and
the host accesses that the spec gives a meaning (20_memory.md R73, R74). -/

namespace Sys2Proof

/-- OPC = w[7:0] (30_encoding.md R101). -/
def opcodeOf (w : Word) : Byte := w.extractLsb' 0 8

/-- P = w[8] (30_encoding.md R101, R102). -/
def protectOf (w : Word) : Bool := w.getLsbD 8

/-- RSV = w[31:9] (30_encoding.md R101). -/
def reservedOf (w : Word) : BitVec 23 := w.extractLsb' 9 23

/-- The opcode of ENCODE, the only one that P belongs to (30_encoding.md R102). -/
def encodeOpcode : Byte := 0x0A

/-- The opcode map's last opcode: 0x0D..0xFF are reserved (30_encoding.md R103). -/
def lastOpcode : Byte := 0x0C

/-- The three conditions of 30_encoding.md R103, all of which a legal word meets. -/
def legalWord (w : Word) : Bool :=
  reservedOf w == 0 && decide (opcodeOf w ≤ lastOpcode) && (!protectOf w || opcodeOf w == encodeOpcode)

/-- Every `Instr` term is a legal command: no command has an operand field to be out of range (30_encoding.md R100), and P
belongs to ENCODE by the type (R102). -/
def Instr.wf : Instr → Bool
  | .nop => true
  | .rleEnc => true
  | .rleDec => true
  | .freq => true
  | .treeBuild => true
  | .codeGen => true
  | .codeQuery => true
  | .pack => true
  | .unpack => true
  | .xor => true
  | .encode _ => true
  | .decode => true
  | .clear => true

/-- A REG access the spec gives a meaning: aligned and below 0x100 (20_memory.md R74). -/
def regOffsetOk (off : Nat) : Bool := off % 4 == 0 && decide (off < 0x100)

/-- A host access that is a step of the model, on a MEM of `memSize` bytes (20_memory.md R73, R74). -/
def HostOp.wf (memSize : Nat) : HostOp → Bool
  | .regRead off => regOffsetOk off
  | .regWrite off _ => regOffsetOk off
  | .memRead a => decide (a < memSize)
  | .memWrite a _ => decide (a < memSize)
  | .wait => true
  | .regOtherWidth _ _ => false
  | .memWide _ _ => false

end Sys2Proof
end

