-- ==== Sys2Proof/Decode.lean ====
section
/-! DEFINITION. Decoding and encoding of command words (30_encoding.md R101..R103, R113). `decodeWord` is total: a word is
a command, or it is illegal for one named reason. `encodeWord` is written from the opcode map's column "word(s)". -/

namespace Sys2Proof

/-- Why a command word is not legal (30_encoding.md R113). -/
inductive IllegalWord where
  /-- RSV is not 0. -/
  | reservedBits
  /-- The opcode is one of 0x0D..0xFF. -/
  | reservedOpcode
  /-- P = 1 and OPC is not ENCODE. -/
  | protectNotEncode
  deriving DecidableEq, Repr

/-- The opcode map (30_encoding.md R103); `p` is the P bit, which only ENCODE takes. -/
def instrOfOpcode (opc : Nat) (p : Bool) : Option Instr :=
  match opc with
  | 0x00 => some .nop
  | 0x01 => some .rleEnc
  | 0x02 => some .rleDec
  | 0x03 => some .freq
  | 0x04 => some .treeBuild
  | 0x05 => some .codeGen
  | 0x06 => some .codeQuery
  | 0x07 => some .pack
  | 0x08 => some .unpack
  | 0x09 => some .xor
  | 0x0A => some (.encode p)
  | 0x0B => some .decode
  | 0x0C => some .clear
  | _ => none

/-- The command of a word, or the reason it is illegal (30_encoding.md R103, R113). -/
def decodeWord (w : Word) : Except IllegalWord Instr :=
  if reservedOf w ≠ 0 then .error .reservedBits
  else match instrOfOpcode (opcodeOf w).toNat (protectOf w) with
    | none => .error .reservedOpcode
    | some i => if protectOf w && opcodeOf w != encodeOpcode then .error .protectNotEncode else .ok i

/-- The word of a command (30_encoding.md R103, column "word(s)"). -/
def encodeWord : Instr → Word
  | .nop => 0x00000000
  | .rleEnc => 0x00000001
  | .rleDec => 0x00000002
  | .freq => 0x00000003
  | .treeBuild => 0x00000004
  | .codeGen => 0x00000005
  | .codeQuery => 0x00000006
  | .pack => 0x00000007
  | .unpack => 0x00000008
  | .xor => 0x00000009
  | .encode p => if p then 0x0000010A else 0x0000000A
  | .decode => 0x0000000B
  | .clear => 0x0000000C

/-- The command word whose bits, numbered as spec/opcode_table.json numbers them, are the low `nbits` bits of `w`; every
higher bit is 0. -/
def tableWord (nbits w : Nat) : Word := BitVec.ofNat 32 (w % 2 ^ nbits)

/-- The instruction the decoder reads from the opcode table's word `w` of `nbits` bits. -/
def decodeTableWord (nbits w : Nat) : Option Instr :=
  match decodeWord (tableWord nbits w) with
  | .ok i => some i
  | .error _ => none

end Sys2Proof
end

