-- ==== Sys2Proof/Machine/Flags.lean ====
section
/-! DEFINITION. STATUS, CTRL and the interrupt line: error codes (60_exceptions.md R400), the word a STATUS read returns
(10_state.md R37), the write-1-to-clear bits (R36), CTRL (R34) and IRQ (60_exceptions.md R410). -/

namespace Sys2Proof.Machine

/-- The code of an error (60_exceptions.md R400). -/
def Err.code : Err → BitVec 4
  | .alloc => 1
  | .format => 2
  | .trunc => 3
  | .illegal => 4
  | .range => 5
  | .state => 6
  | .nocode => 7

/-- STATUS.ERR: 0 is OK (60_exceptions.md R400). -/
def errField : Option Err → BitVec 4
  | none => 0
  | some e => e.code

/-- The errors of a command's own processing, after which its destination range is unspecified (20_memory.md R81,
60_exceptions.md R403 (c)). -/
def Err.spoilsDst : Err → Bool
  | .alloc => true
  | .format => true
  | .trunc => true
  | .nocode => true
  | .illegal => false
  | .range => false
  | .state => false

/-- A flag as a one-bit field of a word. -/
def flagBit (b : Bool) (n : Nat) : Word := BitVec.ofNat 32 b.toNat <<< n

/-- What a read of STATUS returns (10_state.md R37). -/
def Status.word (st : Status) : Word :=
  flagBit st.tv 8 ||| flagBit st.cv 9 ||| ((errField st.err).setWidth 32 <<< 4) ||| flagBit st.szmis 3 |||
    flagBit st.drop 2 ||| flagBit st.done 1 ||| flagBit st.busy 0

/-- A host write of `v` to STATUS: bits 1 and 2 are write-1-to-clear, nothing else changes (10_state.md R36). -/
def Status.write (st : Status) (v : Word) : Status :=
  { st with done := st.done && !v.getLsbD 1, drop := st.drop && !v.getLsbD 2 }

/-- What a read of CTRL returns: IE in bit 0, the rest 0 (10_state.md R34). -/
def ctrlWord (ie : Bool) : Word := flagBit ie 0

/-- IRQ = STATUS.DONE AND CTRL.IE (60_exceptions.md R410): the level of the interrupt output in this state. -/
def State.irq (s : State) : Bool := s.status.done && s.ie

/-- The flags a command leaves on an error: TV and CV (10_state.md R43). -/
structure ErrFlags where
  tv : Bool
  cv : Bool
  deriving DecidableEq, Repr

/-- TV and CV unchanged (10_state.md R43, first row). -/
def State.keptFlags (s : State) : ErrFlags := ⟨s.status.tv, s.status.cv⟩

/-- TV = CV = 0 (10_state.md R43: TREE_BUILD on error, ENCODE and DECODE always). -/
def ErrFlags.cleared : ErrFlags := ⟨false, false⟩

/-- CODE_GEN on an error: TV unchanged; CV 0 on ALLOC, unchanged on STATE (10_state.md R43, 41_huffman.md R212). -/
def State.codeGenErrFlags (s : State) (e : Err) : ErrFlags := ⟨s.status.tv, if e = .alloc then false else s.status.cv⟩

end Sys2Proof.Machine
end

