-- ==== Sys2Proof/Machine/Operands.lean ====
section
/-! DEFINITION. Operands and checks: which ranges a command has (30_encoding.md R104), how each operand is read from the
latched registers (R115), the range check (60_exceptions.md R404), the state check (R405), and `need` (00_scope.md R13). -/

namespace Sys2Proof.Machine

/-- `need(cond, E)`: `raise E` unless the condition holds (00_scope.md R13). -/
def need (c : Bool) (e : Err) : Except Err Unit := if c then .ok () else .error e

/-- Which ranges a command has, and whether it may run in place (30_encoding.md R104, 60_exceptions.md R404). -/
structure Ports where
  src : Bool
  dst : Bool
  inPlace : Bool
  deriving DecidableEq, Repr

def Ports.none : Ports := ⟨false, false, false⟩
def Ports.srcOnly : Ports := ⟨true, false, false⟩
def Ports.srcDst : Ports := ⟨true, true, false⟩

/-- Columns "src" and "dst" of 30_encoding.md R104; only XOR may run in place (60_exceptions.md R404). -/
def portsOf : Instr → Ports
  | .nop => .none
  | .rleEnc => .srcDst
  | .rleDec => .srcDst
  | .freq => .srcDst
  | .treeBuild => .srcOnly
  | .codeGen => .none
  | .codeQuery => .none
  | .pack => .srcDst
  | .unpack => .srcDst
  | .xor => ⟨true, true, true⟩
  | .encode _ => .srcDst
  | .decode => .srcDst
  | .clear => .none

/-- The state check (60_exceptions.md R405, 30_encoding.md R104 column "needs"). -/
def stateCheck : Instr → Status → Except Err Unit
  | .codeGen, st => need st.tv .state
  | .unpack, st => need st.tv .state
  | .codeQuery, st => need st.cv .state
  | .pack, st => need st.cv .state
  | .nop, _ => .ok ()
  | .rleEnc, _ => .ok ()
  | .rleDec, _ => .ok ()
  | .freq, _ => .ok ()
  | .treeBuild, _ => .ok ()
  | .xor, _ => .ok ()
  | .encode _, _ => .ok ()
  | .decode, _ => .ok ()
  | .clear, _ => .ok ()

/-! ### Operands (30_encoding.md R115) -/

namespace OperandRegs

/-- The source address, unsigned. -/
def src (o : OperandRegs) : Nat := o.srcAddr.toNat
/-- The source length in bytes, unsigned. -/
def len (o : OperandRegs) : Nat := o.srcLen.toNat
/-- The destination address, unsigned. -/
def dst (o : OperandRegs) : Nat := o.dstAddr.toNat
/-- The destination capacity in bytes, unsigned. -/
def cap (o : OperandRegs) : Nat := o.dstCap.toNat
/-- The CODE_QUERY symbol: ARG0[15:0]. -/
def querySymbol (o : OperandRegs) : Symbol := o.arg0.extractLsb' 0 16
/-- The CODE_QUERY bit offset: ARG1, unsigned. -/
def queryOffset (o : OperandRegs) : Nat := o.arg1.toNat
/-- The XOR key: ARG0[7:0]. -/
def xorKey (o : OperandRegs) : Byte := o.arg0.extractLsb' 0 8
/-- The UNPACK symbol count: ARG1 << 32 | ARG0, 64 bits unsigned. -/
def symbolCount (o : OperandRegs) : Nat := (o.arg1 ++ o.arg0).toNat
/-- The UNPACK valid-bits value: ARG2, unsigned 32-bit. -/
def validBitsArg (o : OperandRegs) : Nat := o.arg2.toNat

/-- `a` is a byte of the source range (10_state.md R38). -/
def inSrc (o : OperandRegs) (a : Nat) : Bool := decide (o.src ≤ a) && decide (a < o.src + o.len)
/-- `a` is a byte of the destination range (10_state.md R38). -/
def inDst (o : OperandRegs) (a : Nat) : Bool := decide (o.dst ≤ a) && decide (a < o.dst + o.cap)

end OperandRegs

/-! ### The range check (60_exceptions.md R404) -/

/-- The source and destination overlap; an empty range overlaps nothing. -/
def OperandRegs.overlap (o : OperandRegs) : Bool :=
  decide (o.len > 0) && decide (o.cap > 0) && decide (o.src < o.dst + o.cap) && decide (o.dst < o.src + o.len)

/-- The range check on the latched operands, with mathematical sums (60_exceptions.md R404). -/
def rangeCheck (p : Ports) (o : OperandRegs) (memSize : Nat) : Except Err Unit :=
  need ((!p.src || decide (o.src + o.len ≤ memSize)) && (!p.dst || decide (o.dst + o.cap ≤ memSize)) &&
    (!(p.src && p.dst) || !o.overlap || (p.inPlace && decide (o.srcAddr = o.dstAddr)))) .range

end Sys2Proof.Machine
end

