-- ==== Sys2Proof/Machine/Ops.lean ====
section
/-! DEFINITION. The shared operations: one byte and many bytes of MEM (20_memory.md R73, R75), the issue of a command
(44_control.md R350), its completion with success or with an error (R352, 60_exceptions.md R403, the block's counterpart of
taking an exception, R411), and the order of a command's checks (60_exceptions.md R406). -/

namespace Sys2Proof.Machine

/-! ### MEM -/

namespace Memory

/-- `MEM[a]`, or `none` where no byte is written (20_memory.md R72). -/
def read : Memory → Nat → Option Byte
  | [], _ => none
  | c :: m, a => if c.1 = a then some c.2 else read m a

/-- `MEM[a] <- b` (20_memory.md R73), keeping the addresses rising. -/
def write : Memory → Nat → Byte → Memory
  | [], a, b => [(a, b)]
  | c :: m, a, b => if a < c.1 then (a, b) :: c :: m else if a = c.1 then (a, b) :: m else c :: write m a b

/-- `MemRead(a, n)`: the `n` bytes from `a` on, or `none` where one of them is unwritten (00_scope.md R13, 20_memory.md R72). -/
def readBytes (m : Memory) : Nat → Nat → Option Bytes
  | _, 0 => some []
  | a, n + 1 =>
    match m.read a with
    | none => none
    | some b => (readBytes m (a + 1) n).map (b :: ·)

/-- `MemWrite(a, s)`: MEM[a + i] <- s[i] for every i (00_scope.md R13). -/
def writeBytes : Memory → Nat → Bytes → Memory
  | m, _, [] => m
  | m, a, b :: s => writeBytes (m.write a b) (a + 1) s

end Memory

/-! ### Completion (44_control.md R352) -/

/-- The success result of a command (00_scope.md R14): the bytes to write at DST_ADDR, the result registers, the new
internal state and SZMIS. -/
structure Success where
  out : Bytes
  res : ResultRegs
  tree : Option HuffTree
  ct : CodeTable
  tv : Bool
  cv : Bool
  szmis : Bool
  deriving DecidableEq, Repr

/-- A success that leaves TREE, CT, TV and CV as they are and SZMIS 0 (10_state.md R43, first row). -/
def State.plainSuccess (s : State) (out : Bytes) (res : ResultRegs) : Success where
  out := out
  res := res
  tree := s.tree
  ct := s.ct
  tv := s.status.tv
  cv := s.status.cv
  szmis := false

/-- A success that leaves TV = CV = 0 (ENCODE, DECODE and CLEAR, 10_state.md R43). TREE and CT, unreadable from here on, stay
as they are (notes/assumptions/10.md). -/
def State.clearingSuccess (s : State) (out : Bytes) (res : ResultRegs) (szmis : Bool) : Success where
  out := out
  res := res
  tree := s.tree
  ct := s.ct
  tv := false
  cv := false
  szmis := szmis

/-- The completion of a command with success (44_control.md R352, branch `ok`). -/
def State.completeOk (s : State) (r : Success) : State :=
  { s with
    mem := s.mem.writeBytes s.latch.ops.dst r.out
    res := r.res
    tree := r.tree
    ct := r.ct
    status := { s.status with busy := false, done := true, szmis := r.szmis, err := none, tv := r.tv, cv := r.cv } }

/-- `k` free bytes, from the `n`-th on. -/
def freeBytes (n k : Nat) : Bytes := (List.range k).map fun i => Config.freeByte (n + i)

/-- The destination range becomes unspecified: one free byte each (60_exceptions.md R403 (c), I13). -/
def State.spoilDst (s : State) : State :=
  { s with
    mem := s.mem.writeBytes s.latch.ops.dst (freeBytes s.draws s.latch.ops.cap)
    draws := s.draws + s.latch.ops.cap }

/-- The completion of a command with error `e` (44_control.md R352, branch `err`; 60_exceptions.md R403): the error code is
saved in STATUS.ERR, DONE set, BUSY cleared, the results zeroed, and the destination range of a command that has one
(`hasDst`) is unspecified after an error of the command's own processing. -/
def State.completeErr (s : State) (hasDst : Bool) (e : Err) (f : ErrFlags) : State :=
  let t := if hasDst && e.spoilsDst then s.spoilDst else s
  { t with
    res := ResultRegs.zero
    status := { s.status with busy := false, done := true, szmis := false, err := some e, tv := f.tv, cv := f.cv } }

/-- The completion of an illegal command word (60_exceptions.md R401): no MEM access, TREE, TV, CT and CV unchanged. -/
def State.completeIllegal (s : State) : State := s.completeErr false .illegal s.keptFlags

/-! ### Running a command (60_exceptions.md R406) -/

/-- `MemRead(L.SRC_ADDR, L.SRC_LEN)` of a command that has a source range; a command without one reads nothing. -/
def State.source (s : State) (p : Ports) : Option Bytes :=
  if p.src then s.mem.readBytes s.latch.ops.src s.latch.ops.len else some []

/-- Complete with what a command's pure function answers (44_control.md R352). -/
def State.complete (s : State) (hasDst : Bool) (onErr : Err → ErrFlags) : Except Err Success → State
  | .ok r => s.completeOk r
  | .error e => s.completeErr hasDst e (onErr e)

/-- A legal command `i`, from its checks to its completion, in the order of 60_exceptions.md R406: the range check (R404),
the state check (R405), then the command's pseudocode: the checks `pre` that stand before its MemRead, the MemRead, and
`body` on the source bytes. A MemRead that meets an unwritten byte is a fault (20_memory.md R72). -/
def State.run (s : State) (i : Instr) (onErr : Err → ErrFlags) (pre : Except Err Unit)
    (body : Bytes → Except Err Success) : Result :=
  let p := portsOf i
  let checks := do
    rangeCheck p s.latch.ops s.cfg.memSize.val
    stateCheck i s.status
    pre
  match checks with
  | .error e => .next (s.completeErr p.dst e (onErr e))
  | .ok _ =>
    match s.source p with
    | none => .fault .readUnwritten
    | some x => .next (s.complete p.dst onErr (body x))

/-! ### Issue and drop (44_control.md R350, R353) -/

/-- The issue of command word `v` (44_control.md R350): CMD and L take their values, BUSY is set, DONE, ERR and SZMIS are
cleared; DROP, TV, CV and the results stay. -/
def State.issue (s : State) (v : Word) : State :=
  { s with
    cmd := v
    latch := ⟨v, s.ops⟩
    status := { s.status with busy := true, done := false, err := none, szmis := false } }

/-- A CMD write while BUSY = 1: only DROP is set (44_control.md R353). -/
def State.dropWrite (s : State) : State := { s with status := { s.status with drop := true } }

/-! ### Reset (70_reset_and_hazards.md R450, R451) -/

/-- The reset event: every piece of the block's state at its reset value, MEM unspecified, a command in flight aborted. The
instance's parameters, the host, the schedule and the free-value counters are no state of the block; `epoch` counts the event. -/
def State.resetEvent (s : State) : State :=
  { State.resetWith s.cfg with
    host := s.host
    turns := s.turns
    replies := s.replies
    draws := s.draws
    epoch := s.epoch + 1 }

end Sys2Proof.Machine
end

