-- ==== Sys2Proof/Machine/Rle.lean ====
section
/-! DEFINITION. The RLE transform and the frequency table: the functions of 40_rle.md (R150, R153, R170) and the commands
RLE_ENC (R155), RLE_DEC (R162) and FREQ (R172). -/

namespace Sys2Proof.Machine

/-! ### Functions -/

/-- The scan of 40_rle.md R150 inside a run of byte `b`, `r` of which have been counted (1 <= r <= 255). -/
def rleScan (b : Byte) (r : Nat) : Bytes → List Pair
  | [] => [⟨BitVec.ofNat 8 r, b⟩]
  | x :: xs => if x = b ∧ r < 255 then rleScan b (r + 1) xs else ⟨BitVec.ofNat 8 r, b⟩ :: rleScan x 1 xs

/-- `RleForward(X)` (40_rle.md R150). -/
def rleForward : Bytes → List Pair
  | [] => []
  | x :: xs => rleScan x 1 xs

/-- `RleInverse(pairs)` (40_rle.md R153). -/
def rleInverse (ps : List Pair) : Bytes := ps.flatMap fun p => List.replicate p.run.toNat p.val

/-- Ascending by (count, symbol), count first, both unsigned (40_rle.md R170). -/
abbrev Entry.le (a b : Entry) : Prop := a.cnt < b.cnt ∨ (a.cnt = b.cnt ∧ a.sym ≤ b.sym)

/-- `FreqTable(pairs)` (40_rle.md R170): one entry per distinct symbol with its number of occurrences, sorted. -/
def freqTable (ps : List Pair) : List Entry :=
  let syms := ps.map Pair.sym
  (syms.dedup.map fun s => (⟨s, BitVec.ofNat 64 (syms.count s)⟩ : Entry)).insertionSort Entry.le

/-! ### Pseudocode of the commands, as pure functions (00_scope.md R14) -/

/-- RLE_ENC on source bytes `x` (40_rle.md R155). -/
def rleEncBody (cap : Nat) (x : Bytes) : Except Err (Bytes × ResultRegs) := do
  let pairs := rleForward x
  let out := pairBytes pairs
  need (decide (out.length ≤ cap)) .alloc
  .ok (out, { ResultRegs.zero with resLen := BitVec.ofNat 32 out.length, res0 := BitVec.ofNat 32 pairs.length })

/-- The loop of RLE_DEC (40_rle.md R162): `out` is what is expanded so far. -/
def rleDecLoop (cap : Nat) : List Pair → Bytes → Except Err Bytes
  | [], out => .ok out
  | p :: ps, out => do
    need (decide (1 ≤ p.run.toNat)) .format
    need (decide (out.length + p.run.toNat ≤ cap)) .alloc
    rleDecLoop cap ps (out ++ List.replicate p.run.toNat p.val)

/-- RLE_DEC on source bytes `x` (40_rle.md R162). -/
def rleDecBody (cap : Nat) (x : Bytes) : Except Err (Bytes × ResultRegs) := do
  need (decide (x.length % 2 = 0)) .trunc
  let out ← rleDecLoop cap (pairsOf x) []
  .ok (out, { ResultRegs.zero with resLen := BitVec.ofNat 32 out.length, res0 := BitVec.ofNat 32 (x.length / 2) })

/-- FREQ on source bytes `x` (40_rle.md R172). -/
def freqBody (cap : Nat) (x : Bytes) : Except Err (Bytes × ResultRegs) := do
  need (decide (x.length % 2 = 0)) .trunc
  let pairs := pairsOf x
  need (pairs.all fun p => decide (1 ≤ p.run.toNat)) .format
  let es := freqTable pairs
  let out := tableBytes es
  need (decide (out.length ≤ cap)) .alloc
  .ok (out, { ResultRegs.zero with
    resLen := BitVec.ofNat 32 (10 * es.length)
    res0 := BitVec.ofNat 32 es.length
    res1 := BitVec.ofNat 32 pairs.length })

/-! ### The commands -/

/-- RLE_ENC (40_rle.md R155). -/
def execRleEnc (s : State) : Result :=
  s.run .rleEnc (fun _ => s.keptFlags) (.ok ()) fun x => do
    let (out, res) ← rleEncBody s.latch.ops.cap x
    .ok (s.plainSuccess out res)

/-- RLE_DEC (40_rle.md R162). -/
def execRleDec (s : State) : Result :=
  s.run .rleDec (fun _ => s.keptFlags) (.ok ()) fun x => do
    let (out, res) ← rleDecBody s.latch.ops.cap x
    .ok (s.plainSuccess out res)

/-- FREQ (40_rle.md R172). -/
def execFreq (s : State) : Result :=
  s.run .freq (fun _ => s.keptFlags) (.ok ()) fun x => do
    let (out, res) ← freqBody s.latch.ops.cap x
    .ok (s.plainSuccess out res)

end Sys2Proof.Machine
end

