-- ==== Sys2Proof/Machine/Huffman.lean ====
section
/-! DEFINITION. The Huffman tree and the code table: the functions of 41_huffman.md (R200..R211) and the commands
TREE_BUILD (R206), CODE_GEN (R212) and CODE_QUERY (R220). -/

namespace Sys2Proof.Machine

/-! ### Trees and the priority key -/

/-- `w(T)` (41_huffman.md R200). -/
def HuffTree.weight : HuffTree → Count
  | .leaf _ w => w
  | .node w _ _ => w

/-- `csym(n)` (41_huffman.md R203): an internal node's nominal symbol is 0. -/
def HuffTree.csym : HuffTree → Nat
  | .leaf s _ => s.toNat
  | .node _ _ _ => 0

/-- `kind(n)` (41_huffman.md R203). -/
def HuffTree.kind : HuffTree → Nat
  | .leaf _ _ => 1
  | .node _ _ _ => 0

/-- A node in the pool of one run of TreeBuild, with its creation number (41_huffman.md R202). -/
structure PoolNode where
  tree : HuffTree
  seq : Nat
  deriving DecidableEq, Repr

/-- The key of `a` is below the key of `b`: (weight, csym, kind, seq), lexicographic, unsigned (41_huffman.md R203). -/
def PoolNode.before (a b : PoolNode) : Bool :=
  if a.tree.weight.toNat ≠ b.tree.weight.toNat then decide (a.tree.weight.toNat < b.tree.weight.toNat)
  else if a.tree.csym ≠ b.tree.csym then decide (a.tree.csym < b.tree.csym)
  else if a.tree.kind ≠ b.tree.kind then decide (a.tree.kind < b.tree.kind)
  else decide (a.seq < b.seq)

/-! ### Building the tree (41_huffman.md R204) -/

/-- The element with the least key and the pool without it. -/
def extractMin : List PoolNode → Option (PoolNode × List PoolNode)
  | [] => none
  | x :: xs =>
    match extractMin xs with
    | none => some (x, [])
    | some (m, rest) => if m.before x then some (m, x :: rest) else some (x, m :: rest)

/-- The node joining the first extracted `a` (left) and the second `b` (right). -/
def HuffTree.join (a b : HuffTree) : HuffTree := .node (a.weight + b.weight) a b

/-- `repeat k times` of 41_huffman.md R204; `next` is the next creation number. -/
def mergeLoop : Nat → Nat → List PoolNode → List PoolNode
  | 0, _, pool => pool
  | k + 1, next, pool =>
    match extractMin pool with
    | none => pool
    | some (a, p₁) =>
      match extractMin p₁ with
      | none => pool
      | some (b, p₂) => mergeLoop k (next + 1) (⟨a.tree.join b.tree, next⟩ :: p₂)

/-- The leaves of the table, leaf i with creation number i (41_huffman.md R202). -/
def leafPool (es : List Entry) : List PoolNode := es.mapIdx fun i e => ⟨.leaf e.sym e.cnt, i⟩

/-- `TreeBuild(E)` (41_huffman.md R204); `none` is Empty. For one entry the loop runs 0 times and the leaf is the root. -/
def treeBuild (es : List Entry) : Option HuffTree :=
  ((mergeLoop (es.length - 1) es.length (leafPool es)).head?).map PoolNode.tree

/-! ### Table validation (41_huffman.md R205) -/

/-- `(c, s) > (E[i-1].cnt, E[i-1].sym)`, where there is an entry before. -/
def ascends (prev : Option Entry) (e : Entry) : Bool :=
  match prev with
  | none => true
  | some p => decide (p.cnt < e.cnt) || (decide (p.cnt = e.cnt) && decide (p.sym < e.sym))

/-- The loop body of 41_huffman.md R205 for one entry: the checks in order, and the new total. -/
def checkEntry (prev : Option Entry) (seen : List Symbol) (total : Nat) (e : Entry) : Except Err Nat := do
  need (decide (1 ≤ (runOf e.sym).toNat)) .format
  need (decide (1 ≤ e.cnt.toNat)) .format
  need (ascends prev e) .format
  need (!seen.contains e.sym) .format
  need (decide (total + e.cnt.toNat ≤ 2 ^ 64 - 1)) .format
  .ok (total + e.cnt.toNat)

/-- The loop of 41_huffman.md R205 from an entry on. -/
def validateFrom (prev : Option Entry) (seen : List Symbol) (total : Nat) : List Entry → Except Err Nat
  | [] => .ok total
  | e :: es => do
    let total' ← checkEntry prev seen total e
    validateFrom (some e) (e.sym :: seen) total' es

/-- `ValidateEntries(E)`: the total of the counts, or FORMAT (41_huffman.md R205). -/
def validateEntries (es : List Entry) : Except Err Nat := validateFrom none [] 0 es

/-! ### Codes (41_huffman.md R210, R211) -/

/-- `Paths(T, p)`, the leaves from left to right: left is 0, right is 1. -/
def HuffTree.paths : HuffTree → BitString → CodeTable
  | .leaf s _, p => [(s, p)]
  | .node _ l r, p => l.paths (p ++ [false]) ++ r.paths (p ++ [true])

/-- `CodeGen(T)` (41_huffman.md R211); a single leaf has the one-bit code "0". -/
def codeGen : Option HuffTree → CodeTable
  | none => []
  | some (.leaf s _) => [(s, [false])]
  | some (.node _ l r) => l.paths [false] ++ r.paths [true]

/-- `CT(s)` (10_state.md R47). -/
def CodeTable.code (c : CodeTable) (s : Symbol) : Option BitString := (c.find? fun e => e.1 == s).map Prod.snd

/-- `maxlen` of 41_huffman.md R212: 0 if there is no code. -/
def maxCodeLen (c : CodeTable) : Nat := (c.map fun e => e.2.length).foldr max 0

/-- `minlen` of 41_huffman.md R212: 0 if there is no code. -/
def minCodeLen (c : CodeTable) : Nat := ((c.map fun e => e.2.length).min?).getD 0

/-! ### Pseudocode of the commands -/

/-- `N <= 65280` is the bound on the alphabet (40_rle.md R171, 90_conflicts.md C5). -/
def maxEntries : Nat := 65280

/-- TREE_BUILD on source bytes `x`: the tree and the results (41_huffman.md R206). -/
def treeBuildBody (x : Bytes) : Except Err (Option HuffTree × ResultRegs) := do
  need (decide (x.length % 10 = 0)) .trunc
  let n := x.length / 10
  need (decide (n ≤ maxEntries)) .format
  let es := entriesOf n x
  let total ← validateEntries es
  .ok (treeBuild es, { ResultRegs.zero with
    res0 := BitVec.ofNat 32 n
    res1 := BitVec.ofNat 32 total
    res2 := BitVec.ofNat 32 (total >>> 32) })

/-- CODE_GEN on TREE: the code table and the results (41_huffman.md R212). -/
def codeGenBody (codeLenMax : Nat) (t : Option HuffTree) : Except Err (CodeTable × ResultRegs) := do
  let c := codeGen t
  need (decide (maxCodeLen c ≤ codeLenMax)) .alloc
  .ok (c, { ResultRegs.zero with
    res0 := BitVec.ofNat 32 c.length
    res1 := BitVec.ofNat 32 (maxCodeLen c)
    res2 := BitVec.ofNat 32 (minCodeLen c) })

/-- 32 bits of a code from bit offset `off`: `c[off]` lands in bit 31, bits past the end are 0 (41_huffman.md R220). -/
def codeWindow (c : BitString) (off : Nat) : Word :=
  BitVec.ofNat 32 (((List.range 32).map fun t => (c.getD (off + t) false).toNat * 2 ^ (31 - t)).sum)

/-- CODE_QUERY: the results (41_huffman.md R220). -/
def codeQueryResult (ct : CodeTable) (sym : Symbol) (off : Nat) : ResultRegs :=
  match ct.code sym with
  | none => ResultRegs.zero
  | some c => { ResultRegs.zero with res0 := BitVec.ofNat 32 c.length, res1 := codeWindow c off }

/-! ### The commands -/

/-- TREE_BUILD (41_huffman.md R206): TV = 1 and CV = 0 on success, TV = CV = 0 on an error. -/
def execTreeBuild (s : State) : Result :=
  s.run .treeBuild (fun _ => ErrFlags.cleared) (.ok ()) fun x => do
    let (t, res) ← treeBuildBody x
    .ok { s.plainSuccess [] res with tree := t, tv := true, cv := false }

/-- CODE_GEN (41_huffman.md R212): CV = 1 on success, CV = 0 on ALLOC. -/
def execCodeGen (s : State) : Result :=
  s.run .codeGen s.codeGenErrFlags (.ok ()) fun _ => do
    let (c, res) ← codeGenBody s.cfg.codeLenMax.val s.tree
    .ok { s.plainSuccess [] res with ct := c, cv := true }

/-- CODE_QUERY (41_huffman.md R220). -/
def execCodeQuery (s : State) : Result :=
  s.run .codeQuery (fun _ => s.keptFlags) (.ok ()) fun _ =>
    .ok (s.plainSuccess [] (codeQueryResult s.ct s.latch.ops.querySymbol s.latch.ops.queryOffset))

end Sys2Proof.Machine
end

