-- ==== Sys2Proof/Machine/BitPack.lean ====
section
/-! DEFINITION. The bit-packed payload and the XOR scrambler: the functions of 42_bitpack.md (R251, R261..R263, R271) and
the commands PACK (R250), UNPACK (R260) and XOR (R270). -/

namespace Sys2Proof.Machine

/-! ### Serializer -/

/-- The concatenated codes of a pair list; a symbol without a code adds nothing (42_bitpack.md R251). -/
def payloadBits (c : CodeTable) (ps : List Pair) : BitString := ps.flatMap fun p => (c.code p.sym).getD []

/-- The loop of PACK (42_bitpack.md R250): `bits` is what is packed so far. -/
def packLoop (c : CodeTable) (cap : Nat) : List Pair → BitString → Except Err BitString
  | [], bits => .ok bits
  | p :: ps, bits =>
    match c.code p.sym with
    | none => .error .nocode
    | some code => do
      let bits' := bits ++ code
      need (decide (bits'.length / 8 ≤ cap)) .alloc
      packLoop c cap ps bits'

/-- PACK on source bytes `x` (42_bitpack.md R250). -/
def packBody (c : CodeTable) (cap : Nat) (x : Bytes) : Except Err (Bytes × ResultRegs) := do
  need (decide (x.length % 2 = 0)) .trunc
  let bits ← packLoop c cap (pairsOf x) []
  need (decide (ceilDiv8 bits.length ≤ cap)) .alloc
  let out := packed bits
  .ok (out,
    { resLen := BitVec.ofNat 32 out.length
      res0 := BitVec.ofNat 32 (validBits bits.length)
      res1 := BitVec.ofNat 32 (x.length / 2)
      res2 := BitVec.ofNat 32 bits.length
      res3 := BitVec.ofNat 32 (bits.length >>> 32) })

/-! ### Deserializer with tree traversal -/

/-- The descent of 42_bitpack.md R261 to a leaf, from stream position `pos`; no bit at or past `lim` is read. -/
def HuffTree.descend (pl : Bytes) (lim : Nat) : HuffTree → Nat → Except Err (Symbol × Nat)
  | .leaf s _, pos => .ok (s, pos)
  | .node _ l r, pos =>
    if pos < lim then
      if bitAt pl pos then r.descend pl lim (pos + 1) else l.descend pl lim (pos + 1)
    else .error .trunc

/-- `DecodeSymbol(T, pl, pos, lim)` (42_bitpack.md R261); a single leaf takes one bit of any value (R262). -/
def decodeSymbol (t : HuffTree) (pl : Bytes) (lim pos : Nat) : Except Err (Symbol × Nat) :=
  match t with
  | .leaf s _ => if pos < lim then .ok (s, pos + 1) else .error .trunc
  | .node w l r => (HuffTree.node w l r).descend pl lim pos

/-- `DecodeStream(T, pl, lim, cnt, emit)` from position `pos` with output `out` so far (42_bitpack.md R263): each symbol is
decoded, then emitted. -/
def decodeStream (t : HuffTree) (pl : Bytes) (lim : Nat) (emit : Bytes → Symbol → Except Err Bytes) :
    Nat → Nat → Bytes → Except Err (Bytes × Nat)
  | 0, pos, out => .ok (out, pos)
  | k + 1, pos, out =>
    match decodeSymbol t pl lim pos with
    | .error e => .error e
    | .ok (s, pos') =>
      match emit out s with
      | .error e => .error e
      | .ok out' => decodeStream t pl lim emit k pos' out'

/-- The `emit` of UNPACK: the symbol's two bytes, if they fit (42_bitpack.md R260). -/
def emitPair (cap : Nat) (out : Bytes) (s : Symbol) : Except Err Bytes := do
  need (decide (out.length + 2 ≤ cap)) .alloc
  .ok (out ++ symBytes s)

/-- The checks of UNPACK before its MemRead (42_bitpack.md R260). -/
def unpackChecks (t : Option HuffTree) (cnt vb : Nat) : Except Err Unit := do
  need (decide (1 ≤ vb) && decide (vb ≤ 8)) .format
  need (t.isSome || decide (cnt = 0)) .format

/-- UNPACK on payload `pl` (42_bitpack.md R260), after its checks. -/
def unpackBody (t : Option HuffTree) (cap cnt vb : Nat) (pl : Bytes) : Except Err (Bytes × ResultRegs) := do
  let (out, pos) ← match t with
    | none => .ok ([], 0)
    | some t => decodeStream t pl (bitLimit pl.length vb) (emitPair cap) cnt 0 []
  .ok (out, { ResultRegs.zero with
    resLen := BitVec.ofNat 32 out.length
    res0 := BitVec.ofNat 32 pos
    res1 := BitVec.ofNat 32 (pos >>> 32) })

/-! ### XOR scrambler -/

/-- `XorBytes(s, k)` (42_bitpack.md R271). -/
def xorBytes (s : Bytes) (k : Byte) : Bytes := s.map (· ^^^ k)

/-- XOR on source bytes `x` (42_bitpack.md R270). -/
def xorBody (cap : Nat) (key : Byte) (x : Bytes) : Except Err (Bytes × ResultRegs) := do
  need (decide (x.length ≤ cap)) .alloc
  let out := xorBytes x key
  .ok (out, { ResultRegs.zero with resLen := BitVec.ofNat 32 out.length })

/-! ### The commands -/

/-- PACK (42_bitpack.md R250). -/
def execPack (s : State) : Result :=
  s.run .pack (fun _ => s.keptFlags) (.ok ()) fun x => do
    let (out, res) ← packBody s.ct s.latch.ops.cap x
    .ok (s.plainSuccess out res)

/-- UNPACK (42_bitpack.md R260). -/
def execUnpack (s : State) : Result :=
  let o := s.latch.ops
  s.run .unpack (fun _ => s.keptFlags) (unpackChecks s.tree o.symbolCount o.validBitsArg) fun pl => do
    let (out, res) ← unpackBody s.tree o.cap o.symbolCount o.validBitsArg pl
    .ok (s.plainSuccess out res)

/-- XOR (42_bitpack.md R270). -/
def execXor (s : State) : Result :=
  s.run .xor (fun _ => s.keptFlags) (.ok ()) fun x => do
    let (out, res) ← xorBody s.latch.ops.cap s.latch.ops.xorKey x
    .ok (s.plainSuccess out res)

end Sys2Proof.Machine
end

