-- ==== Sys2Proof/Machine/Container.lean ====
section
/-! DEFINITION. The container codec: the functions of 43_container.md (R301, R311, R312) over the layout of 30_encoding.md
R110, and the commands ENCODE (R300) and DECODE (R310). -/

namespace Sys2Proof.Machine

/-! ### Encoder -/

/-- What EncodeContainer makes (43_container.md R301) and ENCODE reports (R300). -/
structure Encoded where
  bytes : Bytes
  entries : Nat
  validBits : Nat
  payloadLen : Nat
  pairs : Nat
  deriving DecidableEq, Repr

/-- The fields of the container before the payload length (30_encoding.md R110), in layout order. -/
def containerHeader (p : Params) (prot : Bool) (orig : Nat) (es : List Entry) : Bytes :=
  p.signature.toBytes ++ p.version.toBytes ++ [p.algIdRle] ++ [p.algIdHuf] ++ [BitVec.ofNat 8 prot.toNat] ++
    leBytes 8 orig ++ sle32 es.length ++ tableBytes es

/-- The XOR of the protection layer, on the payload only (43_container.md R301, R312). -/
def protect (p : Params) (prot : Bool) (pl : Bytes) : Bytes := if prot then xorBytes pl p.xorKey else pl

/-- `EncodeContainer(X, prot)` (43_container.md R301). -/
def encodeContainer (p : Params) (x : Bytes) (prot : Bool) : Except Err Encoded := do
  let pairs := rleForward x
  let es := freqTable pairs
  let c := codeGen (treeBuild es)
  need (decide (maxCodeLen c ≤ p.codeLenMax.val)) .alloc
  let bits := payloadBits c pairs
  let pl := packed bits
  let vb := validBits bits.length
  need (decide (pl.length ≤ 2 ^ 32 - 1)) .alloc
  .ok {
    bytes := containerHeader p prot x.length es ++ [BitVec.ofNat 8 vb] ++ leBytes 4 pl.length ++ protect p prot pl
    entries := es.length
    validBits := vb
    payloadLen := pl.length
    pairs := pairs.length }

/-- ENCODE on source bytes `x` (43_container.md R300). -/
def encodeBody (p : Params) (cap : Nat) (prot : Bool) (x : Bytes) : Except Err (Bytes × ResultRegs) := do
  let c ← encodeContainer p x prot
  need (decide (c.bytes.length ≤ cap)) .alloc
  .ok (c.bytes,
    { resLen := BitVec.ofNat 32 c.bytes.length
      res0 := BitVec.ofNat 32 c.entries
      res1 := BitVec.ofNat 32 c.validBits
      res2 := BitVec.ofNat 32 c.payloadLen
      res3 := BitVec.ofNat 32 c.pairs })

/-! ### Decoder -/

/-- `take(k)` of 43_container.md R311: the next `k` bytes and the rest, or TRUNC. -/
def takeBytes (k : Nat) (s : Bytes) : Except Err (Bytes × Bytes) :=
  if k ≤ s.length then .ok (s.take k, s.drop k) else .error .trunc

/-- The loop over the entries of 43_container.md R311: each is taken, then checked as in 41_huffman.md R205. -/
def parseEntries (prev : Option Entry) (seen : List Symbol) (total : Nat) :
    Nat → Bytes → Except Err (List Entry × Nat × Bytes)
  | 0, s => .ok ([], total, s)
  | n + 1, s => do
    let (b, s) ← takeBytes 10 s
    let e := entryOf b
    let total' ← checkEntry prev seen total e
    let (es, tot, s) ← parseEntries (some e) (e.sym :: seen) total' n s
    .ok (e :: es, tot, s)

/-- What ParseContainer returns (43_container.md R311). -/
structure Parsed where
  prot : Bool
  orig : Nat
  entries : List Entry
  total : Nat
  validBits : Nat
  payload : Bytes
  deriving DecidableEq, Repr

/-- `ParseContainer(Cb)` (43_container.md R311): the fields in layout order, each taken (TRUNC), then checked (FORMAT). -/
def parseContainer (p : Params) (s : Bytes) : Except Err Parsed := do
  let (sig, s) ← takeBytes 6 s
  need (sig == p.signature.toBytes) .format
  let (ver, s) ← takeBytes 2 s
  need (ver == p.version.toBytes) .format
  let (rle, s) ← takeBytes 1 s
  need (rle == [p.algIdRle]) .format
  let (huf, s) ← takeBytes 1 s
  need (huf == [p.algIdHuf]) .format
  let (prot, s) ← takeBytes 1 s
  need (prot == [0] || prot == [1]) .format
  let (orig, s) ← takeBytes 8 s
  let (cnt, s) ← takeBytes 4 s
  need (decide (0 ≤ fromSle32 cnt) && decide (fromSle32 cnt ≤ maxEntries)) .format
  let (es, total, s) ← parseEntries none [] 0 (fromSle32 cnt).toNat s
  let (vb, s) ← takeBytes 1 s
  need (decide (1 ≤ fromLe vb) && decide (fromLe vb ≤ 8)) .format
  let (plen, s) ← takeBytes 4 s
  let (pl, s) ← takeBytes (fromLe plen) s
  need s.isEmpty .format
  .ok { prot := prot == [1], orig := fromLe orig, entries := es, total := total, validBits := fromLe vb, payload := pl }

/-- The `emit` of DECODE: the inverse RLE of one symbol, if it fits (43_container.md R312, R313). -/
def emitRun (cap : Nat) (out : Bytes) (s : Symbol) : Except Err Bytes := do
  need (decide (out.length + (runOf s).toNat ≤ cap)) .alloc
  .ok (out ++ List.replicate (runOf s).toNat (bytevalOf s))

/-- `DecodeBody` (43_container.md R312): with total = 0 the payload is not read. -/
def decodeContents (p : Params) (cap : Nat) (c : Parsed) : Except Err Bytes :=
  let pl := protect p c.prot c.payload
  if c.total = 0 then .ok []
  else match treeBuild c.entries with
    | none => .ok []
    | some t =>
      match decodeStream t pl (bitLimit pl.length c.validBits) (emitRun cap) c.total 0 [] with
      | .error e => .error e
      | .ok (out, _) => .ok out

/-- DECODE on source bytes `x`: the output, the results and SZMIS (43_container.md R310, R317). -/
def decodeBody (p : Params) (cap : Nat) (x : Bytes) : Except Err (Bytes × ResultRegs × Bool) := do
  let c ← parseContainer p x
  let out ← decodeContents p cap c
  .ok (out,
    { resLen := BitVec.ofNat 32 out.length
      res0 := BitVec.ofNat 32 c.orig
      res1 := BitVec.ofNat 32 (c.orig >>> 32)
      res2 := BitVec.ofNat 32 c.entries.length
      res3 := BitVec.ofNat 32 c.prot.toNat },
    decide (out.length ≠ c.orig))

/-! ### The commands -/

/-- ENCODE (43_container.md R300); `prot` is the P bit of the latched word. TV = CV = 0 after every completion. -/
def execEncode (prot : Bool) (s : State) : Result :=
  s.run (.encode prot) (fun _ => ErrFlags.cleared) (.ok ()) fun x => do
    let (out, res) ← encodeBody s.cfg s.latch.ops.cap prot x
    .ok (s.clearingSuccess out res false)

/-- DECODE (43_container.md R310). TV = CV = 0 after every completion. -/
def execDecode (s : State) : Result :=
  s.run .decode (fun _ => ErrFlags.cleared) (.ok ()) fun x => do
    let (out, res, mis) ← decodeBody s.cfg s.latch.ops.cap x
    .ok (s.clearingSuccess out res mis)

end Sys2Proof.Machine
end

