-- ==== Sys2Proof/Machine/Control.lean ====
section
/-! DEFINITION. The control commands NOP (44_control.md R360) and CLEAR (R361). -/

namespace Sys2Proof.Machine

/-- NOP (44_control.md R360): zero results, nothing else but the completion. -/
def execNop (s : State) : Result :=
  s.run .nop (fun _ => s.keptFlags) (.ok ()) fun _ => .ok (s.plainSuccess [] ResultRegs.zero)

/-- CLEAR (44_control.md R361): TV = CV = 0. -/
def execClear (s : State) : Result :=
  s.run .clear (fun _ => s.keptFlags) (.ok ()) fun _ => .ok (s.clearingSuccess [] ResultRegs.zero false)

end Sys2Proof.Machine
end

