-- ==== Sys2Proof/Machine/HostAccess.lean ====
section
/-! DEFINITION. The host's accesses: the register map and what a read and a write of each register do (10_state.md
R33..R42), and the host's steps on REG and MEM (20_memory.md R73, R74, R80, R82; 30_encoding.md R117 for `wait`). -/

namespace Sys2Proof.Machine

/-! ### The register map (10_state.md R33) -/

/-- The offset of a register. -/
def regOffset : RegName → Nat
  | .ctrl => 0x00
  | .cmd => 0x04
  | .status => 0x08
  | .srcAddr => 0x0C
  | .srcLen => 0x10
  | .dstAddr => 0x14
  | .dstCap => 0x18
  | .arg0 => 0x1C
  | .arg1 => 0x20
  | .arg2 => 0x24
  | .resLen => 0x28
  | .res0 => 0x2C
  | .res1 => 0x30
  | .res2 => 0x34
  | .res3 => 0x38
  | .memsz => 0x3C
  | .clmax => 0x40

/-- The registers in offset order. -/
def regNames : List RegName :=
  [.ctrl, .cmd, .status, .srcAddr, .srcLen, .dstAddr, .dstCap, .arg0, .arg1, .arg2, .resLen, .res0, .res1, .res2, .res3,
    .memsz, .clmax]

/-- The register at an offset; the reserved words 0x44..0xFC hold none (10_state.md R42). -/
def regAt (off : Nat) : Option RegName := regNames.find? fun r => regOffset r == off

/-- What a read of a register returns (10_state.md R33). -/
def State.readReg (s : State) : RegName → Word
  | .ctrl => ctrlWord s.ie
  | .cmd => s.cmd
  | .status => s.status.word
  | .srcAddr => s.ops.srcAddr
  | .srcLen => s.ops.srcLen
  | .dstAddr => s.ops.dstAddr
  | .dstCap => s.ops.dstCap
  | .arg0 => s.ops.arg0
  | .arg1 => s.ops.arg1
  | .arg2 => s.ops.arg2
  | .resLen => s.res.resLen
  | .res0 => s.res.res0
  | .res1 => s.res.res1
  | .res2 => s.res.res2
  | .res3 => s.res.res3
  | .memsz => BitVec.ofNat 32 s.cfg.memSize.val
  | .clmax => BitVec.ofNat 32 s.cfg.codeLenMax.val

/-- A host write of `v` to CMD: issue, or drop while BUSY (10_state.md R35, 44_control.md R350, R353). -/
def State.writeCmd (s : State) (v : Word) : State := if s.status.busy then s.dropWrite else s.issue v

/-- A host write of `v` to a register (10_state.md R33): a write to a read-only register is ignored. -/
def State.writeReg (s : State) (r : RegName) (v : Word) : State :=
  match r with
  | .ctrl => { s with ie := v.getLsbD 0 }
  | .cmd => s.writeCmd v
  | .status => { s with status := s.status.write v }
  | .srcAddr => { s with ops := { s.ops with srcAddr := v } }
  | .srcLen => { s with ops := { s.ops with srcLen := v } }
  | .dstAddr => { s with ops := { s.ops with dstAddr := v } }
  | .dstCap => { s with ops := { s.ops with dstCap := v } }
  | .arg0 => { s with ops := { s.ops with arg0 := v } }
  | .arg1 => { s with ops := { s.ops with arg1 := v } }
  | .arg2 => { s with ops := { s.ops with arg2 := v } }
  | .resLen => s
  | .res0 => s
  | .res1 => s
  | .res2 => s
  | .res3 => s
  | .memsz => s
  | .clmax => s

/-- What a read at an aligned offset returns; reserved words read as 0 (10_state.md R42). -/
def State.readOffset (s : State) (off : Nat) : Word :=
  match regAt off with
  | some r => s.readReg r
  | none => 0

/-- What a write at an aligned offset does; writes to reserved words are ignored (10_state.md R42). -/
def State.writeOffset (s : State) (off : Nat) (v : Word) : State :=
  match regAt off with
  | some r => s.writeReg r v
  | none => s

/-! ### The command in flight -/

/-- The ranges of the command in flight: those of its word (30_encoding.md R104); an illegal word has none. -/
def State.flightPorts (s : State) : Ports :=
  if s.status.busy then
    match decodeWord s.latch.cmd with
    | .ok i => portsOf i
    | .error _ => Ports.none
  else Ports.none

/-- `a` is a byte of the destination range of the command in flight. -/
def State.inFlightDst (s : State) (a : Nat) : Bool := s.flightPorts.dst && s.latch.ops.inDst a

/-- `a` is a byte of the source range of the command in flight. -/
def State.inFlightSrc (s : State) (a : Nat) : Bool := s.flightPorts.src && s.latch.ops.inSrc a

/-! ### The host's steps (20_memory.md R80) -/

/-- The host gets an answer to a read. -/
def State.reply (s : State) (r : Reply) : State := { s with replies := r :: s.replies }

/-- `RegRead(off)` (20_memory.md R74, R80). -/
def hostRegRead (off : Nat) (s : State) : Result :=
  if regOffsetOk off then .next (s.reply (.word (s.readOffset off))) else .refused .regAccess

/-- `RegWrite(off, v)` (20_memory.md R74, R80). -/
def hostRegWrite (off : Nat) (v : Word) (s : State) : Result :=
  if regOffsetOk off then .next (s.writeOffset off v) else .refused .regAccess

/-- What a host read of the byte at `a` sees where no free value is drawn: the written byte, or the unspecified power-on
contents (20_memory.md R72, I15). -/
def State.hostByte (s : State) (a : Nat) : Byte := (s.mem.read a).getD (Config.unwrittenByte s.epoch a)

/-- `MemRead(a)` (20_memory.md R73, R80): a byte of an in-flight destination range reads as a free value (R82 (c)). -/
def hostMemRead (a : Nat) (s : State) : Result :=
  if a < s.cfg.memSize.val then
    if s.inFlightDst a then .next { s.reply (.byte (Config.freeByte s.draws)) with draws := s.draws + 1 }
    else .next (s.reply (.byte (s.hostByte a)))
  else .refused .memOutside

/-- `MemWrite(a, b)` (20_memory.md R73, R80): into a range of the command in flight it is a host race (R82 (b)). -/
def hostMemWrite (a : Nat) (b : Byte) (s : State) : Result :=
  if a < s.cfg.memSize.val then
    if s.inFlightSrc a || s.inFlightDst a then .fault .hostRace
    else .next { s with mem := s.mem.write a b }
  else .refused .memOutside

/-- One poll of `wait`: a STATUS read; the loop goes on while it returned BUSY = 1 (30_encoding.md R117). -/
def hostPoll (s : State) : Result :=
  let t := s.reply (.word (s.readReg .status))
  .next (if s.status.busy then { t with host := .wait :: t.host } else t)

/-- One access of the host, the rest of its program standing in `s.host` (20_memory.md R80). -/
def hostAccess (op : HostOp) (s : State) : Result :=
  match op with
  | .regRead off => hostRegRead off s
  | .regWrite off v => hostRegWrite off v s
  | .memRead a => hostMemRead a s
  | .memWrite a b => hostMemWrite a b s
  | .wait => hostPoll s
  | .regOtherWidth _ _ => .refused .regAccess
  | .memWide _ _ => .refused .memWide

/-- The host's step: its next access, or nothing where it has none. -/
def hostStep (s : State) : Result :=
  match s.host with
  | [] => .next s
  | op :: rest => hostAccess op { s with host := rest }

end Sys2Proof.Machine
end

