-- ==== Sys2Proof/Machine/Step.lean ====
section
/-! DEFINITION. One step of the machine: the agent whose turn it is moves (20_memory.md R80). The engine's step completes
the command in flight (44_control.md R352); it is enabled only while BUSY = 1. -/

namespace Sys2Proof.Machine

/-- The completion of the command whose word is latched (44_control.md R352): a legal word's own meaning, or ILLEGAL
(60_exceptions.md R401). -/
def completeLatched (s : State) : Host.Outcome State Fault Refusal :=
  match decodeWord s.latch.cmd with
  | .ok i => exec i s
  | .error _ => .next s.completeIllegal

/-- The engine's step; with no command in flight the engine has no enabled step and nothing happens (60_exceptions.md R425). -/
def engineStep (s : State) : Host.Outcome State Fault Refusal :=
  if s.status.busy then completeLatched s else .next s

/-- Who moves next: the head of `turns`; when it is used up, the engine while BUSY = 1 (weak fairness,
70_reset_and_hazards.md R462), else the host. -/
def State.nextAgent (s : State) : Agent :=
  match s.turns with
  | a :: _ => a
  | [] => if s.status.busy then .engine else .host

/-- One step of the machine. -/
def step (s : State) : Host.Outcome State Fault Refusal :=
  let t := { s with turns := s.turns.tail }
  match s.nextAgent with
  | .host => hostStep t
  | .engine => engineStep t
  | .reset => .next t.resetEvent

/-- `s` with the command word of the opcode table's number `w` issued (44_control.md R350, whether or not a command was in
flight) and the engine's turn next, so that the next step completes exactly that command. -/
def State.withFetchWord (s : State) (nbits w : Nat) : State :=
  { s.issue (tableWord nbits w) with turns := .engine :: s.turns }

end Sys2Proof.Machine
end

