-- ==== Sys2Proof/Machine/HostProgram.lean ====
section
/-! DEFINITION. Host programs: the expansion of each line into the host's accesses (30_encoding.md R116, R117) and the bus
transaction of an access (R118). -/

namespace Sys2Proof.Machine

/-- The offset `<reg>` stands for (30_encoding.md R116). -/
def RegRef.toOffset : RegRef → Nat
  | .name r => regOffset r
  | .offset off => off

/-- `wr <reg>, <imm32>` (30_encoding.md R116). -/
def wrOp (r : RegName) (v : Word) : HostOp := .regWrite (regOffset r) v

/-- The accesses of one line: the operations of 30_encoding.md R116, the pseudo-operations by the expansions of R117. -/
def expandLine : HostLine → List HostOp
  | .wr r v => [.regWrite (RegRef.toOffset r) v]
  | .rd r _ => [.regRead (RegRef.toOffset r)]
  | .mw a bs => bs.mapIdx fun i b => .memWrite (a + i) b
  | .mr a n => (List.range n).map fun i => .memRead (a + i)
  | .cmd i => [wrOp .cmd (encodeWord i)]
  | .wait => [.wait]
  | .ack => [wrOp .status 0x00000002]
  | .setsrc a n => [wrOp .srcAddr a, wrOp .srcLen n]
  | .setdst a c => [wrOp .dstAddr a, wrOp .dstCap c]

/-- The accesses of a host program, line after line (30_encoding.md R116). -/
def expandProgram (p : List HostLine) : List HostOp := p.flatMap expandLine

/-- The direction of a bus transaction (30_encoding.md R118). -/
inductive Dir where
  | R
  | W
  deriving DecidableEq, Repr

/-- The space of a bus transaction (20_memory.md R70). -/
inductive Space where
  | REG
  | MEM
  deriving DecidableEq, Repr

/-- A bus transaction `(dir, space, offset, data)`; a read carries no data (30_encoding.md R118). -/
structure Transaction where
  dir : Dir
  space : Space
  offset : Nat
  data : Option Nat
  deriving DecidableEq, Repr

/-- The transaction of one access (30_encoding.md R118). `wait` is one STATUS read per poll (R117); an access of another width
is no transaction of the block (20_memory.md R73, R74). -/
def HostOp.transaction : HostOp → Option Transaction
  | .regRead off => some ⟨.R, .REG, off, none⟩
  | .regWrite off v => some ⟨.W, .REG, off, some v.toNat⟩
  | .memRead a => some ⟨.R, .MEM, a, none⟩
  | .memWrite a b => some ⟨.W, .MEM, a, some b.toNat⟩
  | .wait => some ⟨.R, .REG, regOffset .status, none⟩
  | .regOtherWidth _ _ => none
  | .memWide _ _ => none

/-- `s` with the host about to run program `p`. -/
def State.withProgram (s : State) (p : List HostLine) : State := { s with host := expandProgram p ++ s.host }

end Sys2Proof.Machine
end

