-- ==== Sys2Proof/Safety.lean ====
section
/-! DEFINITION. What a safe run is, in the terms the statements use: the invariant of the machine's state, and when a
command's completion meets neither of the model's faults. -/

namespace Sys2Proof.Machine

/-- MEM is in canonical form and holds only addresses below MEM_SIZE (20_memory.md R70). -/
def State.MemInv (s : State) : Prop := s.mem.wf ∧ ∀ c ∈ s.mem, c.1 < s.cfg.memSize.val

/-- While a command is in flight DONE, ERR and SZMIS are 0 and L.CMD is what CMD reads (44_control.md R350, 10_state.md R35,
R36). -/
def State.FlightInv (s : State) : Prop :=
  s.status.busy = true →
    s.status.done = false ∧ s.status.err = none ∧ s.status.szmis = false ∧ s.latch.cmd = s.cmd

/-- While TV = 1, TREE is the tree TreeBuild makes of a valid table (10_state.md R46, 41_huffman.md R201). -/
def State.TreeInv (s : State) : Prop :=
  s.status.tv = true →
    ∃ es total, es.length ≤ maxEntries ∧ validateEntries es = .ok total ∧ s.tree = treeBuild es

/-- Whenever CV = 1, TV = 1 and CT = CodeGen(TREE) (10_state.md R49), with no code longer than CODE_LEN_MAX (41_huffman.md
R212). -/
def State.TableInv (s : State) : Prop :=
  s.status.cv = true →
    s.status.tv = true ∧ s.ct = codeGen s.tree ∧ maxCodeLen s.ct ≤ s.cfg.codeLenMax.val

/-- The invariant every step keeps. -/
structure State.Inv (s : State) : Prop where
  mem : s.MemInv
  flight : s.FlightInv
  tree : s.TreeInv
  table : s.TableInv

/-- Every byte of the command's source range is written: its MemRead meets no unwritten byte (20_memory.md R72). -/
def State.SourceWritten (s : State) (i : Instr) : Prop := (s.source (portsOf i)).isSome = true

/-- The next host access is not a host race (20_memory.md R82 (b)). -/
def State.RaceFree (s : State) : Prop :=
  ∀ a b rest, s.host = .memWrite a b :: rest → s.inFlightSrc a = false ∧ s.inFlightDst a = false

/-- The host's accesses still to come are all steps of the model (20_memory.md R73, R74). -/
def State.HostWellFormed (s : State) : Prop := ∀ op ∈ s.host, op.wf s.cfg.memSize.val = true

/-- An outcome that is a next state. -/
def Continues (r : Result) : Prop := ∃ t, r = .next t

/-! ### When a command executes normally -/

/-- The command has a source range (30_encoding.md R104, column "src"). -/
def hasSrc : Instr → Bool
  | .nop => false
  | .rleEnc => true
  | .rleDec => true
  | .freq => true
  | .treeBuild => true
  | .codeGen => false
  | .codeQuery => false
  | .pack => true
  | .unpack => true
  | .xor => true
  | .encode _ => true
  | .decode => true
  | .clear => false

/-- The command has a destination range (30_encoding.md R104, column "dst"). -/
def hasDst : Instr → Bool
  | .nop => false
  | .rleEnc => true
  | .rleDec => true
  | .freq => true
  | .treeBuild => false
  | .codeGen => false
  | .codeQuery => false
  | .pack => true
  | .unpack => true
  | .xor => true
  | .encode _ => true
  | .decode => true
  | .clear => false

/-- The ranges of command `i` on operands `o` are acceptable in a MEM of `n` bytes (60_exceptions.md R404), in plain
arithmetic. -/
def RangesOk (i : Instr) (o : OperandRegs) (n : Nat) : Prop :=
  (hasSrc i = true → o.srcAddr.toNat + o.srcLen.toNat ≤ n) ∧
  (hasDst i = true → o.dstAddr.toNat + o.dstCap.toNat ≤ n) ∧
  (hasSrc i = true → hasDst i = true → 0 < o.srcLen.toNat → 0 < o.dstCap.toNat →
    o.srcAddr.toNat < o.dstAddr.toNat + o.dstCap.toNat → o.dstAddr.toNat < o.srcAddr.toNat + o.srcLen.toNat →
    i = .xor ∧ o.srcAddr = o.dstAddr)

/-- The state command `i` needs (60_exceptions.md R405): CODE_GEN and UNPACK need TV, CODE_QUERY and PACK need CV. -/
def StateOk (i : Instr) (st : Status) : Prop :=
  (i = .codeGen ∨ i = .unpack → st.tv = true) ∧ (i = .codeQuery ∨ i = .pack → st.cv = true)

/-- The latched ranges of command `i` are acceptable. -/
def State.RangesOk (s : State) (i : Instr) : Prop := Machine.RangesOk i s.latch.ops s.cfg.memSize.val

/-- The latched source range holds the byte string `x`, every byte of it written. -/
def State.SourceIs (s : State) (x : Bytes) : Prop :=
  s.mem.readBytes s.latch.ops.srcAddr.toNat s.latch.ops.srcLen.toNat = some x

/-! ### What a completion leaves -/

/-- What no command changes: the parameters, CTRL, CMD, the operand registers, L, DROP, and the model's own fields but the
counter of free values (44_control.md R352). -/
structure CommandFrame (s t : State) : Prop where
  cfg : t.cfg = s.cfg
  ie : t.ie = s.ie
  cmd : t.cmd = s.cmd
  ops : t.ops = s.ops
  latch : t.latch = s.latch
  drop : t.status.drop = s.status.drop
  host : t.host = s.host
  turns : t.turns = s.turns
  replies : t.replies = s.replies
  epoch : t.epoch = s.epoch

/-- TREE, CT, TV and CV are unchanged. -/
structure KeepsTables (s t : State) : Prop where
  tree : t.tree = s.tree
  ct : t.ct = s.ct
  tv : t.status.tv = s.status.tv
  cv : t.status.cv = s.status.cv

/-- The completion of a command with success (44_control.md R352): `out` stands at DST_ADDR and every other byte of MEM is as
it was, the results are `res`, ERR is 0, BUSY 0, DONE 1, SZMIS as given, and nothing else but TREE, CT, TV and CV may have
changed. -/
structure Succeeds (s t : State) (out : Bytes) (res : ResultRegs) (szmis : Bool) : Prop where
  frame : CommandFrame s t
  draws : t.draws = s.draws
  mem : ∀ a, t.mem.read a =
    if s.latch.ops.dstAddr.toNat ≤ a ∧ a < s.latch.ops.dstAddr.toNat + out.length then
      out[a - s.latch.ops.dstAddr.toNat]?
    else s.mem.read a
  res : t.res = res
  busy : t.status.busy = false
  done : t.status.done = true
  err : t.status.err = none
  szmis : t.status.szmis = szmis

/-- `a` is a byte of the latched destination range of command `i`, if it has one (10_state.md R38). -/
def State.InDstRange (s : State) (i : Instr) (a : Nat) : Prop :=
  hasDst i = true ∧ s.latch.ops.dstAddr.toNat ≤ a ∧ a < s.latch.ops.dstAddr.toNat + s.latch.ops.dstCap.toNat

/-- `a` is a byte of the latched source range of command `i`, if it has one (10_state.md R38). -/
def State.InSrcRange (s : State) (i : Instr) (a : Nat) : Prop :=
  hasSrc i = true ∧ s.latch.ops.srcAddr.toNat ≤ a ∧ a < s.latch.ops.srcAddr.toNat + s.latch.ops.srcLen.toNat

/-- `a` is a byte of the destination range of the legal command in flight (20_memory.md R82 (c)). -/
def State.DstInFlight (s : State) (a : Nat) : Prop :=
  s.status.busy = true ∧ ∃ i, decodeWord s.latch.cmd = .ok i ∧ s.InDstRange i a

/-- `a` is a byte of the source range of the legal command in flight (20_memory.md R82 (b)). -/
def State.SrcInFlight (s : State) (a : Nat) : Prop :=
  s.status.busy = true ∧ ∃ i, decodeWord s.latch.cmd = .ok i ∧ s.InSrcRange i a

/-- The completion of command `i` with error `e` (60_exceptions.md R403): ERR is its code, BUSY 0, DONE 1, SZMIS 0, the results
zero; MEM is unchanged outside the destination range, and inside it too for ILLEGAL, RANGE and STATE, while for the other
errors each byte of it holds some byte; nothing else but TREE, CT, TV and CV may have changed. -/
structure FailsWith (i : Instr) (s t : State) (e : Err) : Prop where
  frame : CommandFrame s t
  res : t.res = ResultRegs.zero
  busy : t.status.busy = false
  done : t.status.done = true
  err : t.status.err = some e
  szmis : t.status.szmis = false
  outside : ∀ a, ¬ s.InDstRange i a → t.mem.read a = s.mem.read a
  kept : e = .illegal ∨ e = .range ∨ e = .state → t.mem = s.mem ∧ t.draws = s.draws
  spoiled : e = .alloc ∨ e = .format ∨ e = .trunc ∨ e = .nocode →
    ∀ a, s.InDstRange i a → (t.mem.read a).isSome = true

/-- TREE and CT are unchanged, and TV = CV = 0. -/
structure ClearsFlags (s t : State) : Prop where
  tree : t.tree = s.tree
  ct : t.ct = s.ct
  tv : t.status.tv = false
  cv : t.status.cv = false

/-! ### Trees, paths and keys -/

/-- The leaves of a tree from left to right, as table entries. -/
def HuffTree.leaves : HuffTree → List Entry
  | .leaf s w => [⟨s, w⟩]
  | .node _ l r => l.leaves ++ r.leaves

/-- The number of internal nodes. -/
def HuffTree.nodes : HuffTree → Nat
  | .leaf _ _ => 0
  | .node _ l r => l.nodes + r.nodes + 1

/-- Every internal node's weight is the sum of its children's (41_huffman.md R200). -/
def HuffTree.Weighted : HuffTree → Prop
  | .leaf _ _ => True
  | .node w l r => w = l.weight + r.weight ∧ l.Weighted ∧ r.Weighted

/-- The subtree a bit string leads to from the root: 0 to the left child, 1 to the right (41_huffman.md R210). -/
def HuffTree.follow : HuffTree → BitString → Option HuffTree
  | t, [] => some t
  | .leaf _ _, _ :: _ => none
  | .node _ l r, b :: p => if b then r.follow p else l.follow p

/-- `key(n, q)` of 41_huffman.md R203, compared lexicographically: (w, s, 1, q) for a leaf, (w, 0, 0, q) for an internal node. -/
def PoolNode.key (n : PoolNode) : Nat ×ₗ Nat ×ₗ Nat ×ₗ Nat :=
  match n.tree with
  | .leaf s w => toLex (w.toNat, toLex (s.toNat, toLex (1, n.seq)))
  | .node w _ _ => toLex (w.toNat, toLex (0, toLex (0, n.seq)))

/-- `MergesTo next pool t`: the loop of 41_huffman.md R204 from this pool on ends in `t`. While more than one element is left, the
one with the least key, `a`, and the least of the others, `b`, give way to the node with `a` as its left child and `b` as its right. -/
inductive MergesTo : Nat → List PoolNode → HuffTree → Prop where
  | root (next : Nat) (n : PoolNode) : MergesTo next [n] n.tree
  | join (next : Nat) (pool rest : List PoolNode) (a b : PoolNode) (t : HuffTree) :
      pool.Perm (a :: b :: rest) → (∀ x ∈ b :: rest, a.key < x.key) → (∀ x ∈ rest, b.key < x.key) →
      MergesTo (next + 1) (⟨.node (a.tree.weight + b.tree.weight) a.tree b.tree, next⟩ :: rest) t → MergesTo next pool t

/-- The total of the counts of a table (41_huffman.md R205). -/
def tableTotal (es : List Entry) : Nat := (es.map fun e => e.cnt.toNat).sum

/-- A frequency table that passes every check of 41_huffman.md R205, in plain terms. -/
structure ValidTable (es : List Entry) : Prop where
  runs : ∀ e ∈ es, 1 ≤ (runOf e.sym).toNat
  counts : ∀ e ∈ es, 1 ≤ e.cnt.toNat
  sorted : es.Pairwise fun a b => a.cnt < b.cnt ∨ (a.cnt = b.cnt ∧ a.sym < b.sym)
  unique : (es.map Entry.sym).Nodup
  total : tableTotal es ≤ 2 ^ 64 - 1

/-! ### The layout of stored data -/

/-- `le_k(v)` of 00_scope.md R12 in plain terms: byte i is v div 256^i mod 256 (notes/assumptions/18.md). -/
def leField (k v : Nat) : Bytes := (List.range k).map fun i => BitVec.ofNat 8 (v / 256 ^ i % 256)

/-- A table entry's ten bytes (30_encoding.md R106). -/
def entryField (e : Entry) : Bytes := leField 2 e.sym.toNat ++ leField 8 e.cnt.toNat

/-- A table's bytes (30_encoding.md R106). -/
def tableField (es : List Entry) : Bytes := es.flatMap entryField

/-- The constants a container begins with, field by field (30_encoding.md R110, R111). -/
def constantFields (p : Params) : List Bytes := [p.signature.toBytes, p.version.toBytes, [p.algIdRle], [p.algIdHuf]]

/-- The fields of a container from the constants to the original size (30_encoding.md R110). -/
def sizeHead (p : Params) (prot : Bool) (orig : Nat) : Bytes :=
  (constantFields p).flatten ++ [if prot then 1 else 0] ++ leField 8 orig

/-- The fields of a container from the constants to the end of the table (30_encoding.md R110). -/
def tableHead (p : Params) (prot : Bool) (orig : Nat) (es : List Entry) : Bytes :=
  sizeHead p prot orig ++ leField 4 es.length ++ tableField es

/-- `RejectedAs p x e`: the first field of `x` that fails in the order of 43_container.md R311 is cut short (TRUNC) or has a value
that is not legal (FORMAT). Each constructor is one field, behind the good fields that stand before it. -/
inductive RejectedAs (p : Params) : Bytes → Err → Prop where
  | constantShort (good rest : List Bytes) (f s : Bytes) : constantFields p = good ++ f :: rest → s.length < f.length →
      RejectedAs p (good.flatten ++ s) .trunc
  | constantWrong (good rest : List Bytes) (f b s : Bytes) : constantFields p = good ++ f :: rest → b.length = f.length →
      b ≠ f → RejectedAs p (good.flatten ++ b ++ s) .format
  | protShort : RejectedAs p (constantFields p).flatten .trunc
  | protWrong (b : Byte) (s : Bytes) : b ≠ 0 → b ≠ 1 → RejectedAs p ((constantFields p).flatten ++ b :: s) .format
  | origShort (prot : Bool) (s : Bytes) : s.length < 8 →
      RejectedAs p ((constantFields p).flatten ++ [if prot then 1 else 0] ++ s) .trunc
  | countShort (prot : Bool) (orig : Nat) (s : Bytes) : s.length < 4 → RejectedAs p (sizeHead p prot orig ++ s) .trunc
  /-- The count is signed: from 2^31 on the field is negative. -/
  | countWrong (prot : Bool) (orig n : Nat) (s : Bytes) : 65280 < n → n < 2 ^ 32 →
      RejectedAs p (sizeHead p prot orig ++ leField 4 n ++ s) .format
  | entryShort (prot : Bool) (orig n : Nat) (es : List Entry) (s : Bytes) : n ≤ 65280 → es.length < n → ValidTable es →
      s.length < 10 → RejectedAs p (sizeHead p prot orig ++ leField 4 n ++ tableField es ++ s) .trunc
  | entryWrong (prot : Bool) (orig n : Nat) (es : List Entry) (e : Entry) (s : Bytes) : n ≤ 65280 → es.length < n →
      ValidTable es → ¬ ValidTable (es ++ [e]) →
      RejectedAs p (sizeHead p prot orig ++ leField 4 n ++ tableField es ++ entryField e ++ s) .format
  | validBitsShort (prot : Bool) (orig : Nat) (es : List Entry) : es.length ≤ 65280 → ValidTable es →
      RejectedAs p (tableHead p prot orig es) .trunc
  | validBitsWrong (prot : Bool) (orig : Nat) (es : List Entry) (vb : Byte) (s : Bytes) : es.length ≤ 65280 → ValidTable es →
      vb.toNat < 1 ∨ 8 < vb.toNat → RejectedAs p (tableHead p prot orig es ++ vb :: s) .format
  | lengthShort (prot : Bool) (orig : Nat) (es : List Entry) (vb : Byte) (s : Bytes) : es.length ≤ 65280 → ValidTable es →
      1 ≤ vb.toNat → vb.toNat ≤ 8 → s.length < 4 → RejectedAs p (tableHead p prot orig es ++ vb :: s) .trunc
  | payloadShort (prot : Bool) (orig n : Nat) (es : List Entry) (vb : Byte) (pl : Bytes) : es.length ≤ 65280 → ValidTable es →
      1 ≤ vb.toNat → vb.toNat ≤ 8 → n < 2 ^ 32 → pl.length < n →
      RejectedAs p (tableHead p prot orig es ++ vb :: leField 4 n ++ pl) .trunc
  | bytesBehind (prot : Bool) (orig : Nat) (es : List Entry) (vb : Byte) (pl s : Bytes) : es.length ≤ 65280 → ValidTable es →
      1 ≤ vb.toNat → vb.toNat ≤ 8 → pl.length < 2 ^ 32 → s ≠ [] →
      RejectedAs p (tableHead p prot orig es ++ vb :: leField 4 pl.length ++ pl ++ s) .format

/-! ### Reading a payload (42_bitpack.md R261..R263) -/

/-- `bit(pl, k)` of 30_encoding.md R108 in plain terms: bit 7 - k mod 8 of byte k div 8. -/
def streamBit (pl : Bytes) (k : Nat) : Bool := (pl.getD (k / 8) 0).toNat.testBit (7 - k % 8)

/-- `Limit(P, vb)` of 30_encoding.md R109. -/
def streamLimit (p vb : Nat) : Nat := if p = 0 then 0 else 8 * (p - 1) + vb

/-- From bit `pos` on, the payload holds a symbol `s` of the tree that ends before bit `pos'`, at or below `lim`: the bits are the
path to the leaf of `s` (42_bitpack.md R261), or, where the whole tree is one leaf, one bit of either value (R262). -/
inductive ReadsSymbol (pl : Bytes) (lim : Nat) : HuffTree → Nat → Symbol → Nat → Prop where
  | lone (s : Symbol) (w : Count) (pos : Nat) : pos + 1 ≤ lim → ReadsSymbol pl lim (.leaf s w) pos s (pos + 1)
  | path (w : Count) (l r : HuffTree) (pos : Nat) (q : BitString) (s : Symbol) (c : Count) :
      (HuffTree.node w l r).follow q = some (.leaf s c) → (∀ k < q.length, streamBit pl (pos + k) = q.getD k false) →
      pos + q.length ≤ lim → ReadsSymbol pl lim (.node w l r) pos s (pos + q.length)

/-- From bit `pos` on, the payload holds the symbols of a list, one behind the other. -/
inductive ReadsSymbols (pl : Bytes) (lim : Nat) (t : HuffTree) : Nat → List Symbol → Nat → Prop where
  | done (pos : Nat) : ReadsSymbols pl lim t pos [] pos
  | more (pos pos' pos'' : Nat) (s : Symbol) (ss : List Symbol) : ReadsSymbol pl lim t pos s pos' →
      ReadsSymbols pl lim t pos' ss pos'' → ReadsSymbols pl lim t pos (s :: ss) pos''

/-- What reading `cnt` symbols from bit 0 gives (42_bitpack.md R263), where symbol `s` adds the bytes `add s` to an output of at most
`cap` bytes: the output and the end position, or the error of the first symbol that fails. A symbol is read before its bytes are
checked, so TRUNC of a symbol comes before its ALLOC. What is left behind the last symbol is not looked at. -/
inductive Decodes (pl : Bytes) (lim : Nat) (t : HuffTree) (add : Symbol → Bytes) (cap cnt : Nat) :
    Except Err (Bytes × Nat) → Prop where
  | all (ss : List Symbol) (pos : Nat) : ss.length = cnt → ReadsSymbols pl lim t 0 ss pos → (ss.flatMap add).length ≤ cap →
      Decodes pl lim t add cap cnt (.ok (ss.flatMap add, pos))
  | trunc (ss : List Symbol) (pos : Nat) : ss.length < cnt → ReadsSymbols pl lim t 0 ss pos → (ss.flatMap add).length ≤ cap →
      (∀ s pos', ¬ ReadsSymbol pl lim t pos s pos') → Decodes pl lim t add cap cnt (.error .trunc)
  | alloc (ss : List Symbol) (pos : Nat) (s : Symbol) (pos' : Nat) : ss.length < cnt → ReadsSymbols pl lim t 0 ss pos →
      (ss.flatMap add).length ≤ cap → ReadsSymbol pl lim t pos s pos' → cap < (ss.flatMap add).length + (add s).length →
      Decodes pl lim t add cap cnt (.error .alloc)

/-- The two bytes UNPACK writes for a symbol, byte value then run length (30_encoding.md R105). -/
def pairField (s : Symbol) : Bytes := [s.extractLsb' 0 8, s.extractLsb' 8 8]

/-- The bytes DECODE writes for a symbol: its byte value, as often as its run length says (43_container.md R313). -/
def runField (s : Symbol) : Bytes := List.replicate (s.extractLsb' 8 8).toNat (s.extractLsb' 0 8)

end Sys2Proof.Machine
end

