-- ==== Sys2Proof/Certificates/Slice0/Obligations.lean ====
section
/-! DEFINITION. The statements about the model. Each docstring names the rule of spec/ it formalises. -/

open Sys2Proof Sys2Proof.Machine

/-! ### Command words (30_encoding.md) -/

/-- 30_encoding.md R103: decoding the word of a command gives the command back, P bit included. -/
def Obligations.DecodeWordOfEncodeWord : Prop := ∀ i : Instr, decodeWord (encodeWord i) = .ok i

/-- 30_encoding.md R103: a word is a command exactly when RSV = 0, OPC is in the map and P = 0 or OPC is ENCODE's; then it is
that command's only word. -/
def Obligations.LegalWordsAreTheOpcodeMap : Prop :=
  ∀ w : Word,
    ((∃ i, decodeWord w = .ok i) ↔
      w.extractLsb' 9 23 = 0 ∧ (w.extractLsb' 0 8).toNat ≤ 0x0C ∧
        (w.getLsbD 8 = false ∨ w.extractLsb' 0 8 = 0x0A)) ∧
    ∀ i, decodeWord w = .ok i → encodeWord i = w

/-- 30_encoding.md R103: all fourteen words of the opcode map, written out bit by bit (OPC [7:0], P [8], RSV [31:9]), decode to
their commands, and three illegal words do not decode. -/
def Obligations.WordsOfTheMapDecode : Prop :=
  decodeWord 0b00000000000000000000000000000000 = .ok .nop ∧
  decodeWord 0b00000000000000000000000000000001 = .ok .rleEnc ∧
  decodeWord 0b00000000000000000000000000000010 = .ok .rleDec ∧
  decodeWord 0b00000000000000000000000000000011 = .ok .freq ∧
  decodeWord 0b00000000000000000000000000000100 = .ok .treeBuild ∧
  decodeWord 0b00000000000000000000000000000101 = .ok .codeGen ∧
  decodeWord 0b00000000000000000000000000000110 = .ok .codeQuery ∧
  decodeWord 0b00000000000000000000000000000111 = .ok .pack ∧
  decodeWord 0b00000000000000000000000000001000 = .ok .unpack ∧
  decodeWord 0b00000000000000000000000000001001 = .ok .xor ∧
  decodeWord 0b00000000000000000000000000001010 = .ok (.encode false) ∧
  decodeWord 0b00000000000000000000000100001010 = .ok (.encode true) ∧
  decodeWord 0b00000000000000000000000000001011 = .ok .decode ∧
  decodeWord 0b00000000000000000000000000001100 = .ok .clear ∧
  decodeWord 0b00000000000000000000000000001101 = .error .reservedOpcode ∧
  decodeWord 0b00000000000000000000000100001011 = .error .protectNotEncode ∧
  decodeWord 0b00000000000000000000001000001010 = .error .reservedBits

/-! ### One step (44_control.md, 60_exceptions.md) -/

/-- 44_control.md R352, 20_memory.md R80, 60_exceptions.md R425: on the engine's turn a step is the latched command's `exec` at this
state while BUSY = 1, and nothing while BUSY = 0; on the host's turn it is the host's next access, BUSY = 1 or not, and nothing if
there is none. Either way the turn is used up. The word placed by `withFetchWord` is run by the very next step. Whose turn it is,
and that an idle turn changes nothing else, is the model's own (notes/assumptions/2.md, 3.md, 4.md, 12.md). -/
def Obligations.StepRunsTheLatchedCommand : Prop :=
  (∀ (s : State) (i : Instr), s.status.busy = true → s.nextAgent = .engine → decodeWord s.latch.cmd = .ok i →
    step s = exec i { s with turns := s.turns.tail }) ∧
  (∀ s : State, s.status.busy = false → s.nextAgent = .engine → step s = .next { s with turns := s.turns.tail }) ∧
  (∀ (s : State) (op : HostOp) (rest : List HostOp), s.nextAgent = .host → s.host = op :: rest →
    step s = hostAccess op { s with host := rest, turns := s.turns.tail }) ∧
  (∀ s : State, s.nextAgent = .host → s.host = [] → step s = .next { s with turns := s.turns.tail }) ∧
  (∀ (s : State) (a : Agent) (ts : List Agent), s.turns = a :: ts → s.nextAgent = a) ∧
  (∀ s : State, s.turns = [] → s.nextAgent = if s.status.busy then .engine else .host) ∧
  ∀ (s : State) (i : Instr), step (s.withFetchWord 32 (encodeWord i).toNat) = exec i (s.issue (encodeWord i))

/-- 60_exceptions.md R401: an illegal latched word completes with ILLEGAL: no byte of MEM is changed, TREE, TV, CT and CV stay,
the results are 0. The turn used up is the model's own (notes/assumptions/2.md). -/
def Obligations.IllegalWordCompletesWithIllegal : Prop :=
  ∀ (s : State) (r : IllegalWord), s.status.busy = true → s.nextAgent = .engine → decodeWord s.latch.cmd = .error r →
    ∃ t, step s = .next t ∧ t.mem = s.mem ∧ t.draws = s.draws ∧ t.res = ResultRegs.zero ∧
      t.status = { s.status with busy := false, done := true, szmis := false, err := some .illegal } ∧
      t.tree = s.tree ∧ t.ct = s.ct ∧ CommandFrame { s with turns := s.turns.tail } t

/-- 70_reset_and_hazards.md R462, by the model's default turn (notes/assumptions/2.md): a command in flight completes: after at most as
many steps as there are turns left and one more, the engine has taken its step, the machine has stopped by name, or a reset has aborted the command. -/
def Obligations.CommandInFlightCompletes : Prop :=
  ∀ s : State, s.status.busy = true →
    ∃ k ≤ s.turns.length + 1,
      match core.run k s with
      | .next t => t.status.busy = false
      | .fault _ => True
      | .refused _ => True

/-! ### Issue, latch and drop (44_control.md R350, R351, R353) -/

/-- 44_control.md R350: a write of `v` to CMD while BUSY = 0 issues `v`: CMD and L take their values, BUSY is set, DONE, ERR and
SZMIS are cleared, IRQ falls; DROP, TV, CV, the result registers and everything else stay. -/
def Obligations.CmdWriteIssues : Prop :=
  ∀ (s : State) (v : Word), s.status.busy = false →
    ∃ t, hostAccess (.regWrite 0x04 v) s = .next t ∧
      t = { s with
        cmd := v
        latch := { cmd := v, ops := s.ops }
        status := ⟨true, false, s.status.drop, false, none, s.status.tv, s.status.cv⟩ } ∧
      t.irq = false

/-- 44_control.md R353: a write to CMD while BUSY = 1 sets DROP and has no other effect. -/
def Obligations.CmdWriteWhileBusyIsDropped : Prop :=
  ∀ (s : State) (v : Word), s.status.busy = true →
    hostAccess (.regWrite 0x04 v) s = .next { s with status := { s.status with drop := true } }

/-- 44_control.md R351: a command uses only the latched record: with any other live operand registers it answers the same,
those registers kept. -/
def Obligations.CommandsUseOnlyTheLatch : Prop :=
  ∀ (i : Instr) (s : State) (o : OperandRegs),
    exec i { s with ops := o } =
      match exec i s with
      | .next t => .next { t with ops := o }
      | .fault f => .fault f
      | .refused r => .refused r

/-! ### RLE and the frequency table (40_rle.md) -/

/-- 40_rle.md R150: RleForward takes at each position the maximal run of equal bytes, capped at 255, and goes on behind it. -/
def Obligations.RleForwardTakesMaximalRuns : Prop :=
  rleForward [] = [] ∧
  ∀ (b : Byte) (xs : Bytes),
    let r := min 255 ((xs.takeWhile (· == b)).length + 1)
    rleForward (b :: xs) = ⟨BitVec.ofNat 8 r, b⟩ :: rleForward (xs.drop (r - 1))

/-- 40_rle.md R151 (a)..(e). -/
def Obligations.RleForwardProperties : Prop :=
  (∀ x, ∀ p ∈ rleForward x, 1 ≤ p.run.toNat ∧ p.run.toNat ≤ 255) ∧
  (∀ x, (rleForward x).flatMap (fun p => List.replicate p.run.toNat p.val) = x) ∧
  (∀ x, (rleForward x).length ≤ x.length ∧ ((rleForward x).length = x.length ↔ x.IsChain (· ≠ ·))) ∧
  (∀ x, (rleForward x).IsChain fun p q => p.val = q.val → p.run.toNat = 255) ∧
  rleForward [] = []

/-- 40_rle.md R170: FreqTable has one entry per distinct symbol, with its number of occurrences, in strictly ascending (count,
symbol) order; the counts add up to the number of pairs. -/
def Obligations.FreqTableCountsAndSorts : Prop :=
  ∀ ps : List Pair, ps.length < 2 ^ 64 →
    (∀ (sym : Symbol) (n : Count), (⟨sym, n⟩ : Entry) ∈ freqTable ps ↔
      n.toNat = (ps.map Pair.sym).count sym ∧ 1 ≤ n.toNat) ∧
    ((freqTable ps).map Entry.sym).Nodup ∧
    (freqTable ps).Pairwise (fun a b => a.cnt < b.cnt ∨ (a.cnt = b.cnt ∧ a.sym < b.sym)) ∧
    tableTotal (freqTable ps) = ps.length ∧
    freqTable [] = []

/-- 40_rle.md R171: with run lengths in 1..255 there are at most 65280 distinct symbols. -/
def Obligations.FreqTableHasAtMost65280Entries : Prop :=
  ∀ ps : List Pair, (∀ p ∈ ps, 1 ≤ p.run.toNat) → (freqTable ps).length ≤ 65280

/-- 40_rle.md R155: RLE_ENC on source bytes `x`: the pair stream of RleForward at DST_ADDR if it fits, else ALLOC. -/
def Obligations.RleEncWritesThePairStream : Prop :=
  ∀ (s : State) (x : Bytes), s.RangesOk .rleEnc → s.SourceIs x →
    let ps := rleForward x
    (2 * ps.length ≤ s.latch.ops.dstCap.toNat →
      ∃ t, exec .rleEnc s = .next t ∧ KeepsTables s t ∧
        Succeeds s t (ps.flatMap fun p => [p.val, p.run])
          ⟨BitVec.ofNat 32 (2 * ps.length), BitVec.ofNat 32 ps.length, 0, 0, 0⟩ false) ∧
    (s.latch.ops.dstCap.toNat < 2 * ps.length →
      ∃ t, exec .rleEnc s = .next t ∧ KeepsTables s t ∧ FailsWith .rleEnc s t .alloc)

/-- 40_rle.md R162: RLE_DEC on a pair stream expands it; TRUNC for an odd length, else the first pair with run length 0 is
FORMAT and the first run that does not fit is ALLOC, whichever comes first. -/
def Obligations.RleDecExpandsThePairStream : Prop :=
  ∀ (s : State) (x : Bytes), s.RangesOk .rleDec → s.SourceIs x →
    let cap := s.latch.ops.dstCap.toNat
    let expand := fun ps : List Pair => ps.flatMap fun p => List.replicate p.run.toNat p.val
    (x.length % 2 = 1 → ∃ t, exec .rleDec s = .next t ∧ KeepsTables s t ∧ FailsWith .rleDec s t .trunc) ∧
    (∀ ps : List Pair, x = ps.flatMap (fun p => [p.val, p.run]) → (∀ p ∈ ps, 1 ≤ p.run.toNat) →
      (expand ps).length ≤ cap →
      ∃ t, exec .rleDec s = .next t ∧ KeepsTables s t ∧
        Succeeds s t (expand ps)
          ⟨BitVec.ofNat 32 (expand ps).length, BitVec.ofNat 32 ps.length, 0, 0, 0⟩ false) ∧
    (∀ (ps qs : List Pair) (p : Pair), x = (ps ++ p :: qs).flatMap (fun p => [p.val, p.run]) →
      (∀ q ∈ ps, 1 ≤ q.run.toNat) → (expand ps).length ≤ cap →
      (p.run = 0 → ∃ t, exec .rleDec s = .next t ∧ KeepsTables s t ∧ FailsWith .rleDec s t .format) ∧
      (1 ≤ p.run.toNat → cap < (expand ps).length + p.run.toNat →
        ∃ t, exec .rleDec s = .next t ∧ KeepsTables s t ∧ FailsWith .rleDec s t .alloc))

/-- 40_rle.md R172, 30_encoding.md R106: FREQ on a pair stream writes its frequency table, ten bytes an entry, symbol and count with the
least significant byte first (00_scope.md R12 as the spec reads it, notes/assumptions/18.md); TRUNC for an odd length, FORMAT for a
run length 0 anywhere, ALLOC when the table does not fit. -/
def Obligations.FreqWritesTheFrequencyTable : Prop :=
  ∀ (s : State) (x : Bytes), s.RangesOk .freq → s.SourceIs x →
    let cap := s.latch.ops.dstCap.toNat
    (x.length % 2 = 1 → ∃ t, exec .freq s = .next t ∧ KeepsTables s t ∧ FailsWith .freq s t .trunc) ∧
    ∀ ps : List Pair, x = ps.flatMap (fun p => [p.val, p.run]) →
      ((∃ p ∈ ps, p.run = 0) → ∃ t, exec .freq s = .next t ∧ KeepsTables s t ∧ FailsWith .freq s t .format) ∧
      ((∀ p ∈ ps, 1 ≤ p.run.toNat) → 10 * (freqTable ps).length ≤ cap →
        ∃ t, exec .freq s = .next t ∧ KeepsTables s t ∧
          Succeeds s t (tableField (freqTable ps))
            ⟨BitVec.ofNat 32 (10 * (freqTable ps).length), BitVec.ofNat 32 (freqTable ps).length,
              BitVec.ofNat 32 ps.length, 0, 0⟩ false) ∧
      ((∀ p ∈ ps, 1 ≤ p.run.toNat) → cap < 10 * (freqTable ps).length →
        ∃ t, exec .freq s = .next t ∧ KeepsTables s t ∧ FailsWith .freq s t .alloc)

/-! ### The Huffman tree and the code table (41_huffman.md) -/

/-- 41_huffman.md R203: of a pool whose creation numbers are distinct, the element with the least key is extracted, the rest
stays, and no other element has its key. -/
def Obligations.ExtractMinTakesTheLeastKey : Prop :=
  ∀ pool : List PoolNode, pool ≠ [] → (pool.map PoolNode.seq).Nodup →
    ∃ m rest, extractMin pool = some (m, rest) ∧ pool.Perm (m :: rest) ∧ ∀ x ∈ rest, m.key < x.key

/-- 41_huffman.md R205: ValidateEntries accepts exactly the tables that pass all its checks, and answers the total; every
other table is FORMAT. -/
def Obligations.ValidateEntriesChecksTheTable : Prop :=
  ∀ es : List Entry,
    (ValidTable es → validateEntries es = .ok (tableTotal es)) ∧
    (¬ ValidTable es → validateEntries es = .error .format)

/-- 41_huffman.md R205, last sentence: every table FreqTable produces from pairs with run lengths in 1..255 passes. -/
def Obligations.FreqTablesAreValid : Prop :=
  ∀ ps : List Pair, ps.length < 2 ^ 64 → (∀ p ∈ ps, 1 ≤ p.run.toNat) → ValidTable (freqTable ps)

/-- 41_huffman.md R202, R204, R208: the tree of a valid table with N >= 1 entries has the entries as its leaves, each once, N - 1
internal nodes, each node's weight the sum of its children's, the root's the table total; it does not depend on the order of the
entries. It is what the loop of R204 ends in: each round joins the two elements with the least keys, the least on the left. So the
two least entries are sibling leaves, the least on the left, and a table of two entries is one node over them. Last, the example
of R206. -/
def Obligations.TreeBuildHasTheEntriesAsLeaves : Prop :=
  (∀ es : List Entry, ValidTable es → es ≠ [] →
    ∃ t, treeBuild es = some t ∧ t.leaves.Perm es ∧ t.nodes = es.length - 1 ∧ t.Weighted ∧
      t.weight.toNat = tableTotal es ∧ (∀ es', es'.Perm es → treeBuild es' = some t) ∧
      MergesTo es.length (es.mapIdx fun i e => ⟨.leaf e.sym e.cnt, i⟩) t ∧
      ∀ e₀ e₁ rest, es = e₀ :: e₁ :: rest →
        ∃ p, t.follow p = some (.node (e₀.cnt + e₁.cnt) (.leaf e₀.sym e₀.cnt) (.leaf e₁.sym e₁.cnt))) ∧
  (∀ e₀ e₁ : Entry, ValidTable [e₀, e₁] →
    treeBuild [e₀, e₁] = some (.node (e₀.cnt + e₁.cnt) (.leaf e₀.sym e₀.cnt) (.leaf e₁.sym e₁.cnt))) ∧
  treeBuild [⟨0x0141, 1⟩, ⟨0x0142, 1⟩, ⟨0x0143, 2⟩] =
    some (.node 4 (.node 2 (.leaf 0x0141 1) (.leaf 0x0142 1)) (.leaf 0x0143 2))

/-- 41_huffman.md R213: the codes of a valid table: each symbol of the table has exactly one code and no other symbol has one; no
code is a beginning of another; for N >= 2 the sum of 2^-|code| is 1 and each code is the path of its symbol's leaf; for N = 1
the sum is 1/2, and the one code is the bit string "0" (R211). The empty table has the Empty tree (R204), and that has no code
(R211). -/
def Obligations.CodesArePrefixFreeAndComplete : Prop :=
  treeBuild [] = none ∧ codeGen none = [] ∧
  ∀ (es : List Entry) (t : HuffTree), ValidTable es → treeBuild es = some t →
    let c := codeGen (some t)
    (c.map Prod.fst).Perm (es.map Entry.sym) ∧
    (∀ sym, (CodeTable.code c sym).isSome = true ↔ sym ∈ es.map Entry.sym) ∧
    (c.Pairwise fun a b => ¬ a.2 <+: b.2 ∧ ¬ b.2 <+: a.2) ∧
    (2 ≤ es.length →
      (c.map fun e => ((1 : ℚ) / 2) ^ e.2.length).sum = 1 ∧
      ∀ e ∈ es, ∃ p, CodeTable.code c e.sym = some p ∧ t.follow p = some (.leaf e.sym e.cnt)) ∧
    (es.length = 1 → (c.map fun e => ((1 : ℚ) / 2) ^ e.2.length).sum = 1 / 2) ∧
    ∀ e, es = [e] → c = [(e.sym, [false])]

/-- 41_huffman.md R214: code lengths lie in 1..N-1 for N >= 2 and are 1 for N = 1, so at most 65279. -/
def Obligations.CodeLengthsAreBounded : Prop :=
  ∀ (es : List Entry) (t : HuffTree), ValidTable es → es.length ≤ 65280 → treeBuild es = some t →
    ∀ e ∈ codeGen (some t),
      1 ≤ e.2.length ∧ (2 ≤ es.length → e.2.length ≤ es.length - 1) ∧ (es.length = 1 → e.2.length = 1) ∧
        e.2.length ≤ 65279

/-- 41_huffman.md R206: TREE_BUILD on a table: TREE, TV = 1, CV = 0, RES0 = N and the total in RES1, RES2; TRUNC for a length that
is no multiple of 10, FORMAT for more than 65280 entries or an invalid table, and TV = CV = 0 after an error. That TREE and CT
stay in place when TV and CV are cleared is the model's choice (notes/assumptions/10.md); the table's fields have the least
significant byte first (notes/assumptions/18.md). -/
def Obligations.TreeBuildBuildsTheTree : Prop :=
  ∀ (s : State) (x : Bytes), s.RangesOk .treeBuild → s.SourceIs x →
    (x.length % 10 ≠ 0 →
      ∃ t, exec .treeBuild s = .next t ∧ FailsWith .treeBuild s t .trunc ∧ ClearsFlags s t) ∧
    ∀ es : List Entry, x = tableField es →
      (es.length ≤ 65280 → ValidTable es →
        ∃ t, exec .treeBuild s = .next t ∧
          Succeeds s t []
            ⟨0, BitVec.ofNat 32 es.length, BitVec.ofNat 32 (tableTotal es), BitVec.ofNat 32 (tableTotal es / 2 ^ 32), 0⟩
            false ∧
          t.tree = treeBuild es ∧ t.ct = s.ct ∧ t.status.tv = true ∧ t.status.cv = false) ∧
      (65280 < es.length ∨ ¬ ValidTable es →
        ∃ t, exec .treeBuild s = .next t ∧ FailsWith .treeBuild s t .format ∧ ClearsFlags s t)

/-- 41_huffman.md R212: CODE_GEN with TV = 1 makes CT = CodeGen(TREE), CV = 1, RES0 = number of codes, RES1 and RES2 the longest and
shortest length (0 if none); a code longer than CODE_LEN_MAX is ALLOC with CV = 0. TREE and TV stay. -/
def Obligations.CodeGenMakesTheCodeTable : Prop :=
  ∀ s : State, s.status.tv = true →
    let c := codeGen s.tree
    ((∀ e ∈ c, e.2.length ≤ s.cfg.codeLenMax.val) →
      ∃ t mx mn, exec .codeGen s = .next t ∧
        Succeeds s t [] ⟨0, BitVec.ofNat 32 c.length, BitVec.ofNat 32 mx, BitVec.ofNat 32 mn, 0⟩ false ∧
        (c = [] → mx = 0 ∧ mn = 0) ∧
        (c ≠ [] → (∃ e ∈ c, e.2.length = mx) ∧ (∃ e ∈ c, e.2.length = mn) ∧
          ∀ e ∈ c, mn ≤ e.2.length ∧ e.2.length ≤ mx) ∧
        t.tree = s.tree ∧ t.ct = c ∧ t.status.tv = true ∧ t.status.cv = true) ∧
    ((∃ e ∈ c, s.cfg.codeLenMax.val < e.2.length) →
      ∃ t, exec .codeGen s = .next t ∧ FailsWith .codeGen s t .alloc ∧
        t.tree = s.tree ∧ t.ct = s.ct ∧ t.status.tv = true ∧ t.status.cv = false)

/-- 41_huffman.md R220: CODE_QUERY with CV = 1: RES0 is the length of the symbol's code, bit 31 - t of RES1 is the code's bit off + t
(0 past its end); a symbol without a code gives 0, 0. -/
def Obligations.CodeQueryReadsTheCode : Prop :=
  ∀ s : State, s.status.cv = true →
    let sym : Symbol := s.latch.ops.arg0.extractLsb' 0 16
    ∃ t len win, exec .codeQuery s = .next t ∧ KeepsTables s t ∧ Succeeds s t [] ⟨0, len, win, 0, 0⟩ false ∧
      (CodeTable.code s.ct sym = none → len = 0 ∧ win = 0) ∧
      ∀ c, CodeTable.code s.ct sym = some c →
        len = BitVec.ofNat 32 c.length ∧
        ∀ k < 32, win.getLsbD (31 - k) = c.getD (s.latch.ops.arg1.toNat + k) false

/-! ### The payload and the XOR scrambler (42_bitpack.md, 30_encoding.md) -/

/-- 30_encoding.md R107, R108: Packed(bits) has ceil(B/8) bytes; stream bit k of it is bits[k], MSB first in a byte, and
every bit past the end is 0. -/
def Obligations.PackedBitsReadBack : Prop :=
  ∀ bits : BitString,
    (packed bits).length = (bits.length + 7) / 8 ∧
    ∀ k, streamBit (packed bits) k = bits.getD k false

/-- 30_encoding.md R109: valid bits lie in 1..8, and the bit limit of a payload of B bits is B. -/
def Obligations.BitLimitOfPackedBits : Prop :=
  ∀ n : Nat, 1 ≤ validBits n ∧ validBits n ≤ 8 ∧ bitLimit ((n + 7) / 8) (validBits n) = n ∧
    (n % 8 ≠ 0 → validBits n = n % 8) ∧ (n % 8 = 0 → validBits n = 8)

/-- 42_bitpack.md R250: PACK with CV = 1 writes the packed codes; TRUNC for an odd length, NOCODE at the first symbol without a
code unless the bytes flushed before passed DST_CAP, ALLOC when the payload does not fit. -/
def Obligations.PackWritesThePayload : Prop :=
  ∀ (s : State) (x : Bytes), s.RangesOk .pack → s.status.cv = true → s.SourceIs x →
    let cap := s.latch.ops.dstCap.toNat
    let bitsOf := fun ps : List Pair => ps.flatMap fun p => (CodeTable.code s.ct p.sym).getD []
    (x.length % 2 = 1 → ∃ t, exec .pack s = .next t ∧ KeepsTables s t ∧ FailsWith .pack s t .trunc) ∧
    (∀ ps : List Pair, x = ps.flatMap (fun p => [p.val, p.run]) →
      (∀ p ∈ ps, (CodeTable.code s.ct p.sym).isSome = true) →
      let b := (bitsOf ps).length
      ((b + 7) / 8 ≤ cap →
        ∃ t, exec .pack s = .next t ∧ KeepsTables s t ∧
          Succeeds s t (packed (bitsOf ps))
            ⟨BitVec.ofNat 32 ((b + 7) / 8), BitVec.ofNat 32 (validBits b), BitVec.ofNat 32 ps.length, BitVec.ofNat 32 b,
              BitVec.ofNat 32 (b / 2 ^ 32)⟩ false) ∧
      (cap < (b + 7) / 8 → ∃ t, exec .pack s = .next t ∧ KeepsTables s t ∧ FailsWith .pack s t .alloc)) ∧
    (∀ (ps qs : List Pair) (p : Pair), x = (ps ++ p :: qs).flatMap (fun p => [p.val, p.run]) →
      (∀ q ∈ ps, (CodeTable.code s.ct q.sym).isSome = true) → CodeTable.code s.ct p.sym = none →
      ((bitsOf ps).length / 8 ≤ cap →
        ∃ t, exec .pack s = .next t ∧ KeepsTables s t ∧ FailsWith .pack s t .nocode) ∧
      (cap < (bitsOf ps).length / 8 →
        ∃ t, exec .pack s = .next t ∧ KeepsTables s t ∧ FailsWith .pack s t .alloc))

/-- 42_bitpack.md R260: UNPACK with TV = 1: FORMAT for valid bits outside 1..8 or an Empty TREE with a count above 0; with a count
of 0, empty output; else the output and end position, or the error, that reading the payload gives (R261 to R263, `Decodes`), up
to the limit of 30_encoding.md R109, two bytes a symbol. -/
def Obligations.UnpackDecodesThePayload : Prop :=
  ∀ s : State, s.RangesOk .unpack → s.status.tv = true →
    let o := s.latch.ops
    let cnt := o.arg1.toNat * 2 ^ 32 + o.arg0.toNat
    let vb := o.arg2.toNat
    ((vb < 1 ∨ 8 < vb ∨ (s.tree = none ∧ 0 < cnt)) →
      ∃ t, exec .unpack s = .next t ∧ KeepsTables s t ∧ FailsWith .unpack s t .format) ∧
    ∀ pl : Bytes, s.SourceIs pl → 1 ≤ vb → vb ≤ 8 →
      (cnt = 0 → ∃ t, exec .unpack s = .next t ∧ KeepsTables s t ∧ Succeeds s t [] ResultRegs.zero false) ∧
      ∀ tr : HuffTree, s.tree = some tr →
        (∀ out pos, Decodes pl (streamLimit pl.length vb) tr pairField o.dstCap.toNat cnt (.ok (out, pos)) →
          ∃ t, exec .unpack s = .next t ∧ KeepsTables s t ∧
            Succeeds s t out
              ⟨BitVec.ofNat 32 out.length, BitVec.ofNat 32 pos, BitVec.ofNat 32 (pos / 2 ^ 32), 0, 0⟩ false) ∧
        (∀ e, Decodes pl (streamLimit pl.length vb) tr pairField o.dstCap.toNat cnt (.error e) →
          ∃ t, exec .unpack s = .next t ∧ KeepsTables s t ∧ FailsWith .unpack s t e)

/-- 42_bitpack.md R261..R263: on any payload, tree, limit, capacity and count the stream decoder, with UNPACK's output or DECODE's,
answers exactly what `Decodes` says: each symbol in turn is the path to a leaf in the bits below the limit, one bit of either value
where the tree is a single leaf (R262); TRUNC where no symbol ends below the limit, before the ALLOC of that symbol; what is left
behind the last symbol is ignored. So it inverts the packer: the payload of pairs whose symbols are in a valid table gives the
symbols back in order and ends at the last valid bit; asked for one more symbol than it holds, it answers TRUNC. -/
def Obligations.DecodeStreamInvertsPackPayload : Prop :=
  (∀ (tr : HuffTree) (pl : Bytes) (lim cap cnt : Nat) (r : Except Err (Bytes × Nat)),
    (decodeStream tr pl lim (emitPair cap) cnt 0 [] = r ↔ Decodes pl lim tr pairField cap cnt r) ∧
    (decodeStream tr pl lim (emitRun cap) cnt 0 [] = r ↔ Decodes pl lim tr runField cap cnt r)) ∧
  ∀ (es : List Entry) (tr : HuffTree) (ps : List Pair) (cap : Nat),
    ValidTable es → treeBuild es = some tr → (∀ p ∈ ps, p.sym ∈ es.map Entry.sym) → 2 * ps.length ≤ cap →
    let bits := ps.flatMap fun p => (CodeTable.code (codeGen (some tr)) p.sym).getD []
    let pl := packed bits
    let lim := streamLimit pl.length (validBits bits.length)
    Decodes pl lim tr pairField cap ps.length (.ok (ps.flatMap (fun p => [p.val, p.run]), bits.length)) ∧
    Decodes pl lim tr pairField cap (ps.length + 1) (.error .trunc)

/-- 42_bitpack.md R270: XOR writes every source byte XOR ARG0[7:0], in place too; ALLOC when SRC_LEN > DST_CAP. -/
def Obligations.XorWritesTheScrambledBytes : Prop :=
  ∀ (s : State) (x : Bytes), s.RangesOk .xor → s.SourceIs x →
    (x.length ≤ s.latch.ops.dstCap.toNat →
      ∃ t, exec .xor s = .next t ∧ KeepsTables s t ∧
        Succeeds s t (x.map fun b => b ^^^ s.latch.ops.arg0.extractLsb' 0 8) ⟨BitVec.ofNat 32 x.length, 0, 0, 0, 0⟩ false) ∧
    (s.latch.ops.dstCap.toNat < x.length →
      ∃ t, exec .xor s = .next t ∧ KeepsTables s t ∧ FailsWith .xor s t .alloc)

/-- 42_bitpack.md R270, corner cases: two XORs in place with one key restore the buffer. -/
def Obligations.XorTwiceInPlaceRestoresMemory : Prop :=
  ∀ (s : State) (x : Bytes), s.RangesOk .xor → s.SourceIs x → s.latch.ops.srcAddr = s.latch.ops.dstAddr →
    x.length ≤ s.latch.ops.dstCap.toNat →
    ∃ t u, exec .xor s = .next t ∧ exec .xor t = .next u ∧ ∀ a, u.mem.read a = s.mem.read a

/-! ### The container codec (43_container.md) -/

/-- 43_container.md R300: ENCODE writes the container of R301 over the layout of 30_encoding.md R110, TV = CV = 0; a code longer
than CODE_LEN_MAX or a container larger than DST_CAP is ALLOC, TV = CV = 0 as well. That TREE and CT stay in place is the
model's choice (notes/assumptions/10.md); the fields have the least significant byte first (notes/assumptions/18.md). -/
def Obligations.EncodeWritesTheContainer : Prop :=
  ∀ (s : State) (x : Bytes) (prot : Bool), s.RangesOk (.encode prot) → s.SourceIs x →
    let ps := rleForward x
    let es := freqTable ps
    let c := codeGen (treeBuild es)
    let bits := ps.flatMap fun p => (CodeTable.code c p.sym).getD []
    let plain := packed bits
    let pl := if prot then plain.map (· ^^^ s.cfg.xorKey) else plain
    let vb := validBits bits.length
    let out := s.cfg.signature.toBytes ++ s.cfg.version.toBytes ++ [s.cfg.algIdRle] ++ [s.cfg.algIdHuf] ++
      [if prot then 1 else 0] ++ leField 8 x.length ++ leField 4 es.length ++ tableField es ++ [BitVec.ofNat 8 vb] ++
      leField 4 pl.length ++ pl
    out.length = 28 + 10 * es.length + (bits.length + 7) / 8 ∧
    ((∀ e ∈ c, e.2.length ≤ s.cfg.codeLenMax.val) → out.length ≤ s.latch.ops.dstCap.toNat →
      ∃ t, exec (.encode prot) s = .next t ∧
        Succeeds s t out
          ⟨BitVec.ofNat 32 out.length, BitVec.ofNat 32 es.length, BitVec.ofNat 32 vb, BitVec.ofNat 32 pl.length,
            BitVec.ofNat 32 ps.length⟩ false ∧
        ClearsFlags s t) ∧
    ((∃ e ∈ c, s.cfg.codeLenMax.val < e.2.length) ∨ s.latch.ops.dstCap.toNat < out.length →
      ∃ t, exec (.encode prot) s = .next t ∧ FailsWith (.encode prot) s t .alloc ∧ ClearsFlags s t)

/-- 43_container.md R310, R312, R313, R317: DECODE of a container that parses to `c`: the payload, XORed with XOR_KEY first if its
protection id is 1, is read with the tree of its entries up to the limit of its valid bits, as many symbols as the table total, each
symbol run(s) copies of byteval(s), checked against DST_CAP after it is read (R263). The output, orig in RES0 and RES1, N and prot
are reported, SZMIS exactly when the output length is not orig; with a total of 0 the output is empty whatever the payload. A parse or
decoding error is reported; TV = CV = 0 always. That TREE and CT stay in place is the model's choice (notes/assumptions/10.md). -/
def Obligations.DecodeWritesTheContents : Prop :=
  ∀ (s : State) (x : Bytes), s.RangesOk .decode → s.SourceIs x →
    (∀ e, parseContainer s.cfg x = .error e →
      ∃ t, exec .decode s = .next t ∧ FailsWith .decode s t e ∧ ClearsFlags s t) ∧
    ∀ c, parseContainer s.cfg x = .ok c →
      let total := tableTotal c.entries
      let pl := if c.prot then c.payload.map (· ^^^ s.cfg.xorKey) else c.payload
      let writes := fun out : Bytes =>
        ∃ t, exec .decode s = .next t ∧
          Succeeds s t out
            ⟨BitVec.ofNat 32 out.length, BitVec.ofNat 32 c.orig, BitVec.ofNat 32 (c.orig / 2 ^ 32),
              BitVec.ofNat 32 c.entries.length, if c.prot then 1 else 0⟩ (decide (out.length ≠ c.orig)) ∧
          ClearsFlags s t
      (total = 0 → writes []) ∧
      ∀ tr, treeBuild c.entries = some tr →
        (∀ out pos, Decodes pl (streamLimit pl.length c.validBits) tr runField s.latch.ops.dstCap.toNat total (.ok (out, pos)) →
          writes out) ∧
        ∀ e, Decodes pl (streamLimit pl.length c.validBits) tr runField s.latch.ops.dstCap.toNat total (.error e) →
          ∃ t, exec .decode s = .next t ∧ FailsWith .decode s t e ∧ ClearsFlags s t

/-- 43_container.md R311: a container parses exactly when its bytes are, in layout order, the constants, the protection id, orig, N, a
valid table, the valid bits in 1..8, the payload length and exactly the payload, each field with its least significant byte first
(00_scope.md R12 as the spec reads it, notes/assumptions/18.md). Every other byte string is rejected with the error of the first
field in layout order that fails: TRUNC where it is cut short, FORMAT where its value is not legal, FORMAT for bytes behind the
payload. -/
def Obligations.ParseContainerAcceptsTheLayout : Prop :=
  (∀ (p : Params) (x : Bytes) (c : Parsed),
    parseContainer p x = .ok c ↔
      c.orig < 2 ^ 64 ∧ c.entries.length ≤ 65280 ∧ ValidTable c.entries ∧ c.total = tableTotal c.entries ∧
        1 ≤ c.validBits ∧ c.validBits ≤ 8 ∧ c.payload.length < 2 ^ 32 ∧
        x = p.signature.toBytes ++ p.version.toBytes ++ [p.algIdRle] ++ [p.algIdHuf] ++ [if c.prot then 1 else 0] ++
          leField 8 c.orig ++ leField 4 c.entries.length ++ tableField c.entries ++ [BitVec.ofNat 8 c.validBits] ++
          leField 4 c.payload.length ++ c.payload) ∧
  ∀ (p : Params) (x : Bytes) (e : Err), parseContainer p x = .error e ↔ RejectedAs p x e

/-- 43_container.md R320: ENCODE of `x` with large enough ranges and codes at most CODE_LEN_MAX long succeeds, and a DECODE, by the
same instance, of what it wrote, with a destination range large enough, succeeds with output `x` and SZMIS = 0. -/
def Obligations.DecodeOfEncodeIsTheInput : Prop :=
  ∀ (s : State) (x : Bytes) (prot : Bool), s.RangesOk (.encode prot) → s.SourceIs x →
    (∀ e ∈ codeGen (treeBuild (freqTable (rleForward x))), e.2.length ≤ s.cfg.codeLenMax.val) →
    28 + 10 * (freqTable (rleForward x)).length +
      ((payloadBits (codeGen (treeBuild (freqTable (rleForward x)))) (rleForward x)).length + 7) / 8 ≤
        s.latch.ops.dstCap.toNat →
    ∃ t, exec (.encode prot) s = .next t ∧ t.status.err = none ∧
      ∃ y, t.mem.readBytes s.latch.ops.dstAddr.toNat t.res.resLen.toNat = some y ∧
        ∀ u : State, u.cfg = s.cfg → u.RangesOk .decode → u.SourceIs y → x.length ≤ u.latch.ops.dstCap.toNat →
          ∃ v, exec .decode u = .next v ∧ v.status.err = none ∧ v.status.szmis = false ∧
            v.res.resLen.toNat = x.length ∧
            v.mem.readBytes u.latch.ops.dstAddr.toNat x.length = some x

/-- 43_container.md R321: a container that ENCODE produced, cut by its last byte, is TRUNC: for every capacity, with a payload or
without. -/
def Obligations.TruncatedContainerIsTrunc : Prop :=
  ∀ (s : State) (x : Bytes) (prot : Bool) (c : Encoded), encodeContainer s.cfg x prot = .ok c → x.length < 2 ^ 32 →
    s.RangesOk .decode → s.SourceIs c.bytes.dropLast →
    ∃ t, exec .decode s = .next t ∧ FailsWith .decode s t .trunc

/-! ### The control commands (44_control.md) -/

/-- 44_control.md R360, R361: NOP and CLEAR complete from every state with zero results; NOP leaves TREE, CT, TV and CV, CLEAR leaves
TV = CV = 0 (TREE and CT staying in place: the model's choice, notes/assumptions/10.md). -/
def Obligations.NopAndClearComplete : Prop :=
  ∀ s : State,
    (∃ t, exec .nop s = .next t ∧ KeepsTables s t ∧ Succeeds s t [] ResultRegs.zero false) ∧
    (∃ t, exec .clear s = .next t ∧ ClearsFlags s t ∧ Succeeds s t [] ResultRegs.zero false)

/-! ### Every command: errors, flags, memory (60_exceptions.md, 10_state.md, 20_memory.md) -/

/-- 60_exceptions.md R404: a command whose ranges are not acceptable completes with RANGE, and only such a one does; the check comes
before every other. -/
def Obligations.BadRangesGiveRange : Prop :=
  ∀ (i : Instr) (s : State),
    (¬ s.RangesOk i → ∃ t, exec i s = .next t ∧ FailsWith i s t .range) ∧
    ∀ t, exec i s = .next t → (t.status.err = some .range ↔ ¬ s.RangesOk i)

/-- 60_exceptions.md R405: with acceptable ranges, CODE_GEN and UNPACK without TV, CODE_QUERY and PACK without CV complete with STATE,
TREE, CT, TV and CV kept, and nothing else does. -/
def Obligations.MissingTreeOrTableGivesState : Prop :=
  ∀ (i : Instr) (s : State), s.RangesOk i →
    (¬ StateOk i s.status → ∃ t, exec i s = .next t ∧ FailsWith i s t .state ∧ KeepsTables s t) ∧
    ∀ t, exec i s = .next t → (t.status.err = some .state ↔ ¬ StateOk i s.status)

/-- 60_exceptions.md R403: what an error leaves, for every command: the code, BUSY, DONE, SZMIS, the zeroed results, MEM, and TV
and CV as 10_state.md R43 says. That TREE and CT stay in place where TV and CV are cleared is the model's choice
(notes/assumptions/10.md). -/
def Obligations.ErrorsLeaveWhatTheRuleSays : Prop :=
  ∀ (i : Instr) (s t : State) (e : Err), exec i s = .next t → t.status.err = some e →
    FailsWith i s t e ∧ t.tree = s.tree ∧ t.ct = s.ct ∧
      (i = .treeBuild ∨ i = .decode ∨ (∃ prot, i = .encode prot) → t.status.tv = false ∧ t.status.cv = false) ∧
      (¬ (i = .treeBuild ∨ i = .decode ∨ ∃ prot, i = .encode prot) → t.status.tv = s.status.tv) ∧
      (i = .codeGen → e = .alloc → t.status.cv = false) ∧
      (¬ (i = .treeBuild ∨ i = .decode ∨ ∃ prot, i = .encode prot) → ¬ (i = .codeGen ∧ e = .alloc) →
        t.status.cv = s.status.cv)

/-- 10_state.md R43: TV, CV and SZMIS after each command. -/
def Obligations.FlagsAfterEachCommand : Prop :=
  ∀ (i : Instr) (s t : State), exec i s = .next t →
    (i = .nop ∨ i = .rleEnc ∨ i = .rleDec ∨ i = .freq ∨ i = .pack ∨ i = .unpack ∨ i = .xor ∨ i = .codeQuery →
      t.status.tv = s.status.tv ∧ t.status.cv = s.status.cv ∧ t.status.szmis = false) ∧
    (i = .treeBuild → t.status.tv = t.status.err.isNone ∧ t.status.cv = false ∧ t.status.szmis = false) ∧
    (i = .codeGen → t.status.tv = s.status.tv ∧ t.status.szmis = false ∧
      (t.status.err = none → t.status.cv = true) ∧ (t.status.err = some .alloc → t.status.cv = false) ∧
      (t.status.err = some .state → t.status.cv = s.status.cv)) ∧
    ((∃ prot, i = .encode prot) ∨ i = .clear → t.status.tv = false ∧ t.status.cv = false ∧ t.status.szmis = false) ∧
    (i = .decode → t.status.tv = false ∧ t.status.cv = false ∧ (t.status.err ≠ none → t.status.szmis = false))

/-- 20_memory.md R81, the writes: whatever a command answers, MEM outside its destination range is unchanged; on success a command
with a destination range changes at most the RES_LEN bytes from DST_ADDR on, which lie in the range and all hold a byte, and one
without a destination range changes no byte. -/
def Obligations.CommandsWriteOnlyTheirDestination : Prop :=
  ∀ (i : Instr) (s t : State), exec i s = .next t →
    (∀ a, ¬ s.InDstRange i a → t.mem.read a = s.mem.read a) ∧
    (hasDst i = false → t.mem = s.mem) ∧
    (t.status.err = none → hasDst i = true →
      t.res.resLen.toNat ≤ s.latch.ops.dstCap.toNat ∧
      (∀ k < t.res.resLen.toNat, (t.mem.read (s.latch.ops.dstAddr.toNat + k)).isSome = true) ∧
      ∀ a, ¬ (s.latch.ops.dstAddr.toNat ≤ a ∧ a < s.latch.ops.dstAddr.toNat + t.res.resLen.toNat) →
        t.mem.read a = s.mem.read a)

/-- 20_memory.md R81, the reads (00_scope.md R14): a command's answer depends on MEM only through its source range: with any other
memory that agrees there, it stops alike, or leaves every field but MEM alike and writes the same bytes. -/
def Obligations.CommandsReadOnlyTheirSource : Prop :=
  ∀ (i : Instr) (s : State) (m : Memory),
    (hasSrc i = true → ∀ a, s.latch.ops.srcAddr.toNat ≤ a → a < s.latch.ops.srcAddr.toNat + s.latch.ops.srcLen.toNat →
      m.read a = s.mem.read a) →
    (∃ f, exec i s = .fault f ∧ exec i { s with mem := m } = .fault f) ∨
    ∃ t out, exec i s = .next t ∧ t.mem = s.mem.writeBytes s.latch.ops.dstAddr.toNat out ∧
      exec i { s with mem := m } = .next { t with mem := m.writeBytes s.latch.ops.dstAddr.toNat out }

/-- 20_memory.md R72: a command never stops but by reading an unwritten source byte, and it then is a fault: with its whole
source range written it completes, and with an unwritten byte in it, ranges and state acceptable, it faults (UNPACK: with legal
operands). The fault is the model's treatment that R72 asks for (notes/assumptions/5.md). -/
def Obligations.OnlyUnwrittenSourcesStopACommand : Prop :=
  ∀ (i : Instr) (s : State),
    (s.SourceWritten i → ∃ t, exec i s = .next t) ∧
    (¬ s.SourceWritten i → s.RangesOk i → StateOk i s.status →
      (i = .unpack → unpackChecks s.tree s.latch.ops.symbolCount s.latch.ops.validBitsArg = .ok ()) →
      exec i s = .fault .readUnwritten) ∧
    (∀ f, exec i s = .fault f → f = .readUnwritten) ∧
    ∀ r, exec i s ≠ .refused r

/-! ### The host's accesses (20_memory.md, 10_state.md) -/

/-- 20_memory.md R73, R82 (c), (d): a host read of a byte below MEM_SIZE outside the destination range in flight, a byte of the source
range in flight included, answers its current value; a host write of a byte outside both ranges in flight changes that byte and
nothing else; at or above MEM_SIZE an access is refused. A read of an unwritten byte answers a free value (notes/assumptions/6.md), a
read of a destination byte in flight another (R82 (c), notes/assumptions/7.md). Which bytes are in flight is log 8's reading
(notes/assumptions/8.md). An access of more than one byte as a single step is refused (R73, I12, notes/assumptions/15.md). -/
def Obligations.HostMemAccess : Prop :=
  ∀ (s : State) (a : Nat) (b : Byte),
    (s.cfg.memSize.val ≤ a →
      hostAccess (.memRead a) s = .refused .memOutside ∧ hostAccess (.memWrite a b) s = .refused .memOutside) ∧
    (a < s.cfg.memSize.val → ¬ s.DstInFlight a →
      ∃ v, hostAccess (.memRead a) s = .next { s with replies := .byte v :: s.replies } ∧
        ∀ w, s.mem.read a = some w → v = w) ∧
    (a < s.cfg.memSize.val → s.DstInFlight a →
      ∃ v, hostAccess (.memRead a) s = .next { s with replies := .byte v :: s.replies, draws := s.draws + 1 }) ∧
    (a < s.cfg.memSize.val → ¬ s.SrcInFlight a → ¬ s.DstInFlight a →
      ∃ m, hostAccess (.memWrite a b) s = .next { s with mem := m } ∧
        ∀ a', m.read a' = if a' = a then some b else s.mem.read a') ∧
    ∀ n, hostAccess (.memWide n a) s = .refused .memWide

/-- 20_memory.md R82 (b): an access of the host is a fault exactly when BUSY = 1 and it is a byte write below MEM_SIZE into the source
or destination range of the legal command in flight, and then the fault is hostRace. Which bytes these ranges are, and that an
illegal word has none, is the model's reading (notes/assumptions/8.md). -/
def Obligations.HostRaceIsAFault : Prop :=
  ∀ (s : State) (op : HostOp) (f : Fault),
    hostAccess op s = .fault f ↔
      f = .hostRace ∧ s.status.busy = true ∧
        ∃ i a b, op = .memWrite a b ∧ decodeWord s.latch.cmd = .ok i ∧ a < s.cfg.memSize.val ∧
          (s.InSrcRange i a ∨ s.InDstRange i a)

/-- 20_memory.md R74: a REG access is an aligned 32-bit read or write below 0x100; any other is refused. -/
def Obligations.RegAccessIsAlignedWords : Prop :=
  ∀ (s : State) (off : Nat) (v : Word),
    (off % 4 = 0 ∧ off < 0x100 →
      hostAccess (.regRead off) s = .next { s with replies := .word (s.readOffset off) :: s.replies } ∧
      hostAccess (.regWrite off v) s = .next (s.writeOffset off v)) ∧
    (¬ (off % 4 = 0 ∧ off < 0x100) →
      hostAccess (.regRead off) s = .refused .regAccess ∧ hostAccess (.regWrite off v) s = .refused .regAccess) ∧
    ∀ n, hostAccess (.regOtherWidth n off) s = .refused .regAccess

/-- 10_state.md R33, R38, R40, R41: each register reads at its offset; SRC_ADDR..ARG2 take what is written and nothing else changes, L
in particular; writes to RES_LEN..RES3, MEMSZ and CLMAX are ignored. -/
def Obligations.RegisterMap : Prop :=
  ∀ (s : State) (v : Word),
    (s.readOffset 0x04 = s.cmd ∧ s.readOffset 0x0C = s.ops.srcAddr ∧ s.readOffset 0x10 = s.ops.srcLen ∧
      s.readOffset 0x14 = s.ops.dstAddr ∧ s.readOffset 0x18 = s.ops.dstCap ∧ s.readOffset 0x1C = s.ops.arg0 ∧
      s.readOffset 0x20 = s.ops.arg1 ∧ s.readOffset 0x24 = s.ops.arg2 ∧ s.readOffset 0x28 = s.res.resLen ∧
      s.readOffset 0x2C = s.res.res0 ∧ s.readOffset 0x30 = s.res.res1 ∧ s.readOffset 0x34 = s.res.res2 ∧
      s.readOffset 0x38 = s.res.res3 ∧ (s.readOffset 0x3C).toNat = s.cfg.memSize.val ∧
      (s.readOffset 0x40).toNat = s.cfg.codeLenMax.val) ∧
    (s.writeOffset 0x0C v = { s with ops := { s.ops with srcAddr := v } } ∧
      s.writeOffset 0x10 v = { s with ops := { s.ops with srcLen := v } } ∧
      s.writeOffset 0x14 v = { s with ops := { s.ops with dstAddr := v } } ∧
      s.writeOffset 0x18 v = { s with ops := { s.ops with dstCap := v } } ∧
      s.writeOffset 0x1C v = { s with ops := { s.ops with arg0 := v } } ∧
      s.writeOffset 0x20 v = { s with ops := { s.ops with arg1 := v } } ∧
      s.writeOffset 0x24 v = { s with ops := { s.ops with arg2 := v } }) ∧
    ∀ off ∈ [0x28, 0x2C, 0x30, 0x34, 0x38, 0x3C, 0x40], s.writeOffset off v = s

/-- 10_state.md R42: the reserved words 0x44..0xFC read as 0 and ignore writes; so do the reserved bits of CTRL and STATUS. -/
def Obligations.ReservedReadZeroIgnoreWrites : Prop :=
  (∀ (s : State) (off : Nat) (v : Word), 0x44 ≤ off → off < 0x100 → off % 4 = 0 →
    s.readOffset off = 0 ∧ s.writeOffset off v = s) ∧
  (∀ (s : State) (k : Nat), 1 ≤ k → (s.readOffset 0x00).getLsbD k = false) ∧
  (∀ (s : State) (k : Nat), 10 ≤ k → (s.readOffset 0x08).getLsbD k = false) ∧
  (∀ (s : State) (v v' : Word), v.getLsbD 0 = v'.getLsbD 0 → s.writeOffset 0x00 v = s.writeOffset 0x00 v') ∧
  (∀ (s : State) (v v' : Word), v.getLsbD 1 = v'.getLsbD 1 → v.getLsbD 2 = v'.getLsbD 2 →
    s.writeOffset 0x08 v = s.writeOffset 0x08 v')

/-- 10_state.md R37: a STATUS read returns its fields at their bits and 0 above bit 9, ERR as the code of 60_exceptions.md R400. Beside
it, 10_state.md R36: a write clears DONE and DROP where bits 1 and 2 are 1 and changes nothing else. -/
def Obligations.StatusReadAndWrite : Prop :=
  (∀ s : State,
    let w := s.readOffset 0x08
    w.getLsbD 0 = s.status.busy ∧ w.getLsbD 1 = s.status.done ∧ w.getLsbD 2 = s.status.drop ∧
      w.getLsbD 3 = s.status.szmis ∧ w.getLsbD 8 = s.status.tv ∧ w.getLsbD 9 = s.status.cv ∧
      w.extractLsb' 4 4 =
        match s.status.err with
        | none => 0
        | some .alloc => 1
        | some .format => 2
        | some .trunc => 3
        | some .illegal => 4
        | some .range => 5
        | some .state => 6
        | some .nocode => 7) ∧
  (∀ (s : State) (k : Nat), 10 ≤ k → (s.readOffset 0x08).getLsbD k = false) ∧
  ∀ (s : State) (v : Word),
    s.writeOffset 0x08 v =
      { s with status := { s.status with
          done := s.status.done && !v.getLsbD 1
          drop := s.status.drop && !v.getLsbD 2 } }

/-- 60_exceptions.md R410, 10_state.md R34: IRQ is DONE AND IE; a CTRL write sets IE from bit 0 and changes nothing else, DONE in
particular; a write of 1 to STATUS bit 1 and an issue deassert IRQ. -/
def Obligations.InterruptIsDoneAndEnable : Prop :=
  ∀ s : State,
    (s.irq = true ↔ s.status.done = true ∧ s.ie = true) ∧
    (∀ v : Word, s.writeOffset 0x00 v = { s with ie := v.getLsbD 0 }) ∧
    ((s.readOffset 0x00).getLsbD 0 = s.ie) ∧
    (∀ v : Word, v.getLsbD 0 = false → (s.writeOffset 0x00 v).irq = false) ∧
    (∀ v : Word, v.getLsbD 1 = true → (s.writeOffset 0x08 v).irq = false) ∧
    ∀ v : Word, s.status.busy = false → (s.writeOffset 0x04 v).irq = false

/-- 10_state.md R40: the result registers change only at completion: no access of the host changes them. -/
def Obligations.HostAccessesKeepResults : Prop :=
  ∀ (s t : State) (op : HostOp), hostAccess op s = .next t →
    t.res = s.res ∧ t.cfg = s.cfg ∧ t.tree = s.tree ∧ t.ct = s.ct ∧ t.status.tv = s.status.tv ∧
      t.status.cv = s.status.cv ∧ (s.status.busy = true → t.status.busy = true ∧ t.latch = s.latch ∧ t.cmd = s.cmd)

/-- 30_encoding.md R117: the pseudo-operations expand to their accesses, and a poll of `wait` reads STATUS and leaves `wait` to be
done again while bit 0 is 1. That `wait` is one entry of the host's list is the model's form (notes/assumptions/4.md). -/
def Obligations.PseudoLinesExpand : Prop :=
  (∀ i, expandLine (.cmd i) = [.regWrite 0x04 (encodeWord i)]) ∧ encodeWord (.encode true) = 0x0000010A ∧
  expandLine .ack = [.regWrite 0x08 0x00000002] ∧
  (∀ a n, expandLine (.setsrc a n) = [.regWrite 0x0C a, .regWrite 0x10 n]) ∧
  (∀ a c, expandLine (.setdst a c) = [.regWrite 0x14 a, .regWrite 0x18 c]) ∧
  expandLine .wait = [.wait] ∧
  ∀ s : State, hostAccess .wait s = .next { s with
    replies := .word (s.readOffset 0x08) :: s.replies
    host := if (s.readOffset 0x08).getLsbD 0 then .wait :: s.host else s.host }

/-- 30_encoding.md R117: the line `cmd M` of a host program, on an idle block, issues M, and the step after it runs M. That the
engine moves next once `turns` is used up is the model's choice (notes/assumptions/2.md). -/
def Obligations.CmdLineIssuesAndRuns : Prop :=
  ∀ (s : State) (i : Instr) (rest : List HostOp), s.status.busy = false → s.turns = [] →
    s.host = expandLine (.cmd i) ++ rest →
    ∃ t, step s = .next t ∧ t = { s.issue (encodeWord i) with host := rest } ∧ step t = exec i t

/-! ### Reset (10_state.md R51, 70_reset_and_hazards.md R450, R451) -/

/-- 10_state.md R51: every register 0 but the hardwired MEMSZ and CLMAX, every MEM byte unwritten, IRQ 0, for every instance; and the
machine's reset state is that of some instance (notes/assumptions/1.md). -/
def Obligations.ResetValues : Prop :=
  (∀ p : Params,
    let s := State.resetWith p
    (∀ off < 0x3C, s.readOffset off = 0) ∧ (s.readOffset 0x3C).toNat = p.memSize.val ∧
      (s.readOffset 0x40).toNat = p.codeLenMax.val ∧ (∀ a, s.mem.read a = none) ∧ s.irq = false ∧
      s.status = ⟨false, false, false, false, none, false, false⟩) ∧
  ∃ p, core.reset = State.resetWith p

/-- 70_reset_and_hazards.md R450, R451: the reset event, at any time and with a command in flight or not, puts the whole block at its reset
values in one step; MEM is unwritten again and the command never completes. The turn, the host, its replies and the counters are
the model's own (notes/assumptions/14.md), and so are the values of L, TREE and CT (notes/assumptions/9.md). -/
def Obligations.ResetEventResetsTheBlock : Prop :=
  ∀ (s : State) (ts : List Agent), s.turns = .reset :: ts →
    step s = .next { State.resetWith s.cfg with
      host := s.host
      turns := ts
      replies := s.replies
      draws := s.draws
      epoch := s.epoch + 1 }

/-! ### Invariants -/

/-- The invariant (MEM canonical and inside MEM_SIZE; 44_control.md R350; 10_state.md R46, R49) holds right after reset, for every
instance. -/
def Obligations.ResetMeetsTheInvariant : Prop := ∀ p : Params, (State.resetWith p).Inv

/-- Every step keeps the invariant: MEM canonical and inside MEM_SIZE, the flight fields of 44_control.md R350, TV = 1 only with the tree
of a valid table (10_state.md R46), and CV = 1 only with TV = 1 and CT = CodeGen(TREE) (10_state.md R49). -/
def Obligations.StepKeepsTheInvariant : Prop := ∀ s t : State, s.Inv → step s = .next t → t.Inv

/-- 00_scope.md R6: the parameters are fixed for one instance: no step changes them. -/
def Obligations.StepKeepsTheParameters : Prop := ∀ s t : State, step s = .next t → t.cfg = s.cfg
end

