-- ==== Sys2Proof/Laws/Memory.lean ====
section
/-! SUPPORT. The laws of MEM: a read after a write, every other byte untouched, the canonical form kept by every operation,
and the same laws for byte strings (20_memory.md R73, 00_scope.md R13). -/

namespace Sys2Proof.Machine.Memory

/-! ### One byte -/

@[simp] theorem read_nil (a : Nat) : read [] a = none := rfl

theorem read_write_same (m : Memory) (a : Nat) (b : Byte) : (write m a b).read a = some b := by
  induction m with
  | nil => simp [write, read]
  | cons c m ih =>
    simp only [write]
    split
    · simp [read]
    · split
      · simp [read]
      · rename_i h₁ h₂
        have : c.1 ≠ a := fun h => h₂ h.symm
        simp [read, this, ih]

theorem read_write_other (m : Memory) {a a' : Nat} (b : Byte) (h : a' ≠ a) : (write m a b).read a' = m.read a' := by
  induction m with
  | nil => simp [write, read, h.symm]
  | cons c m ih =>
    simp only [write]
    split
    · simp [read, h.symm]
    · split
      · rename_i h₁ h₂
        have : c.1 ≠ a' := fun hc => h (by omega)
        simp [read, h.symm, this]
      · simp [read, ih]

/-- A read after a write to any address. -/
theorem read_write (m : Memory) (a a' : Nat) (b : Byte) :
    (write m a b).read a' = if a' = a then some b else m.read a' := by
  split
  · rename_i h; rw [h, read_write_same]
  · rename_i h; exact read_write_other m b h

/-- The cells after a write: the new one, or one from before. -/
theorem mem_write {m : Memory} {a : Nat} {b : Byte} {c : Host.Cell} (h : c ∈ write m a b) : c = (a, b) ∨ c ∈ m := by
  induction m with
  | nil => simpa [write] using h
  | cons d m ih =>
    simp only [write] at h
    split at h
    · simpa using h
    · split at h
      · simp only [List.mem_cons] at h ⊢; tauto
      · simp only [List.mem_cons] at h ⊢
        rcases h with h | h
        · exact .inr (.inl h)
        · rcases ih h with h | h
          · exact .inl h
          · exact .inr (.inr h)

theorem wf_nil : wf [] := List.Pairwise.nil

/-- A write keeps the canonical form. -/
theorem wf_write {m : Memory} (h : wf m) (a : Nat) (b : Byte) : wf (write m a b) := by
  induction m with
  | nil => simp [write, wf]
  | cons c m ih =>
    have hc : ∀ d ∈ m, c.1 < d.1 := (List.pairwise_cons.1 h).1
    have hm : wf m := (List.pairwise_cons.1 h).2
    simp only [write]
    split
    · rename_i h₁
      refine List.pairwise_cons.2 ⟨fun d hd => ?_, h⟩
      rcases List.mem_cons.1 hd with rfl | hd
      · exact h₁
      · exact h₁.trans (hc d hd)
    · split
      · rename_i h₂
        exact List.pairwise_cons.2 ⟨fun d hd => h₂ ▸ hc d hd, hm⟩
      · rename_i h₁ h₂
        refine List.pairwise_cons.2 ⟨fun d hd => ?_, ih hm⟩
        rcases mem_write hd with rfl | hd
        · show c.1 < a; omega
        · exact hc d hd

/-- A listed byte of a canonical memory is what its address reads as. -/
theorem read_of_mem {m : Memory} (h : wf m) {c : Host.Cell} (hc : c ∈ m) : m.read c.1 = some c.2 := by
  induction m with
  | nil => simp at hc
  | cons d m ih =>
    have hd : ∀ e ∈ m, d.1 < e.1 := (List.pairwise_cons.1 h).1
    rcases List.mem_cons.1 hc with rfl | hc
    · simp [read]
    · have : d.1 ≠ c.1 := (hd c hc).ne
      simp [read, this, ih (List.pairwise_cons.1 h).2 hc]

/-- What reads as a byte is listed. -/
theorem mem_of_read {m : Memory} {a : Nat} {b : Byte} (h : m.read a = some b) : (a, b) ∈ m := by
  induction m with
  | nil => simp at h
  | cons c m ih =>
    simp only [read] at h
    split at h
    · rename_i hc
      have : c = (a, b) := by cases c; simp_all
      simp [this]
    · exact List.mem_cons_of_mem _ (ih h)

/-! ### Byte strings -/

@[simp] theorem writeBytes_nil (m : Memory) (a : Nat) : writeBytes m a [] = m := rfl

theorem wf_writeBytes {m : Memory} (h : wf m) (a : Nat) (s : Bytes) : wf (writeBytes m a s) := by
  induction s generalizing m a with
  | nil => exact h
  | cons b s ih => exact ih (wf_write h a b) (a + 1)

/-- Every cell after `MemWrite(a, s)` is a cell from before or lies in `[a, a + |s|)`. -/
theorem mem_writeBytes {m : Memory} {a : Nat} {s : Bytes} {c : Host.Cell} (h : c ∈ writeBytes m a s) :
    c ∈ m ∨ (a ≤ c.1 ∧ c.1 < a + s.length) := by
  induction s generalizing m a with
  | nil => exact .inl h
  | cons b s ih =>
    rcases ih h with h | h
    · rcases mem_write h with rfl | h
      · exact .inr ⟨le_refl _, by simp⟩
      · exact .inl h
    · exact .inr (by simp only [List.length_cons]; omega)

/-- A read after `MemWrite(a, s)`: inside `[a, a + |s|)` the string, outside what was there. -/
theorem read_writeBytes (m : Memory) (a : Nat) (s : Bytes) (a' : Nat) :
    (writeBytes m a s).read a' = if a ≤ a' ∧ a' < a + s.length then s[a' - a]? else m.read a' := by
  induction s generalizing m a with
  | nil =>
    rw [writeBytes_nil, if_neg (by simp)]
  | cons b s ih =>
    simp only [writeBytes, ih, read_write, List.length_cons]
    rcases lt_trichotomy a' a with h | h | h
    · rw [if_neg (by omega), if_neg (by omega), if_neg (by omega)]
    · subst h
      rw [if_neg (by omega), if_pos rfl, if_pos (by omega)]
      simp
    · have ha : a' - a = (a' - (a + 1)) + 1 := by omega
      by_cases hs : a' < a + 1 + s.length
      · rw [if_pos (by omega), if_pos (by omega), ha, List.getElem?_cons_succ]
      · rw [if_neg (by omega), if_neg (by omega), if_neg (by omega)]

/-- `MemRead(a, n)` has `n` bytes. -/
theorem length_readBytes {m : Memory} {a n : Nat} {s : Bytes} (h : readBytes m a n = some s) : s.length = n := by
  induction n generalizing a s with
  | zero => simp only [readBytes, Option.some.injEq] at h; simp [← h]
  | succ n ih =>
    simp only [readBytes] at h
    split at h
    · simp at h
    · simp only [Option.map_eq_some_iff] at h
      obtain ⟨t, ht, rfl⟩ := h
      simp [ih ht]

/-- `MemRead(a, n)` is the string `s` exactly when byte `i` reads as `s[i]` for every `i`. -/
theorem readBytes_eq_some {m : Memory} {a n : Nat} {s : Bytes} :
    readBytes m a n = some s ↔ s.length = n ∧ ∀ i, i < n → m.read (a + i) = s[i]? := by
  induction n generalizing a s with
  | zero => simp [readBytes, @eq_comm _ ([] : Bytes)]
  | succ n ih =>
    simp only [readBytes]
    constructor
    · intro h
      split at h
      · simp at h
      · rename_i b hb
        simp only [Option.map_eq_some_iff] at h
        obtain ⟨t, ht, rfl⟩ := h
        obtain ⟨hl, hr⟩ := ih.1 ht
        refine ⟨by simp [hl], fun i hi => ?_⟩
        rcases i with _ | i
        · simpa using hb
        · rw [List.getElem?_cons_succ, ← hr i (by omega)]; congr 1; omega
    · rintro ⟨hl, hr⟩
      rcases s with _ | ⟨b, t⟩
      · simp at hl
      · have hb : m.read a = some b := by simpa using hr 0 (by omega)
        rw [hb]
        simp only [Option.map_eq_some_iff]
        refine ⟨t, ih.2 ⟨by simpa using hl, fun i hi => ?_⟩, rfl⟩
        have := hr (i + 1) (by omega)
        rw [List.getElem?_cons_succ] at this
        rw [← this]; congr 1; omega

/-- What was written is read back. -/
theorem readBytes_writeBytes (m : Memory) (a : Nat) (s : Bytes) : readBytes (writeBytes m a s) a s.length = some s := by
  rw [readBytes_eq_some]
  refine ⟨rfl, fun i hi => ?_⟩
  rw [read_writeBytes, if_pos (by omega)]
  congr 1; omega

/-- `MemRead(a, n)` depends only on the bytes in `[a, a + n)`. -/
theorem readBytes_congr {m m' : Memory} {a n : Nat} (h : ∀ i, i < n → m'.read (a + i) = m.read (a + i)) :
    readBytes m' a n = readBytes m a n := by
  induction n generalizing a with
  | zero => rfl
  | succ n ih =>
    have h0 : m'.read a = m.read a := by simpa using h 0 (by omega)
    have h1 : readBytes m' (a + 1) n = readBytes m (a + 1) n :=
      ih fun i hi => by have := h (i + 1) (by omega); rwa [show a + (i + 1) = a + 1 + i by omega] at this
    simp only [readBytes, h0, h1]

/-- `MemRead(a, n)` fails exactly when a byte of the range is unwritten. -/
theorem readBytes_eq_none {m : Memory} {a n : Nat} :
    readBytes m a n = none ↔ ∃ i, i < n ∧ m.read (a + i) = none := by
  induction n generalizing a with
  | zero => simp [readBytes]
  | succ n ih =>
    simp only [readBytes]
    constructor
    · intro h
      split at h
      · rename_i h0; exact ⟨0, by omega, by simpa using h0⟩
      · simp only [Option.map_eq_none_iff] at h
        obtain ⟨i, hi, hr⟩ := ih.1 h
        exact ⟨i + 1, by omega, by rw [← hr]; congr 1; omega⟩
    · rintro ⟨i, hi, hr⟩
      split
      · rfl
      · rename_i b hb
        simp only [Option.map_eq_none_iff]
        rcases i with _ | i
        · simp [hb] at hr
        · exact ih.2 ⟨i, by omega, by rw [← hr]; congr 1; omega⟩

end Sys2Proof.Machine.Memory

namespace Sys2Proof.Machine

@[simp] theorem length_freeBytes (n k : Nat) : (freeBytes n k).length = k := by simp [freeBytes]

/-- MEM after reset is in canonical form. -/
theorem State.resetWith_mem_wf (p : Params) : (State.resetWith p).mem.wf := Memory.wf_nil

theorem State.reset_mem_wf : State.reset.mem.wf := Memory.wf_nil

end Sys2Proof.Machine
end

