-- ==== Sys2Proof/Laws/State.lean ====
section
/-! SUPPORT. What each update of the state leaves in each field: one lemma per field per update, so that no proof unfolds a
record update. -/

namespace Sys2Proof.Machine

variable (s : State)

/-! ### `State.completeOk` -/

@[simp] theorem State.completeOk_cfg (r : Success) : (s.completeOk r).cfg = s.cfg := rfl
@[simp] theorem State.completeOk_ie (r : Success) : (s.completeOk r).ie = s.ie := rfl
@[simp] theorem State.completeOk_cmd (r : Success) : (s.completeOk r).cmd = s.cmd := rfl
@[simp] theorem State.completeOk_status (r : Success) :
    (s.completeOk r).status = ⟨false, true, s.status.drop, r.szmis, none, r.tv, r.cv⟩ := rfl
@[simp] theorem State.completeOk_ops (r : Success) : (s.completeOk r).ops = s.ops := rfl
@[simp] theorem State.completeOk_res (r : Success) : (s.completeOk r).res = r.res := rfl
@[simp] theorem State.completeOk_latch (r : Success) : (s.completeOk r).latch = s.latch := rfl
@[simp] theorem State.completeOk_tree (r : Success) : (s.completeOk r).tree = r.tree := rfl
@[simp] theorem State.completeOk_ct (r : Success) : (s.completeOk r).ct = r.ct := rfl
@[simp] theorem State.completeOk_mem (r : Success) : (s.completeOk r).mem = s.mem.writeBytes s.latch.ops.dst r.out := rfl
@[simp] theorem State.completeOk_host (r : Success) : (s.completeOk r).host = s.host := rfl
@[simp] theorem State.completeOk_turns (r : Success) : (s.completeOk r).turns = s.turns := rfl
@[simp] theorem State.completeOk_replies (r : Success) : (s.completeOk r).replies = s.replies := rfl
@[simp] theorem State.completeOk_draws (r : Success) : (s.completeOk r).draws = s.draws := rfl
@[simp] theorem State.completeOk_epoch (r : Success) : (s.completeOk r).epoch = s.epoch := rfl

/-! ### `State.spoilDst` -/

@[simp] theorem State.spoilDst_cfg : (s.spoilDst).cfg = s.cfg := rfl
@[simp] theorem State.spoilDst_ie : (s.spoilDst).ie = s.ie := rfl
@[simp] theorem State.spoilDst_cmd : (s.spoilDst).cmd = s.cmd := rfl
@[simp] theorem State.spoilDst_status : (s.spoilDst).status = s.status := rfl
@[simp] theorem State.spoilDst_ops : (s.spoilDst).ops = s.ops := rfl
@[simp] theorem State.spoilDst_res : (s.spoilDst).res = s.res := rfl
@[simp] theorem State.spoilDst_latch : (s.spoilDst).latch = s.latch := rfl
@[simp] theorem State.spoilDst_tree : (s.spoilDst).tree = s.tree := rfl
@[simp] theorem State.spoilDst_ct : (s.spoilDst).ct = s.ct := rfl
@[simp] theorem State.spoilDst_mem :
    (s.spoilDst).mem = s.mem.writeBytes s.latch.ops.dst (freeBytes s.draws s.latch.ops.cap) := rfl
@[simp] theorem State.spoilDst_host : (s.spoilDst).host = s.host := rfl
@[simp] theorem State.spoilDst_turns : (s.spoilDst).turns = s.turns := rfl
@[simp] theorem State.spoilDst_replies : (s.spoilDst).replies = s.replies := rfl
@[simp] theorem State.spoilDst_draws : (s.spoilDst).draws = s.draws + s.latch.ops.cap := rfl
@[simp] theorem State.spoilDst_epoch : (s.spoilDst).epoch = s.epoch := rfl

/-! ### `State.completeErr` -/

@[simp] theorem State.completeErr_cfg (d : Bool) (e : Err) (f : ErrFlags) : (s.completeErr d e f).cfg = s.cfg := by
  unfold State.completeErr; split <;> rfl
@[simp] theorem State.completeErr_ie (d : Bool) (e : Err) (f : ErrFlags) : (s.completeErr d e f).ie = s.ie := by
  unfold State.completeErr; split <;> rfl
@[simp] theorem State.completeErr_cmd (d : Bool) (e : Err) (f : ErrFlags) : (s.completeErr d e f).cmd = s.cmd := by
  unfold State.completeErr; split <;> rfl
@[simp] theorem State.completeErr_status (d : Bool) (e : Err) (f : ErrFlags) :
    (s.completeErr d e f).status = ⟨false, true, s.status.drop, false, some e, f.tv, f.cv⟩ := rfl
@[simp] theorem State.completeErr_ops (d : Bool) (e : Err) (f : ErrFlags) : (s.completeErr d e f).ops = s.ops := by
  unfold State.completeErr; split <;> rfl
@[simp] theorem State.completeErr_res (d : Bool) (e : Err) (f : ErrFlags) :
    (s.completeErr d e f).res = ResultRegs.zero := rfl
@[simp] theorem State.completeErr_latch (d : Bool) (e : Err) (f : ErrFlags) : (s.completeErr d e f).latch = s.latch := by
  unfold State.completeErr; split <;> rfl
@[simp] theorem State.completeErr_tree (d : Bool) (e : Err) (f : ErrFlags) : (s.completeErr d e f).tree = s.tree := by
  unfold State.completeErr; split <;> rfl
@[simp] theorem State.completeErr_ct (d : Bool) (e : Err) (f : ErrFlags) : (s.completeErr d e f).ct = s.ct := by
  unfold State.completeErr; split <;> rfl
@[simp] theorem State.completeErr_mem (d : Bool) (e : Err) (f : ErrFlags) :
    (s.completeErr d e f).mem = if d && e.spoilsDst then s.spoilDst.mem else s.mem := by
  unfold State.completeErr; split <;> rfl
@[simp] theorem State.completeErr_host (d : Bool) (e : Err) (f : ErrFlags) : (s.completeErr d e f).host = s.host := by
  unfold State.completeErr; split <;> rfl
@[simp] theorem State.completeErr_turns (d : Bool) (e : Err) (f : ErrFlags) : (s.completeErr d e f).turns = s.turns := by
  unfold State.completeErr; split <;> rfl
@[simp] theorem State.completeErr_replies (d : Bool) (e : Err) (f : ErrFlags) :
    (s.completeErr d e f).replies = s.replies := by
  unfold State.completeErr; split <;> rfl
@[simp] theorem State.completeErr_draws (d : Bool) (e : Err) (f : ErrFlags) :
    (s.completeErr d e f).draws = if d && e.spoilsDst then s.spoilDst.draws else s.draws := by
  unfold State.completeErr; split <;> rfl
@[simp] theorem State.completeErr_epoch (d : Bool) (e : Err) (f : ErrFlags) : (s.completeErr d e f).epoch = s.epoch := by
  unfold State.completeErr; split <;> rfl

/-! ### `State.issue` -/

@[simp] theorem State.issue_cfg (v : Word) : (s.issue v).cfg = s.cfg := rfl
@[simp] theorem State.issue_ie (v : Word) : (s.issue v).ie = s.ie := rfl
@[simp] theorem State.issue_cmd (v : Word) : (s.issue v).cmd = v := rfl
@[simp] theorem State.issue_status (v : Word) :
    (s.issue v).status = ⟨true, false, s.status.drop, false, none, s.status.tv, s.status.cv⟩ := rfl
@[simp] theorem State.issue_ops (v : Word) : (s.issue v).ops = s.ops := rfl
@[simp] theorem State.issue_res (v : Word) : (s.issue v).res = s.res := rfl
@[simp] theorem State.issue_latch (v : Word) : (s.issue v).latch = ⟨v, s.ops⟩ := rfl
@[simp] theorem State.issue_tree (v : Word) : (s.issue v).tree = s.tree := rfl
@[simp] theorem State.issue_ct (v : Word) : (s.issue v).ct = s.ct := rfl
@[simp] theorem State.issue_mem (v : Word) : (s.issue v).mem = s.mem := rfl
@[simp] theorem State.issue_host (v : Word) : (s.issue v).host = s.host := rfl
@[simp] theorem State.issue_turns (v : Word) : (s.issue v).turns = s.turns := rfl
@[simp] theorem State.issue_replies (v : Word) : (s.issue v).replies = s.replies := rfl
@[simp] theorem State.issue_draws (v : Word) : (s.issue v).draws = s.draws := rfl
@[simp] theorem State.issue_epoch (v : Word) : (s.issue v).epoch = s.epoch := rfl

/-! ### `State.dropWrite` -/

@[simp] theorem State.dropWrite_cfg : (s.dropWrite).cfg = s.cfg := rfl
@[simp] theorem State.dropWrite_ie : (s.dropWrite).ie = s.ie := rfl
@[simp] theorem State.dropWrite_cmd : (s.dropWrite).cmd = s.cmd := rfl
@[simp] theorem State.dropWrite_status : (s.dropWrite).status = { s.status with drop := true } := rfl
@[simp] theorem State.dropWrite_ops : (s.dropWrite).ops = s.ops := rfl
@[simp] theorem State.dropWrite_res : (s.dropWrite).res = s.res := rfl
@[simp] theorem State.dropWrite_latch : (s.dropWrite).latch = s.latch := rfl
@[simp] theorem State.dropWrite_tree : (s.dropWrite).tree = s.tree := rfl
@[simp] theorem State.dropWrite_ct : (s.dropWrite).ct = s.ct := rfl
@[simp] theorem State.dropWrite_mem : (s.dropWrite).mem = s.mem := rfl
@[simp] theorem State.dropWrite_host : (s.dropWrite).host = s.host := rfl
@[simp] theorem State.dropWrite_turns : (s.dropWrite).turns = s.turns := rfl
@[simp] theorem State.dropWrite_replies : (s.dropWrite).replies = s.replies := rfl
@[simp] theorem State.dropWrite_draws : (s.dropWrite).draws = s.draws := rfl
@[simp] theorem State.dropWrite_epoch : (s.dropWrite).epoch = s.epoch := rfl

/-! ### `State.reply` -/

@[simp] theorem State.reply_cfg (r : Reply) : (s.reply r).cfg = s.cfg := rfl
@[simp] theorem State.reply_ie (r : Reply) : (s.reply r).ie = s.ie := rfl
@[simp] theorem State.reply_cmd (r : Reply) : (s.reply r).cmd = s.cmd := rfl
@[simp] theorem State.reply_status (r : Reply) : (s.reply r).status = s.status := rfl
@[simp] theorem State.reply_ops (r : Reply) : (s.reply r).ops = s.ops := rfl
@[simp] theorem State.reply_res (r : Reply) : (s.reply r).res = s.res := rfl
@[simp] theorem State.reply_latch (r : Reply) : (s.reply r).latch = s.latch := rfl
@[simp] theorem State.reply_tree (r : Reply) : (s.reply r).tree = s.tree := rfl
@[simp] theorem State.reply_ct (r : Reply) : (s.reply r).ct = s.ct := rfl
@[simp] theorem State.reply_mem (r : Reply) : (s.reply r).mem = s.mem := rfl
@[simp] theorem State.reply_host (r : Reply) : (s.reply r).host = s.host := rfl
@[simp] theorem State.reply_turns (r : Reply) : (s.reply r).turns = s.turns := rfl
@[simp] theorem State.reply_replies (r : Reply) : (s.reply r).replies = r :: s.replies := rfl
@[simp] theorem State.reply_draws (r : Reply) : (s.reply r).draws = s.draws := rfl
@[simp] theorem State.reply_epoch (r : Reply) : (s.reply r).epoch = s.epoch := rfl

/-! ### `State.resetEvent` -/

@[simp] theorem State.resetEvent_cfg : (s.resetEvent).cfg = s.cfg := rfl
@[simp] theorem State.resetEvent_ie : (s.resetEvent).ie = false := rfl
@[simp] theorem State.resetEvent_cmd : (s.resetEvent).cmd = 0 := rfl
@[simp] theorem State.resetEvent_status : (s.resetEvent).status = Status.reset := rfl
@[simp] theorem State.resetEvent_ops : (s.resetEvent).ops = OperandRegs.reset := rfl
@[simp] theorem State.resetEvent_res : (s.resetEvent).res = ResultRegs.zero := rfl
@[simp] theorem State.resetEvent_latch : (s.resetEvent).latch = ⟨0, OperandRegs.reset⟩ := rfl
@[simp] theorem State.resetEvent_tree : (s.resetEvent).tree = none := rfl
@[simp] theorem State.resetEvent_ct : (s.resetEvent).ct = [] := rfl
@[simp] theorem State.resetEvent_mem : (s.resetEvent).mem = [] := rfl
@[simp] theorem State.resetEvent_host : (s.resetEvent).host = s.host := rfl
@[simp] theorem State.resetEvent_turns : (s.resetEvent).turns = s.turns := rfl
@[simp] theorem State.resetEvent_replies : (s.resetEvent).replies = s.replies := rfl
@[simp] theorem State.resetEvent_draws : (s.resetEvent).draws = s.draws := rfl
@[simp] theorem State.resetEvent_epoch : (s.resetEvent).epoch = s.epoch + 1 := rfl

end Sys2Proof.Machine
end

