-- ==== Sys2Proof/Laws/Ops.lean ====
section
/-! SUPPORT. What the shared operations can do, said once: `need`, the checks, `State.run` (60_exceptions.md R406), and
every command as one `State.run`. -/

namespace Sys2Proof.Machine

/-! ### `need` and `Except` -/

@[simp] theorem need_eq_ok {c : Bool} {e : Err} {u : Unit} : need c e = .ok u ↔ c = true := by
  cases c <;> simp [need]

@[simp] theorem need_eq_error {c : Bool} {e e' : Err} : need c e = .error e' ↔ c = false ∧ e = e' := by
  cases c <;> simp [need]

@[simp] theorem need_true (e : Err) : need true e = .ok () := rfl

@[simp] theorem need_false (e : Err) : need false e = .error e := rfl

theorem need_of_true {c : Bool} {e : Err} (h : c = true) : need c e = .ok () := need_eq_ok.2 h

theorem need_of_false {c : Bool} {e : Err} (h : c = false) : need c e = .error e := need_eq_error.2 ⟨h, rfl⟩

theorem bind_eq_ok {ε α β : Type} {x : Except ε α} {f : α → Except ε β} {b : β} :
    (x >>= f) = .ok b ↔ ∃ a, x = .ok a ∧ f a = .ok b := by
  cases x <;> simp [bind, Except.bind]

theorem bind_eq_error {ε α β : Type} {x : Except ε α} {f : α → Except ε β} {e : ε} :
    (x >>= f) = .error e ↔ x = .error e ∨ ∃ a, x = .ok a ∧ f a = .error e := by
  cases x <;> simp [bind, Except.bind]

@[simp] theorem ok_bind {ε α β : Type} (a : α) (f : α → Except ε β) : ((Except.ok a : Except ε α) >>= f) = f a := rfl

@[simp] theorem error_bind {ε α β : Type} (e : ε) (f : α → Except ε β) :
    ((Except.error e : Except ε α) >>= f) = .error e := rfl

/-! ### The checks before a command's pseudocode -/

/-- The checks of `State.run` in order: range, state, and those before the MemRead (60_exceptions.md R406). -/
def State.checks (s : State) (i : Instr) (pre : Except Err Unit) : Except Err Unit := do
  rangeCheck (portsOf i) s.latch.ops s.cfg.memSize.val
  stateCheck i s.status
  pre

/-- Everything `State.run` can answer. -/
theorem State.run_eq (s : State) (i : Instr) (onErr : Err → ErrFlags) (pre : Except Err Unit)
    (body : Bytes → Except Err Success) :
    s.run i onErr pre body =
      match s.checks i pre with
      | .error e => .next (s.completeErr (portsOf i).dst e (onErr e))
      | .ok _ =>
        match s.source (portsOf i) with
        | none => .fault .readUnwritten
        | some x => .next (s.complete (portsOf i).dst onErr (body x)) := rfl

/-- `State.run` answers a next state in one of two ways: an error completion or a success. -/
theorem State.run_next {s t : State} {i : Instr} {onErr : Err → ErrFlags} {pre : Except Err Unit}
    {body : Bytes → Except Err Success} (h : s.run i onErr pre body = .next t) :
    (∃ e, t = s.completeErr (portsOf i).dst e (onErr e) ∧
      (s.checks i pre = .error e ∨
        s.checks i pre = .ok () ∧ ∃ x, s.source (portsOf i) = some x ∧ body x = .error e)) ∨
    ∃ x r, s.checks i pre = .ok () ∧ s.source (portsOf i) = some x ∧ body x = .ok r ∧ t = s.completeOk r := by
  rw [State.run_eq] at h
  cases hc : s.checks i pre with
  | error e => simp only [hc, Host.Outcome.next.injEq] at h; exact .inl ⟨e, h.symm, .inl rfl⟩
  | ok u =>
    simp only [hc] at h
    cases hx : s.source (portsOf i) with
    | none => simp [hx] at h
    | some x =>
      simp only [hx, Host.Outcome.next.injEq] at h
      cases hb : body x with
      | error e => rw [hb] at h; exact .inl ⟨e, h.symm, .inr ⟨rfl, x, rfl, hb⟩⟩
      | ok r => rw [hb] at h; exact .inr ⟨x, r, rfl, rfl, hb, h.symm⟩

/-- `State.run` never refuses. -/
theorem State.run_not_refused (s : State) (i : Instr) (onErr : Err → ErrFlags) (pre : Except Err Unit)
    (body : Bytes → Except Err Success) (r : Refusal) : s.run i onErr pre body ≠ .refused r := by
  rw [State.run_eq]
  split
  · simp
  · split <;> simp

/-! ### Every command is one run -/

/-- TV and CV after an error of each command (10_state.md R43). -/
def execOnErr (i : Instr) (s : State) : Err → ErrFlags :=
  match i with
  | .treeBuild => fun _ => ErrFlags.cleared
  | .encode _ => fun _ => ErrFlags.cleared
  | .decode => fun _ => ErrFlags.cleared
  | .codeGen => s.codeGenErrFlags
  | .nop => fun _ => s.keptFlags
  | .rleEnc => fun _ => s.keptFlags
  | .rleDec => fun _ => s.keptFlags
  | .freq => fun _ => s.keptFlags
  | .codeQuery => fun _ => s.keptFlags
  | .pack => fun _ => s.keptFlags
  | .unpack => fun _ => s.keptFlags
  | .xor => fun _ => s.keptFlags
  | .clear => fun _ => s.keptFlags

/-- The checks of a command's pseudocode that stand before its MemRead. -/
def execPre (i : Instr) (s : State) : Except Err Unit :=
  match i with
  | .unpack => unpackChecks s.tree s.latch.ops.symbolCount s.latch.ops.validBitsArg
  | .nop => .ok ()
  | .rleEnc => .ok ()
  | .rleDec => .ok ()
  | .freq => .ok ()
  | .treeBuild => .ok ()
  | .codeGen => .ok ()
  | .codeQuery => .ok ()
  | .pack => .ok ()
  | .xor => .ok ()
  | .encode _ => .ok ()
  | .decode => .ok ()
  | .clear => .ok ()

/-- A success of a data command from its output and results. -/
def State.plainOf (s : State) (r : Except Err (Bytes × ResultRegs)) : Except Err Success :=
  r.map fun p => s.plainSuccess p.1 p.2

/-- Each command's pseudocode after its MemRead, as a function of the source bytes (00_scope.md R14). -/
def execBody (i : Instr) (s : State) (x : Bytes) : Except Err Success :=
  let o := s.latch.ops
  match i with
  | .nop => .ok (s.plainSuccess [] ResultRegs.zero)
  | .rleEnc => s.plainOf (rleEncBody o.cap x)
  | .rleDec => s.plainOf (rleDecBody o.cap x)
  | .freq => s.plainOf (freqBody o.cap x)
  | .treeBuild => (treeBuildBody x).map fun p => { s.plainSuccess [] p.2 with tree := p.1, tv := true, cv := false }
  | .codeGen =>
    (codeGenBody s.cfg.codeLenMax.val s.tree).map fun p => { s.plainSuccess [] p.2 with ct := p.1, cv := true }
  | .codeQuery => .ok (s.plainSuccess [] (codeQueryResult s.ct o.querySymbol o.queryOffset))
  | .pack => s.plainOf (packBody s.ct o.cap x)
  | .unpack => s.plainOf (unpackBody s.tree o.cap o.symbolCount o.validBitsArg x)
  | .xor => s.plainOf (xorBody o.cap o.xorKey x)
  | .encode prot => (encodeBody s.cfg o.cap prot x).map fun p => s.clearingSuccess p.1 p.2 false
  | .decode => (decodeBody s.cfg o.cap x).map fun p => s.clearingSuccess p.1 p.2.1 p.2.2
  | .clear => .ok (s.clearingSuccess [] ResultRegs.zero false)

/-- Every command is one `State.run` with its error flags, its checks and its pseudocode. -/
theorem exec_eq_run (i : Instr) (s : State) : exec i s = s.run i (execOnErr i s) (execPre i s) (execBody i s) := by
  cases i <;> rfl

/-- A command whose source bytes are all written completes with a next state. -/
theorem exec_continues {i : Instr} {s : State} (h : (s.source (portsOf i)).isSome = true) : ∃ t, exec i s = .next t := by
  rw [exec_eq_run, State.run_eq]
  obtain ⟨x, hx⟩ := Option.isSome_iff_exists.1 h
  split
  · exact ⟨_, rfl⟩
  · rw [hx]; exact ⟨_, rfl⟩

/-- A next state of a command is an error completion or a success of its pseudocode. -/
theorem exec_next {i : Instr} {s t : State} (h : exec i s = .next t) :
    (∃ e, t = s.completeErr (portsOf i).dst e (execOnErr i s e) ∧
      (s.checks i (execPre i s) = .error e ∨
        s.checks i (execPre i s) = .ok () ∧ ∃ x, s.source (portsOf i) = some x ∧ execBody i s x = .error e)) ∨
    ∃ x r, s.checks i (execPre i s) = .ok () ∧ s.source (portsOf i) = some x ∧ execBody i s x = .ok r ∧
      t = s.completeOk r := by
  rw [exec_eq_run] at h
  exact State.run_next h

/-- The only stop of a command is the read of an unwritten byte. -/
theorem exec_stop (i : Instr) (s : State) :
    (∃ t, exec i s = .next t) ∨ exec i s = .fault .readUnwritten ∧ s.source (portsOf i) = none := by
  cases h : s.source (portsOf i) with
  | some x => exact .inl (exec_continues (by simp [h]))
  | none =>
    rw [exec_eq_run, State.run_eq, h]
    split
    · exact .inl ⟨_, rfl⟩
    · exact .inr ⟨rfl, rfl⟩

/-! ### The range and state checks -/

/-- The range check passes exactly when the ranges lie in MEM and do not overlap but for XOR in place (60_exceptions.md R404). -/
theorem rangeCheck_eq_ok {p : Ports} {o : OperandRegs} {n : Nat} :
    rangeCheck p o n = .ok () ↔
      (p.src = true → o.src + o.len ≤ n) ∧ (p.dst = true → o.dst + o.cap ≤ n) ∧
        (p.src = true → p.dst = true → o.overlap = true → p.inPlace = true ∧ o.srcAddr = o.dstAddr) := by
  rcases p with ⟨_ | _, _ | _, ip⟩ <;> simp [rangeCheck, Bool.or_eq_true, and_assoc]
  all_goals cases o.overlap <;> simp

/-- The range check's only error is RANGE. -/
theorem rangeCheck_error {p : Ports} {o : OperandRegs} {n : Nat} {e : Err} (h : rangeCheck p o n = .error e) :
    e = .range := by
  simp only [rangeCheck, need_eq_error] at h; exact h.2.symm

/-- The state check's only error is STATE. -/
theorem stateCheck_error {i : Instr} {st : Status} {e : Err} (h : stateCheck i st = .error e) : e = .state := by
  cases i <;> simp [stateCheck] at h <;> exact h.2.symm

end Sys2Proof.Machine
end

