-- ==== Sys2Proof/Laws/Formats.lean ====
section
/-! SUPPORT. The laws of the data formats: little-endian fields read back (00_scope.md R12), symbols and pairs (30_encoding.md
R105, 40_rle.md R152), table entries (R106), packed bits (R107, R108) and the bit limit (R109). -/

namespace Sys2Proof.Machine

/-! ### Little-endian fields -/

@[simp] theorem length_leBytes (k v : Nat) : (leBytes k v).length = k := by
  induction k generalizing v with
  | zero => rfl
  | succ k ih => simp [leBytes, ih]

/-- The model's fields are those of 00_scope.md R12 in plain terms. -/
theorem leField_eq (k v : Nat) : leField k v = leBytes k v := by
  induction k generalizing v with
  | zero => rfl
  | succ k ih =>
    rw [leBytes, ← ih, leField, leField, List.range_succ_eq_map, List.map_cons, List.map_map]
    congr 1
    · apply BitVec.eq_of_toNat_eq; simp
    · refine List.map_congr_left fun i _ => ?_
      simp [Nat.pow_succ', Nat.div_div_eq_div_mul]

theorem fromLe_leBytes (k v : Nat) : fromLe (leBytes k v) = v % 256 ^ k := by
  induction k generalizing v with
  | zero => simp [leBytes, fromLe, Nat.mod_one]
  | succ k ih =>
    have h : v % 256 ^ (k + 1) = v % 256 + 256 * (v / 256 % 256 ^ k) := by
      rw [Nat.pow_succ (n := 256), Nat.mul_comm (256 ^ k) 256, Nat.mod_mul]
    rw [leBytes, fromLe, ih, BitVec.toNat_ofNat, h]

/-- A field that fits reads back. -/
theorem fromLe_leBytes_of_lt {k v : Nat} (h : v < 256 ^ k) : fromLe (leBytes k v) = v := by
  rw [fromLe_leBytes, Nat.mod_eq_of_lt h]

theorem fromLe_lt (s : Bytes) : fromLe s < 256 ^ s.length := by
  induction s with
  | nil => simp [fromLe]
  | cons b s ih =>
    have := b.isLt
    simp only [fromLe, List.length_cons, pow_succ]
    omega

/-- Every byte string is the field of its value. -/
theorem leBytes_fromLe (s : Bytes) : leBytes s.length (fromLe s) = s := by
  induction s with
  | nil => rfl
  | cons b s ih =>
    have hb := b.isLt
    have h1 : (b.toNat + 256 * fromLe s) / 256 = fromLe s := by omega
    have h2 : BitVec.ofNat 8 (b.toNat + 256 * fromLe s) = b := by
      apply BitVec.eq_of_toNat_eq
      simp only [BitVec.toNat_ofNat]
      omega
    simp only [List.length_cons, leBytes, fromLe, h1, h2, ih]

theorem leBytes_mod (k v : Nat) : leBytes k (v % 256 ^ k) = leBytes k v := by
  have h := leBytes_fromLe (leBytes k v)
  rwa [length_leBytes, fromLe_leBytes] at h

/-- The signed 32-bit field of a count is its plain field. -/
theorem sle32_natCast (n : Nat) : sle32 n = leBytes 4 n := by
  have : ((n : Int) % 2 ^ 32).toNat = n % 256 ^ 4 := by
    norm_num
    omega
  rw [sle32, this, leBytes_mod]

theorem fromSle32_leBytes {n : Nat} (h : n < 2 ^ 31) : fromSle32 (leBytes 4 n) = n := by
  rw [fromSle32, fromLe_leBytes_of_lt (by omega), if_pos h]

/-! ### Symbols and pairs -/

@[simp] theorem runOf_sym (p : Pair) : runOf p.sym = p.run := by
  apply BitVec.eq_of_toNat_eq
  have := p.val.isLt
  have := p.run.isLt
  simp only [runOf, Pair.sym, BitVec.extractLsb'_toNat, BitVec.toNat_append]
  rw [Nat.shiftLeft_eq, Nat.shiftRight_eq_div_pow, Nat.or_comm, Nat.mul_comm, Nat.or_comm, ← Nat.two_pow_add_eq_or_of_lt p.val.isLt]
  omega

@[simp] theorem bytevalOf_sym (p : Pair) : bytevalOf p.sym = p.val := by
  apply BitVec.eq_of_toNat_eq
  have := p.val.isLt
  simp only [bytevalOf, Pair.sym, BitVec.extractLsb'_toNat, BitVec.toNat_append]
  rw [Nat.shiftLeft_eq, Nat.shiftRight_zero, Nat.mul_comm, ← Nat.two_pow_add_eq_or_of_lt p.val.isLt]
  omega

theorem sym_toNat (p : Pair) : p.sym.toNat = 256 * p.run.toNat + p.val.toNat := by
  simp only [Pair.sym, BitVec.toNat_append]
  rw [Nat.shiftLeft_eq, Nat.mul_comm, ← Nat.two_pow_add_eq_or_of_lt p.val.isLt]

theorem sym_eq_iff {p q : Pair} : p.sym = q.sym ↔ p = q := by
  constructor
  · intro h
    have h1 := congrArg runOf h
    have h2 := congrArg bytevalOf h
    rw [runOf_sym, runOf_sym] at h1
    rw [bytevalOf_sym, bytevalOf_sym] at h2
    cases p; cases q; simp_all
  · rintro rfl; rfl

/-- A pair's two bytes: the byte value first, then the run length (30_encoding.md R105). -/
@[simp] theorem symBytes_sym (p : Pair) : symBytes p.sym = [p.val, p.run] := by
  have h1 := p.val.isLt
  have h2 := p.run.isLt
  simp only [symBytes, leBytes, sym_toNat]
  congr 1
  · apply BitVec.eq_of_toNat_eq; simp only [BitVec.toNat_ofNat]; omega
  · congr 1
    apply BitVec.eq_of_toNat_eq; simp only [BitVec.toNat_ofNat]; omega

theorem pairBytes_eq (ps : List Pair) : pairBytes ps = ps.flatMap fun p => [p.val, p.run] := by
  simp [pairBytes]

@[simp] theorem length_pairBytes (ps : List Pair) : (pairBytes ps).length = 2 * ps.length := by
  induction ps with
  | nil => rfl
  | cons p ps ih =>
    have : pairBytes (p :: ps) = symBytes p.sym ++ pairBytes ps := by simp [pairBytes]
    rw [this, List.length_append, ih, symBytes_sym, List.length_cons]
    simp; omega

@[simp] theorem pairsOf_pairBytes (ps : List Pair) : pairsOf (pairBytes ps) = ps := by
  induction ps with
  | nil => rfl
  | cons p ps ih =>
    have : pairBytes (p :: ps) = p.val :: p.run :: pairBytes ps := by simp [pairBytes]
    rw [this, pairsOf, ih]

/-- Every byte string of even length is a pair stream. -/
theorem pairBytes_pairsOf : ∀ {x : Bytes}, x.length % 2 = 0 → pairBytes (pairsOf x) = x
  | [], _ => rfl
  | [_], h => by simp at h
  | b :: r :: s, h => by
    have ih := pairBytes_pairsOf (x := s) (by simp only [List.length_cons] at h; omega)
    have : pairBytes (pairsOf (b :: r :: s)) = b :: r :: pairBytes (pairsOf s) := by simp [pairsOf, pairBytes]
    rw [this, ih]

theorem length_pairsOf {x : Bytes} (h : x.length % 2 = 0) : (pairsOf x).length = x.length / 2 := by
  have := congrArg List.length (pairBytes_pairsOf h)
  rw [length_pairBytes] at this
  omega

/-! ### Table entries -/

@[simp] theorem Entry.length_toBytes (e : Entry) : e.toBytes.length = 10 := by simp [Entry.toBytes]

@[simp] theorem length_tableBytes (es : List Entry) : (tableBytes es).length = 10 * es.length := by
  induction es with
  | nil => rfl
  | cons e es ih => simp only [tableBytes, List.flatMap_cons, List.length_append, List.length_cons] at *; simp; omega

/-- An entry's ten bytes read back. -/
@[simp] theorem entryOf_toBytes (e : Entry) : entryOf e.toBytes = e := by
  have h1 := e.sym.isLt
  have h2 := e.cnt.isLt
  simp only [entryOf, Entry.toBytes]
  rw [List.take_left' (by simp), List.drop_left' (by simp), List.take_of_length_le (by simp),
    fromLe_leBytes_of_lt (by omega), fromLe_leBytes_of_lt (by omega)]
  simp

theorem toBytes_entryOf {s : Bytes} (h : s.length = 10) : (entryOf s).toBytes = s := by
  have h2 : (s.take 2).length = 2 := by simp [h]
  have h8 : ((s.drop 2).take 8).length = 8 := by simp [h]
  have e2 := leBytes_fromLe (s.take 2)
  have e8 := leBytes_fromLe ((s.drop 2).take 8)
  have l2 := fromLe_lt (s.take 2)
  have l8 := fromLe_lt ((s.drop 2).take 8)
  rw [h2] at e2 l2
  rw [h8] at e8 l8
  simp only [entryOf, Entry.toBytes, BitVec.toNat_ofNat]
  rw [Nat.mod_eq_of_lt (by simpa using l2), Nat.mod_eq_of_lt (by simpa using l8), e2, e8,
    List.take_of_length_le (by simp [h] : (s.drop 2).length ≤ 8), List.take_append_drop]

@[simp] theorem tableBytes_cons (e : Entry) (es : List Entry) : tableBytes (e :: es) = e.toBytes ++ tableBytes es := by
  simp [tableBytes]

theorem entryField_eq (e : Entry) : entryField e = e.toBytes := by simp [entryField, Entry.toBytes, leField_eq]

theorem tableField_eq (es : List Entry) : tableField es = tableBytes es := by
  rw [tableField, tableBytes, funext entryField_eq]

/-- A table's entries read back. -/
theorem entriesOf_tableBytes (es : List Entry) : entriesOf es.length (tableBytes es) = es := by
  induction es with
  | nil => rfl
  | cons e es ih =>
    simp only [List.length_cons, entriesOf, tableBytes_cons]
    rw [List.take_left' (by simp), List.drop_left' (by simp), ih, entryOf_toBytes]

theorem length_entriesOf (n : Nat) (s : Bytes) : (entriesOf n s).length = n := by
  induction n generalizing s with
  | zero => rfl
  | succ n ih => simp [entriesOf, ih]

/-- Every byte string whose length is a multiple of 10 is a table. -/
theorem tableBytes_entriesOf {n : Nat} {s : Bytes} (h : s.length = 10 * n) : tableBytes (entriesOf n s) = s := by
  induction n generalizing s with
  | zero => simp at h; simp [entriesOf, tableBytes, h]
  | succ n ih =>
    rw [entriesOf, tableBytes_cons, toBytes_entryOf (by simp [h]), ih (by simp [h]; omega), List.take_append_drop]

/-! ### Packed bits -/

theorem bits_sum_testBit : ∀ b0 b1 b2 b3 b4 b5 b6 b7 : Bool, ∀ t < 8,
    (BitVec.ofNat 8 ([b0.toNat * 2 ^ 7, b1.toNat * 2 ^ 6, b2.toNat * 2 ^ 5, b3.toNat * 2 ^ 4, b4.toNat * 2 ^ 3,
      b5.toNat * 2 ^ 2, b6.toNat * 2 ^ 1, b7.toNat * 2 ^ 0].sum)).getLsbD (7 - t) =
      [b0, b1, b2, b3, b4, b5, b6, b7].getD t false := by decide

/-- Bit 7 - t of byte j of the payload is stream bit 8j + t. -/
theorem packedByte_bit (bits : BitString) (j : Nat) {t : Nat} (ht : t < 8) :
    (packedByte bits j).getLsbD (7 - t) = bits.getD (8 * j + t) false := by
  have h := bits_sum_testBit (bits.getD (8 * j + 0) false) (bits.getD (8 * j + 1) false) (bits.getD (8 * j + 2) false)
    (bits.getD (8 * j + 3) false) (bits.getD (8 * j + 4) false) (bits.getD (8 * j + 5) false)
    (bits.getD (8 * j + 6) false) (bits.getD (8 * j + 7) false) t ht
  have e : packedByte bits j = BitVec.ofNat 8 ([(bits.getD (8 * j + 0) false).toNat * 2 ^ 7,
      (bits.getD (8 * j + 1) false).toNat * 2 ^ 6, (bits.getD (8 * j + 2) false).toNat * 2 ^ 5,
      (bits.getD (8 * j + 3) false).toNat * 2 ^ 4, (bits.getD (8 * j + 4) false).toNat * 2 ^ 3,
      (bits.getD (8 * j + 5) false).toNat * 2 ^ 2, (bits.getD (8 * j + 6) false).toNat * 2 ^ 1,
      (bits.getD (8 * j + 7) false).toNat * 2 ^ 0].sum) := rfl
  rw [e, h]
  interval_cases t <;> rfl

@[simp] theorem length_packed (bits : BitString) : (packed bits).length = ceilDiv8 bits.length := by simp [packed]

/-- The payload's stream bit `k` is bit `k` of what was packed, 0 past its end (30_encoding.md R107, R108). -/
theorem bitAt_packed_of_lt {bits : BitString} {k : Nat} (h : k < bits.length) :
    bitAt (packed bits) k = bits.getD k false := by
  have hk : k / 8 < ceilDiv8 bits.length := by rw [ceilDiv8]; omega
  have hj : (packed bits).getD (k / 8) 0 = packedByte bits (k / 8) := by
    simp [packed, List.getD, hk]
  rw [bitAt, hj, packedByte_bit bits (k / 8) (by omega)]
  congr 1; omega

end Sys2Proof.Machine
end

