-- ==== Sys2Proof/Laws/Rle.lean ====
section
/-! SUPPORT. The laws of the run scan (40_rle.md R150) and of the frequency table (R170) that the larger results cite. -/

namespace Sys2Proof.Machine

/-! ### The run scan -/

/-- Inside a run of `b` of which `r` bytes are counted, the inverse of what the scan emits is the run and the rest. -/
theorem rleInverse_rleScan (b : Byte) (r : Nat) (xs : Bytes) (h : r ≤ 255) :
    rleInverse (rleScan b r xs) = List.replicate r b ++ xs := by
  induction xs generalizing b r with
  | nil => simp [rleScan, rleInverse, Nat.mod_eq_of_lt (show r < 256 by omega)]
  | cons x xs ih =>
    simp only [rleScan]
    split
    · rename_i hx
      rw [ih b (r + 1) (by omega), hx.1, List.replicate_succ', List.append_assoc]
      rfl
    · have := ih x 1 (by omega)
      simp only [rleInverse, List.flatMap_cons] at this ⊢
      rw [this]
      simp [Nat.mod_eq_of_lt (show r < 256 by omega)]

/-- The scan emits run lengths in 1..255. -/
theorem run_of_mem_rleScan {b : Byte} {r : Nat} {xs : Bytes} {p : Pair} (h1 : 1 ≤ r) (h2 : r ≤ 255)
    (hp : p ∈ rleScan b r xs) : 1 ≤ p.run.toNat := by
  induction xs generalizing b r with
  | nil =>
    simp only [rleScan, List.mem_singleton] at hp
    subst hp
    simp [Nat.mod_eq_of_lt (show r < 256 by omega), h1]
  | cons x xs ih =>
    simp only [rleScan] at hp
    split at hp
    · exact ih (by omega) (by omega) hp
    · rcases List.mem_cons.1 hp with rfl | hp
      · simp [Nat.mod_eq_of_lt (show r < 256 by omega), h1]
      · exact ih (le_refl 1) (by omega) hp

/-- Every run length RleForward emits is at least 1. -/
theorem run_of_mem_rleForward {x : Bytes} {p : Pair} (hp : p ∈ rleForward x) : 1 ≤ p.run.toNat := by
  cases x with
  | nil => simp [rleForward] at hp
  | cons x xs => exact run_of_mem_rleScan (le_refl 1) (by omega) hp

theorem length_rleScan (b : Byte) (r : Nat) (xs : Bytes) : (rleScan b r xs).length ≤ xs.length + 1 := by
  induction xs generalizing b r with
  | nil => simp [rleScan]
  | cons x xs ih =>
    simp only [rleScan, List.length_cons]
    split
    · exact (ih b (r + 1)).trans (by omega)
    · have := ih x 1
      simp only [List.length_cons]
      omega

theorem length_rleForward (x : Bytes) : (rleForward x).length ≤ x.length := by
  cases x with
  | nil => simp [rleForward]
  | cons x xs => exact length_rleScan x 1 xs

/-! ### The frequency table -/

/-- The table before sorting: each distinct symbol with its count. -/
def countTable (syms : List Symbol) : List Entry := syms.dedup.map fun s => ⟨s, BitVec.ofNat 64 (syms.count s)⟩

theorem freqTable_perm (ps : List Pair) : (freqTable ps).Perm (countTable (ps.map Pair.sym)) :=
  List.perm_insertionSort _ _

theorem map_sym_countTable (syms : List Symbol) : (countTable syms).map Entry.sym = syms.dedup := by
  simp [countTable, Function.comp_def]

/-- The symbols of the table are those of the pairs, each once. -/
theorem freqTable_syms (ps : List Pair) : ((freqTable ps).map Entry.sym).Perm (ps.map Pair.sym).dedup := by
  have := (freqTable_perm ps).map Entry.sym
  rwa [map_sym_countTable] at this

theorem mem_freqTable_syms {ps : List Pair} {s : Symbol} :
    s ∈ (freqTable ps).map Entry.sym ↔ ∃ p ∈ ps, p.sym = s := by
  rw [(freqTable_syms ps).mem_iff, List.mem_dedup, List.mem_map]

/-- An entry of the table: a symbol of the pairs with its number of occurrences. -/
theorem mem_freqTable {ps : List Pair} {e : Entry} :
    e ∈ freqTable ps ↔ e.sym ∈ ps.map Pair.sym ∧ e.cnt = BitVec.ofNat 64 ((ps.map Pair.sym).count e.sym) := by
  rw [(freqTable_perm ps).mem_iff, countTable, List.mem_map]
  constructor
  · rintro ⟨s, hs, rfl⟩
    exact ⟨List.mem_dedup.1 hs, rfl⟩
  · rintro ⟨hs, hc⟩
    exact ⟨e.sym, List.mem_dedup.2 hs, by cases e; simp_all⟩

theorem freqTable_nodup (ps : List Pair) : ((freqTable ps).map Entry.sym).Nodup :=
  (freqTable_syms ps).nodup_iff.2 (List.nodup_dedup _)

theorem freqTable_sorted_le (ps : List Pair) : (freqTable ps).Pairwise Entry.le := by
  have : Std.Total Entry.le := ⟨fun a b => by unfold Entry.le; bv_omega⟩
  have : IsTrans Entry Entry.le := ⟨fun a b c => by unfold Entry.le; bv_omega⟩
  exact List.pairwise_insertionSort _ _

/-- Distinct symbols with run lengths in 1..255 number at most 255 x 256. -/
theorem length_le_of_nodup_runs {l : List Symbol} (hn : l.Nodup) (h : ∀ s ∈ l, 256 ≤ s.toNat) : l.length ≤ 65280 := by
  have hl : l.length = l.toFinset.card := (List.toFinset_card_of_nodup hn).symm
  have hsub : l.toFinset.image BitVec.toNat ⊆ Finset.Ico 256 65536 := by
    intro n hm
    simp only [Finset.mem_image, List.mem_toFinset] at hm
    obtain ⟨s, hs, rfl⟩ := hm
    exact Finset.mem_Ico.2 ⟨h s hs, s.isLt⟩
  have := Finset.card_le_card hsub
  rw [Finset.card_image_of_injective _ fun a b h => BitVec.eq_of_toNat_eq h] at this
  rw [hl]
  simpa using this

/-! ### The loop of RLE_DEC -/

/-- Where the runs are at least 1 and fit, the loop of RLE_DEC expands them and goes on (40_rle.md R162). -/
theorem rleDecLoop_append {cap : Nat} {ps qs : List Pair} {out : Bytes} (h1 : ∀ p ∈ ps, 1 ≤ p.run.toNat)
    (h : out.length + (rleInverse ps).length ≤ cap) :
    rleDecLoop cap (ps ++ qs) out = rleDecLoop cap qs (out ++ rleInverse ps) := by
  induction ps generalizing out with
  | nil => simp [rleInverse]
  | cons p ps ih =>
    have hc : rleInverse (p :: ps) = List.replicate p.run.toNat p.val ++ rleInverse ps := by simp [rleInverse]
    rw [hc, List.length_append, List.length_replicate] at h
    rw [List.cons_append, rleDecLoop, need_of_true (by simpa using h1 p (by simp)), ok_bind,
      need_of_true (by simp; omega), ok_bind, ih (fun q hq => h1 q (by simp [hq])) (by simp; omega), hc]
    simp

end Sys2Proof.Machine
end

