-- ==== Sys2Proof/Laws/Huffman.lean ====
section
/-! SUPPORT. The laws of table validation (41_huffman.md R205), of the pool and the tree builder (R203, R204), and of the code
paths (R211). -/

namespace Sys2Proof.Machine

/-! ### Table validation -/

theorem runOf_pos_iff {s : Symbol} : 1 ≤ (runOf s).toNat ↔ 256 ≤ s.toNat := by
  have := s.isLt
  simp only [runOf, BitVec.extractLsb'_toNat, Nat.shiftRight_eq_div_pow]
  omega

/-- What the loop body of 41_huffman.md R205 asks of one entry. -/
def EntryOk (prev : Option Entry) (seen : List Symbol) (total : Nat) (e : Entry) : Prop :=
  1 ≤ (runOf e.sym).toNat ∧ 1 ≤ e.cnt.toNat ∧ ascends prev e = true ∧ e.sym ∉ seen ∧ total + e.cnt.toNat ≤ 2 ^ 64 - 1

theorem checkEntry_eq_ok {prev : Option Entry} {seen : List Symbol} {total n : Nat} {e : Entry} :
    checkEntry prev seen total e = .ok n ↔ EntryOk prev seen total e ∧ n = total + e.cnt.toNat := by
  simp only [checkEntry, bind_eq_ok, need_eq_ok, EntryOk, decide_eq_true_eq, Bool.not_eq_true', List.contains_eq_mem,
    decide_eq_false_iff_not, Except.ok.injEq]
  constructor
  · rintro ⟨_, h1, _, h2, _, h3, _, h4, _, h5, rfl⟩
    exact ⟨⟨h1, h2, h3, h4, h5⟩, rfl⟩
  · rintro ⟨⟨h1, h2, h3, h4, h5⟩, rfl⟩
    exact ⟨(), h1, (), h2, (), h3, (), h4, (), h5, rfl⟩

theorem checkEntry_error {prev : Option Entry} {seen : List Symbol} {total : Nat} {e : Entry} {x : Err}
    (h : checkEntry prev seen total e = .error x) : x = .format := by
  simp only [checkEntry, bind_eq_error, need_eq_error] at h
  rcases h with h | ⟨_, _, h | ⟨_, _, h | ⟨_, _, h | ⟨_, _, h | ⟨_, _, h⟩⟩⟩⟩⟩ <;> first | exact h.2.symm | simp at h

/-- The loop of 41_huffman.md R205 only ever reports FORMAT. -/
theorem validateFrom_error {prev : Option Entry} {seen : List Symbol} {total : Nat} {es : List Entry} {x : Err}
    (h : validateFrom prev seen total es = .error x) : x = .format := by
  induction es generalizing prev seen total with
  | nil => simp [validateFrom] at h
  | cons e es ih =>
    simp only [validateFrom, bind_eq_error] at h
    rcases h with h | ⟨n, _, h⟩
    · exact checkEntry_error h
    · exact ih h

/-- The order of 41_huffman.md R205, strictly ascending (count, symbol). -/
abbrev Entry.lt (a b : Entry) : Prop := a.cnt < b.cnt ∨ (a.cnt = b.cnt ∧ a.sym < b.sym)

theorem Entry.lt_trans {a b c : Entry} (h₁ : a.lt b) (h₂ : b.lt c) : a.lt c := by unfold Entry.lt at *; bv_omega

theorem ascends_some {p e : Entry} : ascends (some p) e = true ↔ p.lt e := by
  simp [ascends, Entry.lt]

/-- What the loop of 41_huffman.md R205 accepts from an entry on. -/
theorem validateFrom_eq_ok {prev : Option Entry} {seen : List Symbol} {total n : Nat} {es : List Entry} (ht : total ≤ 2 ^ 64 - 1) :
    validateFrom prev seen total es = .ok n ↔
      (∀ e ∈ es, 1 ≤ (runOf e.sym).toNat ∧ 1 ≤ e.cnt.toNat) ∧ es.Pairwise Entry.lt ∧ (∀ p ∈ prev, ∀ e ∈ es, p.lt e) ∧
        (es.map Entry.sym).Nodup ∧ (∀ e ∈ es, e.sym ∉ seen) ∧ total + tableTotal es ≤ 2 ^ 64 - 1 ∧
        n = total + tableTotal es := by
  induction es generalizing prev seen total with
  | nil => simp [validateFrom, tableTotal, eq_comm]; omega
  | cons e es ih =>
    have hT : tableTotal (e :: es) = e.cnt.toNat + tableTotal es := by simp [tableTotal]
    simp only [validateFrom, bind_eq_ok, checkEntry_eq_ok]
    constructor
    · rintro ⟨_, ⟨⟨h1, h2, h3, h4, h5⟩, rfl⟩, h⟩
      obtain ⟨ha, hb, hc, hd, he, hf, rfl⟩ := (ih h5).1 h
      refine ⟨?_, ?_, ?_, ?_, ?_, by omega, by omega⟩
      · rintro x (_ | ⟨_, hx⟩)
        · exact ⟨h1, h2⟩
        · exact ha x hx
      · exact List.pairwise_cons.2 ⟨fun x hx => hc e rfl x hx, hb⟩
      · rintro p hp x hx
        have hpe : p.lt e := by cases hp; exact ascends_some.1 h3
        rcases List.mem_cons.1 hx with rfl | hx
        · exact hpe
        · exact Entry.lt_trans hpe (hc e rfl x hx)
      · rw [List.map_cons, List.nodup_cons]
        refine ⟨fun hm => ?_, hd⟩
        obtain ⟨x, hx, hxe⟩ := List.mem_map.1 hm
        exact he x hx (by simp [hxe])
      · rintro x hx
        rcases List.mem_cons.1 hx with rfl | hx
        · exact h4
        · exact fun hs => he x hx (List.mem_cons_of_mem _ hs)
    · rintro ⟨ha, hb, hc, hd, he, hf, rfl⟩
      rw [List.map_cons, List.nodup_cons] at hd
      have h5 : total + e.cnt.toNat ≤ 2 ^ 64 - 1 := by omega
      refine ⟨_, ⟨⟨(ha e (by simp)).1, (ha e (by simp)).2, ?_, he e (by simp), h5⟩, rfl⟩, (ih h5).2 ⟨?_, ?_, ?_, hd.2, ?_, by omega, by omega⟩⟩
      · cases prev with
        | none => rfl
        | some p => exact ascends_some.2 (hc p rfl e (by simp))
      · exact fun x hx => ha x (List.mem_cons_of_mem _ hx)
      · exact (List.pairwise_cons.1 hb).2
      · rintro p hp x hx
        cases hp
        exact (List.pairwise_cons.1 hb).1 x hx
      · intro x hx hs
        rcases List.mem_cons.1 hs with hs | hs
        · exact hd.1 (hs ▸ List.mem_map_of_mem hx)
        · exact he x (List.mem_cons_of_mem _ hx) hs

/-! ### The pool -/

/-- The key in the terms of `csym` and `kind` (41_huffman.md R203). -/
theorem PoolNode.key_eq (n : PoolNode) :
    n.key = toLex (n.tree.weight.toNat, toLex (n.tree.csym, toLex (n.tree.kind, n.seq))) := by
  rcases n with ⟨_ | _, _⟩ <;> rfl

/-- Elements with one key have one creation number. -/
theorem PoolNode.seq_of_key {a b : PoolNode} (h : a.key = b.key) : a.seq = b.seq := by
  simp only [PoolNode.key_eq, toLex_inj, Prod.mk.injEq] at h
  exact h.2.2.2

/-- The key order decided by `before` is the lexicographic order of 41_huffman.md R203. -/
theorem before_eq_true {a b : PoolNode} : a.before b = true ↔ a.key < b.key := by
  simp only [PoolNode.before, PoolNode.key_eq, Prod.Lex.toLex_lt_toLex]
  split
  · simp; omega
  · split
    · simp; omega
    · split
      · simp; omega
      · simp; omega

theorem extractMin_eq_none {pool : List PoolNode} : extractMin pool = none ↔ pool = [] := by
  cases pool with
  | nil => simp [extractMin]
  | cons x xs =>
    simp only [extractMin, reduceCtorEq, iff_false]
    cases extractMin xs with
    | none => simp
    | some p => simp only; split <;> simp

/-- The pool is the extracted element and the rest. -/
theorem extractMin_perm {pool rest : List PoolNode} {m : PoolNode} (h : extractMin pool = some (m, rest)) :
    pool.Perm (m :: rest) := by
  induction pool generalizing m rest with
  | nil => simp [extractMin] at h
  | cons x xs ih =>
    simp only [extractMin] at h
    cases hx : extractMin xs with
    | none =>
      rw [hx] at h
      rw [extractMin_eq_none] at hx
      simp only [Option.some.injEq, Prod.mk.injEq] at h
      rw [hx, ← h.1, ← h.2]
    | some p =>
      obtain ⟨m', r'⟩ := p
      rw [hx] at h
      simp only at h
      split at h
      · simp only [Option.some.injEq, Prod.mk.injEq] at h
        obtain ⟨rfl, rfl⟩ := h
        exact ((ih hx).cons x).trans (List.Perm.swap _ _ _)
      · simp only [Option.some.injEq, Prod.mk.injEq] at h
        obtain ⟨rfl, rfl⟩ := h
        exact (ih hx).cons _

/-- No element left in the pool has a smaller key than the extracted one. -/
theorem extractMin_le {pool rest : List PoolNode} {m : PoolNode} (h : extractMin pool = some (m, rest)) :
    ∀ x ∈ rest, m.key ≤ x.key := by
  induction pool generalizing m rest with
  | nil => simp [extractMin] at h
  | cons x xs ih =>
    simp only [extractMin] at h
    cases hx : extractMin xs with
    | none =>
      rw [hx] at h
      simp only [Option.some.injEq, Prod.mk.injEq] at h
      simp [← h.2]
    | some p =>
      obtain ⟨m', r'⟩ := p
      rw [hx] at h
      simp only at h
      split at h
      · rename_i hb
        simp only [Option.some.injEq, Prod.mk.injEq] at h
        obtain ⟨rfl, rfl⟩ := h
        intro y hy
        rcases List.mem_cons.1 hy with rfl | hy
        · exact (before_eq_true.1 hb).le
        · exact ih hx y hy
      · rename_i hb
        have hb' : x.key ≤ m'.key := not_lt.1 fun hlt => hb (before_eq_true.2 hlt)
        simp only [Option.some.injEq, Prod.mk.injEq] at h
        obtain ⟨rfl, rfl⟩ := h
        intro y hy
        rcases List.mem_cons.1 hy with rfl | hy
        · exact hb'
        · exact hb'.trans (ih hx y hy)

/-! ### The merge loop -/

/-- One round of the loop: it ends early on a pool of fewer than two, else joins the two least. -/
theorem mergeLoop_succ (k next : Nat) (pool : List PoolNode) :
    (pool.length < 2 ∧ mergeLoop (k + 1) next pool = pool) ∨
    ∃ a b rest, pool.Perm (a :: b :: rest) ∧ (∀ x ∈ b :: rest, a.key ≤ x.key) ∧ (∀ x ∈ rest, b.key ≤ x.key) ∧
      mergeLoop (k + 1) next pool = mergeLoop k (next + 1) (⟨a.tree.join b.tree, next⟩ :: rest) := by
  cases h₁ : extractMin pool with
  | none =>
    left
    rw [extractMin_eq_none] at h₁
    subst h₁
    exact ⟨by simp, rfl⟩
  | some p =>
    obtain ⟨a, p₁⟩ := p
    have hp₁ := extractMin_perm h₁
    cases h₂ : extractMin p₁ with
    | none =>
      left
      have : p₁ = [] := extractMin_eq_none.1 h₂
      refine ⟨by rw [hp₁.length_eq, this]; simp, ?_⟩
      simp only [mergeLoop, h₁, h₂]
    | some q =>
      obtain ⟨b, p₂⟩ := q
      have hp₂ := extractMin_perm h₂
      refine .inr ⟨a, b, p₂, hp₁.trans (hp₂.cons a), fun x hx => extractMin_le h₁ x (hp₂.mem_iff.2 hx),
        extractMin_le h₂, ?_⟩
      simp only [mergeLoop, h₁, h₂]

/-- `k` rounds on a pool of more than `k` leave `k` elements fewer. -/
theorem length_mergeLoop {k next : Nat} {pool : List PoolNode} (h : k < pool.length) :
    (mergeLoop k next pool).length = pool.length - k := by
  induction k generalizing next pool with
  | zero => rfl
  | succ k ih =>
    rcases mergeLoop_succ k next pool with ⟨hl, _⟩ | ⟨a, b, rest, hp, _, _, he⟩
    · omega
    · have := hp.length_eq
      simp only [List.length_cons] at this
      rw [he, ih (by simp only [List.length_cons]; omega)]
      simp only [List.length_cons]
      omega

/-- A property of pools that one join keeps, and permuting keeps, is kept by the loop. -/
theorem mergeLoop_keeps {P : List PoolNode → Prop} (hperm : ∀ {p q : List PoolNode}, p.Perm q → P p → P q)
    (hjoin : ∀ {a b : PoolNode} {rest : List PoolNode} {n : Nat}, P (a :: b :: rest) → P (⟨a.tree.join b.tree, n⟩ :: rest))
    {k next : Nat} {pool : List PoolNode} (h : P pool) : P (mergeLoop k next pool) := by
  induction k generalizing next pool with
  | zero => exact h
  | succ k ih =>
    rcases mergeLoop_succ k next pool with ⟨_, he⟩ | ⟨a, b, rest, hp, _, _, he⟩
    · rwa [he]
    · rw [he]
      exact ih (hjoin (hperm hp h))

/-! ### The tree builder -/

@[simp] theorem length_leafPool (es : List Entry) : (leafPool es).length = es.length := by simp [leafPool]

theorem map_leaf_leafPool (es : List Entry) :
    (leafPool es).map PoolNode.tree = es.map fun e => .leaf e.sym e.cnt := by
  refine List.ext_getElem (by simp) fun i h₁ h₂ => by simp [leafPool]

/-- The tree of a table is the one element the loop leaves. -/
theorem treeBuild_eq_some {es : List Entry} (h : es ≠ []) :
    ∃ n, mergeLoop (es.length - 1) es.length (leafPool es) = [n] ∧ treeBuild es = some n.tree := by
  have hpos : 0 < es.length := List.length_pos_iff.2 h
  have hl : (mergeLoop (es.length - 1) es.length (leafPool es)).length = 1 := by
    rw [length_mergeLoop (by simp; omega)]
    simp; omega
  obtain ⟨n, hn⟩ := List.length_eq_one_iff.1 hl
  exact ⟨n, hn, by simp [treeBuild, hn]⟩

theorem treeBuild_nil : treeBuild [] = none := rfl

/-- The tree's leaves are the table's entries. -/
theorem leaves_treeBuild {es : List Entry} {t : HuffTree} (h : treeBuild es = some t) : t.leaves.Perm es := by
  have hne : es ≠ [] := by rintro rfl; simp [treeBuild_nil] at h
  obtain ⟨n, hn, ht⟩ := treeBuild_eq_some hne
  rw [ht, Option.some.injEq] at h
  have hk := mergeLoop_keeps (P := fun p : List PoolNode => (p.flatMap fun x : PoolNode => x.tree.leaves).Perm es)
    (fun hpq hp => (List.Perm.flatMap_right _ hpq.symm).trans hp) (fun h => by simpa [HuffTree.join, HuffTree.leaves] using h)
    (k := es.length - 1) (next := es.length) (pool := leafPool es) (by
      have : (leafPool es).flatMap (fun x => x.tree.leaves) = ((leafPool es).map PoolNode.tree).flatMap HuffTree.leaves := by
        rw [List.flatMap_map]
      rw [this, map_leaf_leafPool, List.flatMap_map]
      simp [HuffTree.leaves])
  rw [hn] at hk
  simpa [h] using hk

/-! ### Code paths -/

/-- The codes of a subtree's leaves, from left to right, are the leaves' symbols. -/
theorem map_fst_paths (t : HuffTree) (p : BitString) : (t.paths p).map Prod.fst = t.leaves.map Entry.sym := by
  induction t generalizing p with
  | leaf s w => rfl
  | node w l r ihl ihr => simp [HuffTree.paths, HuffTree.leaves, ihl, ihr]

theorem map_fst_codeGen (t : HuffTree) : (codeGen (some t)).map Prod.fst = t.leaves.map Entry.sym := by
  cases t with
  | leaf s w => rfl
  | node w l r => simp [codeGen, HuffTree.leaves, map_fst_paths]

/-- Every code of a subtree goes on from the subtree's own path, and leads to the leaf. -/
theorem mem_paths {t : HuffTree} {p : BitString} {e : Symbol × BitString} (h : e ∈ t.paths p) :
    ∃ q c, e.2 = p ++ q ∧ t.follow q = some (.leaf e.1 c) ∧ (⟨e.1, c⟩ : Entry) ∈ t.leaves := by
  induction t generalizing p with
  | leaf s w =>
    simp only [HuffTree.paths, List.mem_singleton] at h
    subst h
    exact ⟨[], w, by simp, rfl, by simp [HuffTree.leaves]⟩
  | node w l r ihl ihr =>
    simp only [HuffTree.paths, List.mem_append] at h
    rcases h with h | h
    · obtain ⟨q, c, hq, hf, hm⟩ := ihl h
      exact ⟨false :: q, c, by simp [hq], by simpa [HuffTree.follow] using hf, by simp [HuffTree.leaves, hm]⟩
    · obtain ⟨q, c, hq, hf, hm⟩ := ihr h
      exact ⟨true :: q, c, by simp [hq], by simpa [HuffTree.follow] using hf, by simp [HuffTree.leaves, hm]⟩

/-- A symbol that has a code has it in the table. -/
theorem mem_of_code {c : CodeTable} {s : Symbol} {p : BitString} (h : c.code s = some p) : (s, p) ∈ c := by
  simp only [CodeTable.code, Option.map_eq_some_iff] at h
  obtain ⟨e, he, rfl⟩ := h
  have h1 := List.mem_of_find?_eq_some he
  have h2 := List.find?_some he
  simp only [beq_iff_eq] at h2
  rw [← h2]
  exact h1

theorem code_isSome {c : CodeTable} {s : Symbol} : (c.code s).isSome = true ↔ s ∈ c.map Prod.fst := by
  simp only [CodeTable.code, Option.isSome_map, List.find?_isSome, beq_iff_eq, List.mem_map]

/-- With one entry per symbol, an entry's code is its symbol's. -/
theorem code_of_mem {c : CodeTable} (hn : (c.map Prod.fst).Nodup) {e : Symbol × BitString} (h : e ∈ c) :
    c.code e.1 = some e.2 := by
  obtain ⟨p, hp⟩ := Option.isSome_iff_exists.1 (code_isSome.2 (List.mem_map_of_mem (f := Prod.fst) h))
  have hm := mem_of_code hp
  have : (e.1, p) = e := List.inj_on_of_nodup_map hn hm h rfl
  rw [hp, ← this]

/-! ### The longest and shortest code, and the code window (41_huffman.md R212, R220) -/

theorem foldr_max_le {l : List Nat} {n : Nat} : l.foldr max 0 ≤ n ↔ ∀ x ∈ l, x ≤ n := by
  induction l with
  | nil => simp
  | cons a l ih => simp [ih]

theorem maxCodeLen_le {c : CodeTable} {n : Nat} : maxCodeLen c ≤ n ↔ ∀ e ∈ c, e.2.length ≤ n := by
  rw [maxCodeLen, foldr_max_le, List.forall_mem_map]

theorem maxCodeLen_mem {c : CodeTable} (h : c ≠ []) : ∃ e ∈ c, e.2.length = maxCodeLen c := by
  by_contra hc
  simp only [not_exists, not_and] at hc
  have hlt : ∀ e ∈ c, e.2.length < maxCodeLen c := fun e he => lt_of_le_of_ne (maxCodeLen_le.1 le_rfl e he) (hc e he)
  obtain ⟨e, he⟩ := List.exists_mem_of_ne_nil c h
  have := hlt e he
  have h2 : maxCodeLen c ≤ maxCodeLen c - 1 := maxCodeLen_le.2 fun e he => by have := hlt e he; omega
  omega

theorem minCodeLen_spec {c : CodeTable} (h : c ≠ []) :
    (∃ e ∈ c, e.2.length = minCodeLen c) ∧ ∀ e ∈ c, minCodeLen c ≤ e.2.length := by
  cases hm : (c.map fun e => e.2.length).min? with
  | none => simp at hm; exact absurd hm h
  | some m =>
    have hmm := List.min?_eq_some_iff.1 hm
    have : minCodeLen c = m := by simp [minCodeLen, hm]
    rw [this]
    obtain ⟨h1, h2⟩ := hmm
    obtain ⟨e, he, hee⟩ := List.mem_map.1 h1
    exact ⟨⟨e, he, hee⟩, fun e he =>
      h2 _ (List.mem_map_of_mem (f := fun e : Symbol × BitString => e.2.length) he)⟩

/-- The bits of a number written from its highest bit down. -/
theorem testBit_sum_bits (f : Nat → Bool) (n k : Nat) (hk : k < n) :
    (((List.range n).map fun t => (f t).toNat * 2 ^ (n - 1 - t)).sum).testBit (n - 1 - k) = f k := by
  induction n generalizing f k with
  | zero => omega
  | succ n ih =>
    have hlt : ∀ (g : Nat → Bool) n, ((List.range n).map fun t => (g t).toNat * 2 ^ (n - 1 - t)).sum < 2 ^ n := by
      intro g n
      induction n generalizing g with
      | zero => simp
      | succ n ih =>
        rw [List.range_succ_eq_map, List.map_cons, List.sum_cons, List.map_map]
        have := ih (fun t => g (t + 1))
        have h2 : ((List.range n).map ((fun t => (g t).toNat * 2 ^ (n + 1 - 1 - t)) ∘ Nat.succ)) = ((List.range n).map fun t => (g (t + 1)).toNat * 2 ^ (n - 1 - t)) := by
          apply List.map_congr_left; intro t ht; simp at ht; simp only [Function.comp]
          congr 2; omega
        rw [h2, pow_succ]
        cases g 0 <;> simp <;> omega
    rw [List.range_succ_eq_map, List.map_cons, List.sum_cons, List.map_map]
    have h2 : ((List.range n).map ((fun t => (f t).toNat * 2 ^ (n + 1 - 1 - t)) ∘ Nat.succ)) = ((List.range n).map fun t => (f (t + 1)).toNat * 2 ^ (n - 1 - t)) := by
      apply List.map_congr_left; intro t ht; simp at ht; simp only [Function.comp]
      congr 2; omega
    rw [h2]
    have hl := hlt (fun t => f (t+1)) n
    simp only [Nat.add_sub_cancel, Nat.sub_zero] at *
    rw [mul_comm, Nat.testBit_two_pow_mul_add _ hl]
    cases k with
    | zero => simp; cases f 0 <;> simp
    | succ k =>
      rw [if_pos (by omega)]
      have := ih (fun t => f (t + 1)) k (by omega)
      rw [← this]; congr 1; omega

end Sys2Proof.Machine
end

