-- ==== Sys2Proof/Laws/Payload.lean ====
section
/-! SUPPORT. The laws of the bit-packed payload: a code read by tree traversal gives its symbol back (42_bitpack.md R261,
R262), and a stream of codes its symbols in order (R263). -/

namespace Sys2Proof.Machine

/-- The stream holds the bits `q` from position `pos` on. -/
def HoldsBits (pl : Bytes) (pos : Nat) (q : BitString) : Prop := ∀ k < q.length, bitAt pl (pos + k) = q.getD k false

theorem HoldsBits.head {pl : Bytes} {pos : Nat} {b : Bool} {q : BitString} (h : HoldsBits pl pos (b :: q)) :
    bitAt pl pos = b ∧ HoldsBits pl (pos + 1) q := by
  refine ⟨by simpa using h 0 (by simp), fun k hk => ?_⟩
  have := h (k + 1) (by simpa using hk)
  rw [List.getD_cons_succ] at this
  rw [← this]; congr 1; omega

theorem HoldsBits.append {pl : Bytes} {pos : Nat} {q q' : BitString} (h : HoldsBits pl pos (q ++ q')) :
    HoldsBits pl pos q ∧ HoldsBits pl (pos + q.length) q' := by
  constructor
  · intro k hk
    rw [h k (by rw [List.length_append]; omega), List.getD_append _ _ _ _ hk]
  · intro k hk
    have := h (q.length + k) (by rw [List.length_append]; omega)
    rw [List.getD_append_right _ _ _ _ (by omega), Nat.add_sub_cancel_left] at this
    rw [← this]; congr 1; omega

/-- What was packed stands in the payload. -/
theorem holdsBits_packed (bits : BitString) : HoldsBits (packed bits) 0 bits := fun k hk => by
  rw [Nat.zero_add, bitAt_packed_of_lt hk]

/-- The descent along a path to a leaf gives the leaf's symbol and takes the path's bits. -/
theorem descend_path {pl : Bytes} {lim : Nat} {t : HuffTree} {q : BitString} {s : Symbol} {c : Count} {pos : Nat}
    (hf : t.follow q = some (.leaf s c)) (hb : HoldsBits pl pos q) (hl : pos + q.length ≤ lim) :
    t.descend pl lim pos = .ok (s, pos + q.length) := by
  induction q generalizing t pos with
  | nil =>
    cases t with
    | leaf s' w => simp only [HuffTree.follow, Option.some.injEq, HuffTree.leaf.injEq] at hf; simp [HuffTree.descend, hf.1]
    | node w l r => simp [HuffTree.follow] at hf
  | cons b q ih =>
    cases t with
    | leaf s' w => simp [HuffTree.follow] at hf
    | node w l r =>
      obtain ⟨h1, h2⟩ := hb.head
      simp only [List.length_cons] at hl ⊢
      rw [HuffTree.descend, if_pos (by omega), h1]
      cases b with
      | true =>
        rw [if_pos rfl, ih (by simpa [HuffTree.follow] using hf) h2 (by omega)]
        congr 2; omega
      | false =>
        rw [if_neg (by simp), ih (by simpa [HuffTree.follow] using hf) h2 (by omega)]
        congr 2; omega

/-- A code of the tree's table, read from the stream, gives its symbol back and takes the code's bits. -/
theorem decodeSymbol_code {pl : Bytes} {lim pos : Nat} {t : HuffTree} {e : Symbol × BitString}
    (he : e ∈ codeGen (some t)) (hb : HoldsBits pl pos e.2) (hl : pos + e.2.length ≤ lim) :
    decodeSymbol t pl lim pos = .ok (e.1, pos + e.2.length) := by
  cases t with
  | leaf s w =>
    simp only [codeGen, List.mem_singleton] at he
    subst he
    simp only [List.length_singleton] at hl ⊢
    rw [decodeSymbol, if_pos (by omega)]
  | node w l r =>
    have he' : e ∈ (HuffTree.node w l r).paths [] := he
    obtain ⟨q, c, hq, hf, -⟩ := mem_paths he'
    rw [List.nil_append] at hq
    rw [hq] at hb hl ⊢
    exact descend_path hf hb hl

/-- With no valid bit left, no symbol can be read. -/
theorem decodeSymbol_at_limit (t : HuffTree) (pl : Bytes) (lim : Nat) : decodeSymbol t pl lim lim = .error .trunc := by
  cases t <;> simp [decodeSymbol, HuffTree.descend]

/-- Reading a symbol that fails is TRUNC. -/
theorem descend_error {pl : Bytes} {lim : Nat} {t : HuffTree} {pos : Nat} {e : Err}
    (h : t.descend pl lim pos = .error e) : e = .trunc := by
  induction t generalizing pos with
  | leaf s w => simp [HuffTree.descend] at h
  | node w l r ihl ihr =>
    simp only [HuffTree.descend] at h
    split at h
    · split at h
      · exact ihr h
      · exact ihl h
    · simpa [eq_comm] using h

theorem decodeSymbol_error {pl : Bytes} {lim : Nat} {t : HuffTree} {pos : Nat} {e : Err}
    (h : decodeSymbol t pl lim pos = .error e) : e = .trunc := by
  cases t with
  | leaf s w =>
    simp only [decodeSymbol] at h
    split at h
    · simp at h
    · simpa [eq_comm] using h
  | node w l r => exact descend_error h

/-! ### Reading in plain terms -/

theorem bitAt_eq (pl : Bytes) (k : Nat) : bitAt pl k = streamBit pl k := by
  rw [bitAt, streamBit, ← BitVec.testBit_toNat]

theorem bitLimit_eq (p vb : Nat) : bitLimit p vb = streamLimit p vb := rfl

theorem emitPair_eq (cap : Nat) (out : Bytes) (s : Symbol) :
    emitPair cap out s = if out.length + (pairField s).length ≤ cap then .ok (out ++ pairField s) else .error .alloc := by
  have h : symBytes s = pairField s := by
    have := symBytes_sym ⟨s.extractLsb' 8 8, s.extractLsb' 0 8⟩
    have hs : Pair.sym ⟨s.extractLsb' 8 8, s.extractLsb' 0 8⟩ = s := by
      apply BitVec.eq_of_toNat_eq; rw [sym_toNat]; simp; omega
    rw [hs] at this; exact this
  rw [emitPair, h, show (pairField s).length = 2 from rfl]
  split <;> rename_i hc
  · rw [need_of_true (decide_eq_true hc)]; rfl
  · rw [need_of_false (decide_eq_false hc)]; rfl

theorem emitRun_eq (cap : Nat) (out : Bytes) (s : Symbol) :
    emitRun cap out s = if out.length + (runField s).length ≤ cap then .ok (out ++ runField s) else .error .alloc := by
  have hl : (runField s).length = (runOf s).toNat := by simp [runField, runOf]
  rw [emitRun, hl]
  split <;> rename_i hc
  · rw [need_of_true (decide_eq_true hc)]; rfl
  · rw [need_of_false (decide_eq_false hc)]; rfl

/-- The descent to a leaf takes exactly the bits of the leaf's path (42_bitpack.md R261). -/
theorem descend_eq_ok {pl : Bytes} {lim : Nat} {t : HuffTree} {pos pos' : Nat} {s : Symbol} :
    t.descend pl lim pos = .ok (s, pos') ↔
      ∃ q c, t.follow q = some (.leaf s c) ∧ HoldsBits pl pos q ∧ pos' = pos + q.length ∧ (q ≠ [] → pos' ≤ lim) := by
  constructor
  · intro h
    induction t generalizing pos with
    | leaf s' w =>
      simp only [HuffTree.descend, Except.ok.injEq, Prod.mk.injEq] at h
      obtain ⟨rfl, rfl⟩ := h
      exact ⟨[], w, rfl, fun k hk => absurd hk (by simp), rfl, by simp⟩
    | node w l r ihl ihr =>
      rw [HuffTree.descend] at h
      split at h
      · rename_i hp
        have hcons : ∀ {b : Bool} {t' : HuffTree} {q : BitString} {c : Count}, bitAt pl pos = b →
            (HuffTree.node w l r).follow (b :: q) = t'.follow q → t'.follow q = some (.leaf s c) → HoldsBits pl (pos + 1) q →
            pos' = pos + 1 + q.length → (q ≠ [] → pos' ≤ lim) →
            ∃ q c, (HuffTree.node w l r).follow q = some (.leaf s c) ∧ HoldsBits pl pos q ∧ pos' = pos + q.length ∧
              (q ≠ [] → pos' ≤ lim) := by
          intro b t' q c hb hf hq hh hpos hl
          refine ⟨b :: q, c, hf.trans hq, fun k hk => ?_, by simp; omega, fun _ => ?_⟩
          · cases k with
            | zero => simpa using hb
            | succ k => rw [List.getD_cons_succ, ← hh k (by simpa using hk)]; congr 1; omega
          · cases q with
            | nil => simp at hpos; omega
            | cons => exact hl (by simp)
        split at h
        · rename_i hb
          obtain ⟨q, c, hq, hh, hpos, hl⟩ := ihr h
          exact hcons hb (by simp [HuffTree.follow]) hq hh hpos hl
        · rename_i hb
          obtain ⟨q, c, hq, hh, hpos, hl⟩ := ihl h
          exact hcons (Bool.eq_false_iff.2 hb) (by simp [HuffTree.follow]) hq hh hpos hl
      · simp at h
  · rintro ⟨q, c, hq, hh, rfl, hl⟩
    cases q with
    | nil =>
      cases t with
      | leaf s' w =>
        simp only [HuffTree.follow, Option.some.injEq, HuffTree.leaf.injEq] at hq
        rw [HuffTree.descend, hq.1]; rfl
      | node => simp [HuffTree.follow] at hq
    | cons b q => exact descend_path hq hh (hl (by simp))

/-- A symbol is decoded exactly where the payload holds it at or below the limit (42_bitpack.md R261, R262). -/
theorem decodeSymbol_eq_ok {pl : Bytes} {lim : Nat} {t : HuffTree} {pos pos' : Nat} {s : Symbol} :
    decodeSymbol t pl lim pos = .ok (s, pos') ↔ ReadsSymbol pl lim t pos s pos' := by
  cases t with
  | leaf s' w =>
    rw [decodeSymbol]
    constructor
    · intro h
      split at h
      · simp only [Except.ok.injEq, Prod.mk.injEq] at h
        obtain ⟨rfl, rfl⟩ := h
        exact .lone _ _ _ (by omega)
      · simp at h
    · rintro (⟨_, _, _, h⟩ | _)
      rw [if_pos (by omega)]
  | node w l r =>
    rw [decodeSymbol, descend_eq_ok]
    constructor
    · rintro ⟨q, c, hq, hh, rfl, hl⟩
      refine .path w l r pos q s c hq (fun k hk => by rw [← bitAt_eq]; exact hh k hk) (hl ?_)
      rintro rfl
      simp [HuffTree.follow] at hq
    · intro h
      cases h with
      | path _ _ _ _ q _ c hq hh hl => exact ⟨q, c, hq, fun k hk => by rw [bitAt_eq]; exact hh k hk, rfl, fun _ => hl⟩

/-- Where no symbol is decoded the answer is TRUNC. -/
theorem decodeSymbol_eq_error {pl : Bytes} {lim : Nat} {t : HuffTree} {pos : Nat} {e : Err} :
    decodeSymbol t pl lim pos = .error e ↔ e = .trunc ∧ ∀ s pos', ¬ ReadsSymbol pl lim t pos s pos' := by
  constructor
  · intro h
    refine ⟨decodeSymbol_error h, fun s pos' hr => ?_⟩
    rw [decodeSymbol_eq_ok.2 hr] at h
    cases h
  · rintro ⟨rfl, h⟩
    cases hd : decodeSymbol t pl lim pos with
    | error e => rw [decodeSymbol_error hd]
    | ok r => exact absurd (decodeSymbol_eq_ok.1 hd) (h r.1 r.2)

@[simp] theorem payloadBits_cons (c : CodeTable) (p : Pair) (ps : List Pair) :
    payloadBits c (p :: ps) = (c.code p.sym).getD [] ++ payloadBits c ps := by simp [payloadBits]

/-- The stream decoder on the codes of `ps` emits their symbols in order and stands behind the last code. -/
theorem decodeStream_codes {t : HuffTree} {pl : Bytes} {lim : Nat} {emit : Bytes → Symbol → Except Err Bytes}
    {ps : List Pair} {n pos : Nat} {out : Bytes} (hall : ∀ p ∈ ps, ((codeGen (some t)).code p.sym).isSome = true)
    (hb : HoldsBits pl pos (payloadBits (codeGen (some t)) ps))
    (hl : pos + (payloadBits (codeGen (some t)) ps).length ≤ lim) :
    decodeStream t pl lim emit (ps.length + n) pos out =
      (ps.foldlM (fun o p => emit o p.sym) out >>= fun o =>
        decodeStream t pl lim emit n (pos + (payloadBits (codeGen (some t)) ps).length) o) := by
  induction ps generalizing pos out with
  | nil => simp [payloadBits, pure, Except.pure]
  | cons p ps ih =>
    obtain ⟨c, hc⟩ := Option.isSome_iff_exists.1 (hall p (by simp))
    rw [payloadBits_cons, hc, Option.getD_some] at hb hl ⊢
    obtain ⟨hb1, hb2⟩ := hb.append
    rw [List.length_append] at hl ⊢
    rw [List.length_cons, show ps.length + 1 + n = (ps.length + n) + 1 by omega, decodeStream,
      decodeSymbol_code (mem_of_code hc) hb1 (by simp only; omega), List.foldlM_cons]
    simp only
    cases hE : emit out p.sym with
    | error e => rfl
    | ok o =>
      simp only [ok_bind]
      rw [ih (fun q hq => hall q (List.mem_cons_of_mem _ hq)) hb2 (by omega)]
      simp only [Nat.add_assoc]

/-- UNPACK's output on the symbols of `ps`, where it fits. -/
theorem foldlM_emitPair {cap : Nat} {ps : List Pair} {out : Bytes} (h : out.length + 2 * ps.length ≤ cap) :
    ps.foldlM (fun o p => emitPair cap o p.sym) out = .ok (out ++ pairBytes ps) := by
  induction ps generalizing out with
  | nil => simp [pairBytes, pure, Except.pure]
  | cons p ps ih =>
    simp only [List.length_cons] at h
    rw [List.foldlM_cons, emitPair, need, if_pos (by simp; omega), ok_bind, ok_bind, ih (by simp; omega)]
    simp [pairBytes]

/-- DECODE's output on the symbols of `ps`, where it fits. -/
theorem foldlM_emitRun {cap : Nat} {ps : List Pair} {out : Bytes} (h : out.length + (rleInverse ps).length ≤ cap) :
    ps.foldlM (fun o p => emitRun cap o p.sym) out = .ok (out ++ rleInverse ps) := by
  induction ps generalizing out with
  | nil => simp [rleInverse, pure, Except.pure]
  | cons p ps ih =>
    have hc : rleInverse (p :: ps) = List.replicate p.run.toNat p.val ++ rleInverse ps := by simp [rleInverse]
    rw [hc, List.length_append, List.length_replicate] at h
    rw [List.foldlM_cons, emitRun, runOf_sym, bytevalOf_sym, need, if_pos (by simp; omega), ok_bind, ok_bind,
      ih (by simp; omega), hc]
    simp

/-! ### The loop of PACK -/

/-- Where every symbol has a code and the full bytes fit, the loop of PACK adds the codes and goes on (42_bitpack.md R250). -/
theorem packLoop_append {c : CodeTable} {cap : Nat} {ps qs : List Pair} {bits : BitString}
    (hall : ∀ p ∈ ps, (c.code p.sym).isSome = true) (h : (bits.length + (payloadBits c ps).length) / 8 ≤ cap) :
    packLoop c cap (ps ++ qs) bits = packLoop c cap qs (bits ++ payloadBits c ps) := by
  induction ps generalizing bits with
  | nil => simp [payloadBits]
  | cons p ps ih =>
    obtain ⟨q, hq⟩ := Option.isSome_iff_exists.1 (hall p (by simp))
    rw [payloadBits_cons, hq, Option.getD_some, List.length_append] at h
    rw [List.cons_append, packLoop, hq]; simp only
    rw [need_of_true (by simp; omega), ok_bind, ih (fun r hr => hall r (by simp [hr])) (by simp; omega), payloadBits_cons, hq]
    simp

/-- Where every symbol has a code and the full bytes do not fit, the loop of PACK ends in ALLOC. -/
theorem packLoop_full {c : CodeTable} {cap : Nat} {ps qs : List Pair} {bits : BitString}
    (hall : ∀ p ∈ ps, (c.code p.sym).isSome = true) (hb : bits.length / 8 ≤ cap)
    (h : cap < (bits.length + (payloadBits c ps).length) / 8) : packLoop c cap (ps ++ qs) bits = .error .alloc := by
  induction ps generalizing bits with
  | nil => simp [payloadBits] at h; omega
  | cons p ps ih =>
    obtain ⟨q, hq⟩ := Option.isSome_iff_exists.1 (hall p (by simp))
    rw [payloadBits_cons, hq, Option.getD_some, List.length_append] at h
    rw [List.cons_append, packLoop, hq]; simp only
    by_cases hc : (bits ++ q).length / 8 ≤ cap
    · rw [need_of_true (by simpa using hc), ok_bind, ih (fun r hr => hall r (by simp [hr])) hc (by simp; omega)]
    · rw [need_of_false (by simpa using hc)]; rfl

end Sys2Proof.Machine
end

