-- ==== Sys2Proof/Laws/Container.lean ====
section
/-! SUPPORT. The laws of container parsing (43_container.md R311): taking a field, the entry loop, and a header that parses. -/

namespace Sys2Proof.Machine

theorem takeBytes_append {k : Nat} {a b : Bytes} (h : a.length = k) : takeBytes k (a ++ b) = .ok (a, b) := by
  subst h
  simp [takeBytes]

theorem takeBytes_eq_ok {k : Nat} {s a b : Bytes} : takeBytes k s = .ok (a, b) ↔ s = a ++ b ∧ a.length = k := by
  constructor
  · intro h
    unfold takeBytes at h
    split at h
    · simp only [Except.ok.injEq, Prod.mk.injEq] at h
      obtain ⟨rfl, rfl⟩ := h
      exact ⟨(List.take_append_drop k s).symm, by simpa⟩
    · simp at h
  · rintro ⟨rfl, h⟩
    exact takeBytes_append h

theorem takeBytes_short {k : Nat} {s : Bytes} (h : s.length < k) : takeBytes k s = .error .trunc := by
  rw [takeBytes, if_neg (by omega)]

theorem takeBytes_eq_error {k : Nat} {s : Bytes} {e : Err} : takeBytes k s = .error e ↔ s.length < k ∧ e = .trunc := by
  unfold takeBytes
  split <;> simp [eq_comm] <;> omega

theorem takeBytes_error {k : Nat} {s : Bytes} {e : Err} (h : takeBytes k s = .error e) : e = .trunc :=
  (takeBytes_eq_error.1 h).2

/-- The entry loop accepts exactly a table that passes the checks of 41_huffman.md R205, and leaves the rest. -/
theorem parseEntries_eq_ok {prev : Option Entry} {seen : List Symbol} {total n tot : Nat} {s rest : Bytes}
    {es : List Entry} :
    parseEntries prev seen total n s = .ok (es, tot, rest) ↔
      s = tableBytes es ++ rest ∧ es.length = n ∧ validateFrom prev seen total es = .ok tot := by
  induction n generalizing prev seen total s es with
  | zero =>
    simp only [parseEntries, Except.ok.injEq, Prod.mk.injEq]
    constructor
    · rintro ⟨rfl, rfl, rfl⟩; exact ⟨rfl, rfl, rfl⟩
    · rintro ⟨hs, hl, hv⟩
      rw [List.length_eq_zero_iff] at hl
      subst hl
      simp only [validateFrom, Except.ok.injEq] at hv
      exact ⟨rfl, hv, by simpa [tableBytes] using hs⟩
  | succ n ih =>
    constructor
    · intro h
      simp only [parseEntries, bind_eq_ok, Prod.exists] at h
      obtain ⟨b, s', ht, t, hc, es', tot', rest', hp, hr⟩ := h
      obtain ⟨rfl, hb⟩ := takeBytes_eq_ok.1 ht
      simp only [Except.ok.injEq, Prod.mk.injEq] at hr
      obtain ⟨rfl, rfl, rfl⟩ := hr
      obtain ⟨rfl, hl, hv⟩ := ih.1 hp
      refine ⟨by rw [tableBytes_cons, toBytes_entryOf hb, List.append_assoc], by simp [hl], ?_⟩
      simp only [validateFrom, hc, ok_bind, hv]
    · rintro ⟨rfl, hl, hv⟩
      cases es with
      | nil => simp at hl
      | cons e es =>
        simp only [validateFrom, bind_eq_ok] at hv
        obtain ⟨t, hc, hv⟩ := hv
        have hp := ih.2 ⟨(rfl : tableBytes es ++ rest = _), by simpa using hl, hv⟩
        rw [tableBytes_cons, List.append_assoc, parseEntries, takeBytes_append (by simp)]
        simp only [ok_bind, entryOf_toBytes, hc, hp]

/-- The entry loop stops at the first entry that is cut short (TRUNC) or fails its checks (FORMAT), behind entries that pass. -/
theorem parseEntries_eq_error {prev : Option Entry} {seen : List Symbol} {total n : Nat} {s : Bytes} {x : Err} :
    parseEntries prev seen total n s = .error x ↔
      ∃ es tot, es.length < n ∧ validateFrom prev seen total es = .ok tot ∧
        ((∃ r, s = tableBytes es ++ r ∧ r.length < 10 ∧ x = .trunc) ∨
          ∃ e r, s = tableBytes es ++ e.toBytes ++ r ∧ validateFrom prev seen total (es ++ [e]) = .error x) := by
  induction n generalizing prev seen total s with
  | zero => simp [parseEntries]
  | succ n ih =>
    constructor
    · intro h
      simp only [parseEntries, bind_eq_error, Prod.exists, takeBytes_eq_error] at h
      rcases h with ⟨h, rfl⟩ | ⟨b, s', ht, h⟩
      · exact ⟨[], total, by simp, rfl, .inl ⟨s, by simp [tableBytes], h, rfl⟩⟩
      · obtain ⟨rfl, hb⟩ := takeBytes_eq_ok.1 ht
        rcases h with h | ⟨t, hc, h⟩
        · exact ⟨[], total, by simp, rfl, .inr ⟨entryOf b, s', by simp [tableBytes, toBytes_entryOf hb],
            by simp only [List.nil_append, validateFrom, h, error_bind]⟩⟩
        · rcases h with h | ⟨_, _, _, _, h⟩
          · obtain ⟨es, tot, hl, hv, hr⟩ := ih.1 h
            refine ⟨entryOf b :: es, tot, by simpa using hl, by simp only [validateFrom, hc, ok_bind, hv], ?_⟩
            rcases hr with ⟨r, rfl, hr⟩ | ⟨e, r, rfl, hr⟩
            · exact .inl ⟨r, by simp [toBytes_entryOf hb], hr⟩
            · exact .inr ⟨e, r, by simp [toBytes_entryOf hb],
                by simp only [List.cons_append, validateFrom, hc, ok_bind, hr]⟩
          · simp at h
    · rintro ⟨es, tot, hl, hv, h⟩
      cases es with
      | nil =>
        rcases h with ⟨r, rfl, h, rfl⟩ | ⟨e, r, rfl, h⟩
        · rw [parseEntries, takeBytes_short (by simpa [tableBytes] using h)]; rfl
        · have hc : checkEntry prev seen total e = .error x := by
            simp only [List.nil_append, validateFrom, bind_eq_error] at h
            simpa using h
          rw [parseEntries, show tableBytes [] ++ e.toBytes ++ r = e.toBytes ++ r from rfl, takeBytes_append (by simp)]
          simp only [ok_bind, entryOf_toBytes, hc, error_bind]
      | cons e es =>
        simp only [validateFrom, bind_eq_ok] at hv
        obtain ⟨t, hc, hv⟩ := hv
        have hp : ∀ {s}, parseEntries (some e) (e.sym :: seen) t n s = .error x →
            parseEntries prev seen total (n + 1) (e.toBytes ++ s) = .error x := fun h => by
          rw [parseEntries, takeBytes_append (by simp)]
          simp only [ok_bind, entryOf_toBytes, hc, h, error_bind]
        rcases h with ⟨r, rfl, h⟩ | ⟨e', r, rfl, h⟩
        · rw [tableBytes_cons, List.append_assoc]
          exact hp (ih.2 ⟨es, tot, by simpa using hl, hv, .inl ⟨r, rfl, h⟩⟩)
        · rw [tableBytes_cons, List.append_assoc, List.append_assoc]
          simp only [List.cons_append, validateFrom, hc, ok_bind] at h
          exact hp (ih.2 ⟨es, tot, by simpa using hl, hv, .inr ⟨e', r, by simp, h⟩⟩)

/-- The part of ParseContainer behind the entries (43_container.md R311). -/
def parseTrailer (prot : Bool) (orig : Nat) (es : List Entry) (total : Nat) (s : Bytes) : Except Err Parsed := do
  let (vb, s) ← takeBytes 1 s
  need (decide (1 ≤ fromLe vb) && decide (fromLe vb ≤ 8)) .format
  let (plen, s) ← takeBytes 4 s
  let (pl, s) ← takeBytes (fromLe plen) s
  need s.isEmpty .format
  .ok { prot := prot, orig := orig, entries := es, total := total, validBits := fromLe vb, payload := pl }

/-- A well-formed header parses, and the rest is the trailer's. -/
theorem parseContainer_header {p : Params} {prot : Bool} {orig total : Nat} {es : List Entry} {rest : Bytes}
    (ho : orig < 2 ^ 64) (hN : es.length ≤ maxEntries) (hv : validateEntries es = .ok total) :
    parseContainer p (containerHeader p prot orig es ++ rest) = parseTrailer prot orig es total rest := by
  have hN' : es.length ≤ 65280 := hN
  have hs : fromSle32 (sle32 es.length) = es.length := by rw [sle32_natCast, fromSle32_leBytes (by omega)]
  have ho' : fromLe (leBytes 8 orig) = orig := fromLe_leBytes_of_lt (by omega)
  have he : parseEntries none [] 0 es.length (tableBytes es ++ rest) = .ok (es, total, rest) :=
    parseEntries_eq_ok.2 ⟨rfl, rfl, hv⟩
  have hp : (([BitVec.ofNat 8 prot.toNat] : Bytes) == [0] || ([BitVec.ofNat 8 prot.toNat] : Bytes) == [1]) = true := by
    cases prot <;> rfl
  have hp' : (([BitVec.ofNat 8 prot.toNat] : Bytes) == [1]) = prot := by cases prot <;> rfl
  simp only [containerHeader, List.append_assoc, parseContainer]
  rw [takeBytes_append (by rfl), ok_bind]
  simp only [beq_self_eq_true, need_true, ok_bind]
  rw [takeBytes_append (by rfl), ok_bind]
  simp only [beq_self_eq_true, need_true, ok_bind]
  rw [takeBytes_append (by rfl), ok_bind]
  simp only [beq_self_eq_true, need_true, ok_bind]
  rw [takeBytes_append (by rfl), ok_bind]
  simp only [beq_self_eq_true, need_true, ok_bind]
  rw [takeBytes_append (by rfl), ok_bind]
  simp only [hp, need_true, ok_bind]
  rw [takeBytes_append (by simp), ok_bind]
  simp only
  rw [takeBytes_append (by simp [sle32]), ok_bind]
  have hn : (decide (0 ≤ (es.length : Int)) && decide ((es.length : Int) ≤ maxEntries)) = true := by simp; omega
  simp only [hs, hn, need_true, ok_bind, Int.toNat_natCast, he, hp', ho']
  rfl

/-- The trailer of a well-formed container parses. -/
theorem parseTrailer_ok {prot : Bool} {orig total vb : Nat} {es : List Entry} {pl : Bytes} (h1 : 1 ≤ vb) (h8 : vb ≤ 8)
    (hl : pl.length < 2 ^ 32) :
    parseTrailer prot orig es total ([BitVec.ofNat 8 vb] ++ leBytes 4 pl.length ++ pl) =
      .ok { prot := prot, orig := orig, entries := es, total := total, validBits := vb, payload := pl } := by
  have hvb : fromLe [BitVec.ofNat 8 vb] = vb := by simp [fromLe]; omega
  have hpl : fromLe (leBytes 4 pl.length) = pl.length := fromLe_leBytes_of_lt (by omega)
  simp only [parseTrailer, List.append_assoc]
  rw [takeBytes_append (by rfl), ok_bind]
  simp only [hvb, h1, h8, decide_true, Bool.and_self, need_true, ok_bind]
  rw [takeBytes_append (by simp), ok_bind]
  simp only [hpl]
  rw [show takeBytes pl.length pl = .ok (pl, []) by simpa using takeBytes_append (k := pl.length) (a := pl) (b := []) rfl]
  rfl

/-! ### Lengths and the protection layer -/

@[simp] theorem length_containerHeader (p : Params) (prot : Bool) (n : Nat) (es : List Entry) :
    (containerHeader p prot n es).length = 23 + 10 * es.length := by
  simp [containerHeader, Signature.toBytes, Version.toBytes, sle32]; omega

@[simp] theorem length_protect (p : Params) (b : Bool) (pl : Bytes) : (protect p b pl).length = pl.length := by
  cases b <;> simp [protect, xorBytes]

theorem xorBytes_xorBytes (s : Bytes) (k : Byte) : xorBytes (xorBytes s k) k = s := by
  have hid : ((fun y => y ^^^ k) ∘ fun y => y ^^^ k) = (id : Byte → Byte) := by funext y; simp
  rw [xorBytes, xorBytes, List.map_map, hid, List.map_id]

/-- The protection layer undoes itself. -/
theorem protect_protect (p : Params) (b : Bool) (pl : Bytes) : protect p b (protect p b pl) = pl := by
  cases b
  · rfl
  · exact xorBytes_xorBytes pl p.xorKey

end Sys2Proof.Machine
end

