-- ==== Sys2Proof/Laws/Completion.lean ====
section
/-! SUPPORT. The completion of a command in the terms of the statements (44_control.md R352, 60_exceptions.md R403..R406): when
the checks pass, what a success and an error leave, which errors a command's own processing raises, and that its output fits. -/

namespace Sys2Proof.Machine

/-! ### The checks in plain terms -/

/-- The columns "src" and "dst" of 30_encoding.md R104 are the model's ports. -/
theorem hasSrc_eq (i : Instr) : hasSrc i = (portsOf i).src := by cases i <;> rfl

theorem hasDst_eq (i : Instr) : hasDst i = (portsOf i).dst := by cases i <;> rfl

theorem overlap_eq_true {o : OperandRegs} :
    o.overlap = true ↔ 0 < o.len ∧ 0 < o.cap ∧ o.src < o.dst + o.cap ∧ o.dst < o.src + o.len := by
  simp [OperandRegs.overlap, and_assoc]

theorem portsOf_inPlace {i : Instr} : (portsOf i).inPlace = true ↔ i = .xor := by
  cases i <;> simp [portsOf, Ports.none, Ports.srcDst, Ports.srcOnly]

/-- The range check passes exactly on acceptable ranges (60_exceptions.md R404). -/
theorem rangeCheck_ok_iff {i : Instr} {o : OperandRegs} {n : Nat} :
    rangeCheck (portsOf i) o n = .ok () ↔ RangesOk i o n := by
  rw [rangeCheck_eq_ok, overlap_eq_true, portsOf_inPlace, RangesOk]
  simp only [hasSrc_eq, hasDst_eq, OperandRegs.src, OperandRegs.len, OperandRegs.dst, OperandRegs.cap, and_imp]

/-- The state check passes exactly when the command has the state it needs (60_exceptions.md R405). -/
theorem stateCheck_ok_iff {i : Instr} {st : Status} : stateCheck i st = .ok () ↔ StateOk i st := by
  cases i <;> simp [stateCheck, StateOk]

theorem execPre_error {i : Instr} {s : State} {e : Err} (h : execPre i s = .error e) : e = .format := by
  cases i <;> simp only [execPre, reduceCtorEq] at h
  simp only [unpackChecks, bind_eq_error, need_eq_error] at h
  rcases h with h | ⟨_, _, h⟩
  · exact h.2.symm
  · exact h.2.symm

/-- Which check fails first (60_exceptions.md R406). -/
theorem checks_error {s : State} {i : Instr} {e : Err} (h : s.checks i (execPre i s) = .error e) :
    (e = .range ∧ ¬ s.RangesOk i) ∨ (s.RangesOk i ∧ e = .state ∧ ¬ StateOk i s.status) ∨
      (s.RangesOk i ∧ StateOk i s.status ∧ e = .format ∧ execPre i s = .error .format) := by
  simp only [State.checks, bind_eq_error] at h
  rcases h with h | ⟨u, hr, h | ⟨u', hs, h⟩⟩
  · refine .inl ⟨rangeCheck_error h, fun hr => ?_⟩
    rw [rangeCheck_ok_iff.2 hr] at h
    simp at h
  · refine .inr (.inl ⟨rangeCheck_ok_iff.1 hr, stateCheck_error h, fun hs => ?_⟩)
    rw [stateCheck_ok_iff.2 hs] at h
    simp at h
  · refine .inr (.inr ⟨rangeCheck_ok_iff.1 hr, stateCheck_ok_iff.1 hs, execPre_error h, ?_⟩)
    rw [h, execPre_error h]

theorem checks_ok_iff {s : State} {i : Instr} :
    s.checks i (execPre i s) = .ok () ↔ s.RangesOk i ∧ StateOk i s.status ∧ execPre i s = .ok () := by
  simp only [State.checks, bind_eq_ok]
  constructor
  · rintro ⟨_, hr, _, hs, hp⟩; exact ⟨rangeCheck_ok_iff.1 hr, stateCheck_ok_iff.1 hs, hp⟩
  · rintro ⟨hr, hs, hp⟩; exact ⟨(), rangeCheck_ok_iff.2 hr, (), stateCheck_ok_iff.2 hs, hp⟩

/-! ### What a completion leaves -/

/-- A success writes its output and its results and nothing else (44_control.md R352). -/
theorem completeOk_succeeds (s : State) (r : Success) : Succeeds s (s.completeOk r) r.out r.res r.szmis where
  frame := ⟨rfl, rfl, rfl, rfl, rfl, rfl, rfl, rfl, rfl, rfl⟩
  draws := rfl
  mem := Memory.read_writeBytes _ _ _
  res := rfl
  busy := rfl
  done := rfl
  err := rfl
  szmis := rfl

theorem completeErr_frame (s : State) (d : Bool) (e : Err) (f : ErrFlags) : CommandFrame s (s.completeErr d e f) := by
  constructor <;> simp

/-- An error leaves what 60_exceptions.md R403 says. -/
theorem completeErr_fails (s : State) (i : Instr) (e : Err) (f : ErrFlags) :
    FailsWith i s (s.completeErr (hasDst i) e f) e where
  frame := completeErr_frame s _ e f
  res := rfl
  busy := rfl
  done := rfl
  err := rfl
  szmis := rfl
  outside a h := by
    rw [State.completeErr_mem]
    split
    · rename_i hc
      simp only [Bool.and_eq_true] at hc
      rw [State.spoilDst_mem, Memory.read_writeBytes, if_neg]
      rintro ⟨h1, h2⟩
      exact h ⟨hc.1, h1, by rwa [length_freeBytes] at h2⟩
    · rfl
  kept h := by
    have : e.spoilsDst = false := by rcases h with rfl | rfl | rfl <;> rfl
    simp [State.completeErr, this]
  spoiled h a := by
    have he : e.spoilsDst = true := by rcases h with rfl | rfl | rfl | rfl <;> rfl
    rintro ⟨hd, h1, h2⟩
    have h3 : a - s.latch.ops.dst < s.latch.ops.cap := by
      simp only [OperandRegs.dst, OperandRegs.cap]; omega
    rw [State.completeErr_mem, hd, he, Bool.and_self, if_pos rfl, State.spoilDst_mem, Memory.read_writeBytes,
      if_pos ⟨h1, by rwa [length_freeBytes]⟩]
    simpa using h3

/-! ### Running a command whose checks pass or fail -/

theorem source_eq {s : State} {i : Instr} {x : Bytes} (h : hasSrc i = true) : s.source (portsOf i) = some x ↔ s.SourceIs x := by
  rw [State.source, if_pos (hasSrc_eq i ▸ h)]
  rfl

theorem source_noSrc {s : State} {i : Instr} (h : hasSrc i = false) : s.source (portsOf i) = some [] := by
  rw [State.source, if_neg (by simpa [hasSrc_eq] using h)]

/-- With acceptable ranges, the needed state and the source written, a command completes as its pseudocode answers. -/
theorem exec_of_ok {i : Instr} {s : State} {x : Bytes} (hr : s.RangesOk i) (hs : StateOk i s.status)
    (hp : execPre i s = .ok ()) (hx : s.source (portsOf i) = some x) :
    exec i s = .next (s.complete (hasDst i) (execOnErr i s) (execBody i s x)) := by
  rw [exec_eq_run, State.run_eq, checks_ok_iff.2 ⟨hr, hs, hp⟩, hx, hasDst_eq]

theorem exec_of_body_ok {i : Instr} {s : State} {x : Bytes} {r : Success} (hr : s.RangesOk i) (hs : StateOk i s.status)
    (hp : execPre i s = .ok ()) (hx : s.source (portsOf i) = some x) (hb : execBody i s x = .ok r) :
    exec i s = .next (s.completeOk r) := by
  rw [exec_of_ok hr hs hp hx, hb]; rfl

theorem exec_of_body_error {i : Instr} {s : State} {x : Bytes} {e : Err} (hr : s.RangesOk i) (hs : StateOk i s.status)
    (hp : execPre i s = .ok ()) (hx : s.source (portsOf i) = some x) (hb : execBody i s x = .error e) :
    exec i s = .next (s.completeErr (hasDst i) e (execOnErr i s e)) := by
  rw [exec_of_ok hr hs hp hx, hb]; rfl

theorem exec_of_checks_error {i : Instr} {s : State} {e : Err} (h : s.checks i (execPre i s) = .error e) :
    exec i s = .next (s.completeErr (hasDst i) e (execOnErr i s e)) := by
  rw [exec_eq_run, State.run_eq, h, hasDst_eq]

theorem exec_of_bad_range {i : Instr} {s : State} (h : ¬ s.RangesOk i) :
    exec i s = .next (s.completeErr (hasDst i) .range (execOnErr i s .range)) := by
  apply exec_of_checks_error
  cases hr : rangeCheck (portsOf i) s.latch.ops s.cfg.memSize.val with
  | ok u => exact absurd (rangeCheck_ok_iff.1 hr) h
  | error e => rw [State.checks, hr, rangeCheck_error hr]; rfl

theorem exec_of_bad_state {i : Instr} {s : State} (hr : s.RangesOk i) (h : ¬ StateOk i s.status) :
    exec i s = .next (s.completeErr (hasDst i) .state (execOnErr i s .state)) := by
  apply exec_of_checks_error
  cases hs : stateCheck i s.status with
  | ok u => exact absurd (stateCheck_ok_iff.1 hs) h
  | error e => rw [State.checks, rangeCheck_ok_iff.2 hr, ok_bind, hs, stateCheck_error hs]; rfl

/-! ### What the pseudocode of a command can answer -/

theorem rleDecLoop_error {cap : Nat} {ps : List Pair} {out : Bytes} {e : Err} (h : rleDecLoop cap ps out = .error e) :
    e.spoilsDst = true := by
  induction ps generalizing out with
  | nil => simp [rleDecLoop] at h
  | cons p ps ih =>
    simp only [rleDecLoop, bind_eq_error, need_eq_error] at h
    rcases h with ⟨_, rfl⟩ | ⟨_, _, ⟨_, rfl⟩ | ⟨_, _, h⟩⟩
    · rfl
    · rfl
    · exact ih h

theorem rleDecLoop_length {cap : Nat} {ps : List Pair} {out o : Bytes} (hc : out.length ≤ cap)
    (h : rleDecLoop cap ps out = .ok o) : o.length ≤ cap := by
  induction ps generalizing out with
  | nil => simp only [rleDecLoop, Except.ok.injEq] at h; rwa [← h]
  | cons p ps ih =>
    simp only [rleDecLoop, bind_eq_ok, need_eq_ok, decide_eq_true_eq] at h
    obtain ⟨_, _, _, h1, h2⟩ := h
    exact ih (by simpa using h1) h2

theorem packLoop_error {c : CodeTable} {cap : Nat} {ps : List Pair} {bits : BitString} {e : Err}
    (h : packLoop c cap ps bits = .error e) : e.spoilsDst = true := by
  induction ps generalizing bits with
  | nil => simp [packLoop] at h
  | cons p ps ih =>
    simp only [packLoop] at h
    split at h
    · simp only [Except.error.injEq] at h; rw [← h]; rfl
    · simp only [bind_eq_error, need_eq_error] at h
      rcases h with ⟨_, rfl⟩ | ⟨_, _, h⟩
      · rfl
      · exact ih h

theorem decodeStream_error {t : HuffTree} {pl : Bytes} {lim : Nat} {emit : Bytes → Symbol → Except Err Bytes} {k pos : Nat}
    {out : Bytes} {e : Err} (he : ∀ {o s e'}, emit o s = .error e' → e'.spoilsDst = true)
    (h : decodeStream t pl lim emit k pos out = .error e) : e.spoilsDst = true := by
  induction k generalizing pos out with
  | zero => simp [decodeStream] at h
  | succ k ih =>
    simp only [decodeStream] at h
    split at h
    · rename_i hd
      simp only [Except.error.injEq] at h
      rw [← h, decodeSymbol_error hd]; rfl
    · split at h
      · rename_i hE
        simp only [Except.error.injEq] at h
        rw [← h]; exact he hE
      · exact ih h

theorem decodeStream_length {t : HuffTree} {pl : Bytes} {lim cap : Nat} {emit : Bytes → Symbol → Except Err Bytes}
    {k pos pos' : Nat} {out o : Bytes} (he : ∀ {o s o'}, emit o s = .ok o' → o'.length ≤ cap) (hc : out.length ≤ cap)
    (h : decodeStream t pl lim emit k pos out = .ok (o, pos')) : o.length ≤ cap := by
  induction k generalizing pos out with
  | zero => simp only [decodeStream, Except.ok.injEq, Prod.mk.injEq] at h; rwa [← h.1]
  | succ k ih =>
    simp only [decodeStream] at h
    split at h
    · simp at h
    · split at h
      · simp at h
      · rename_i hE
        exact ih (he hE) h

theorem emitPair_error {cap : Nat} {o : Bytes} {s : Symbol} {e : Err} (h : emitPair cap o s = .error e) : e = .alloc := by
  simp only [emitPair, bind_eq_error, need_eq_error, reduceCtorEq, and_false, exists_const, or_false] at h
  exact h.2.symm

theorem emitPair_length {cap : Nat} {o o' : Bytes} {s : Symbol} (h : emitPair cap o s = .ok o') : o'.length ≤ cap := by
  simp only [emitPair, bind_eq_ok, need_eq_ok, decide_eq_true_eq, Except.ok.injEq, exists_const] at h
  rw [← h.2]
  simpa [symBytes] using h.1

theorem emitRun_error {cap : Nat} {o : Bytes} {s : Symbol} {e : Err} (h : emitRun cap o s = .error e) : e = .alloc := by
  simp only [emitRun, bind_eq_error, need_eq_error, reduceCtorEq, and_false, exists_const, or_false] at h
  exact h.2.symm

theorem emitRun_length {cap : Nat} {o o' : Bytes} {s : Symbol} (h : emitRun cap o s = .ok o') : o'.length ≤ cap := by
  simp only [emitRun, bind_eq_ok, need_eq_ok, decide_eq_true_eq, Except.ok.injEq, exists_const] at h
  rw [← h.2]
  simpa using h.1

theorem parseEntries_error {prev : Option Entry} {seen : List Symbol} {total n : Nat} {s : Bytes} {e : Err}
    (h : parseEntries prev seen total n s = .error e) : e.spoilsDst = true := by
  induction n generalizing prev seen total s with
  | zero => simp [parseEntries] at h
  | succ n ih =>
    simp only [parseEntries, bind_eq_error] at h
    rcases h with h | ⟨_, _, h | ⟨_, _, h | ⟨_, _, h⟩⟩⟩
    · rw [takeBytes_error h]; rfl
    · rw [checkEntry_error h]; rfl
    · exact ih h
    · simp at h

theorem need_error_spoils {c : Bool} {e e' : Err} (h : need c e = .error e') (he : e.spoilsDst = true) : e'.spoilsDst = true := by
  rw [← (need_eq_error.1 h).2]; exact he

/-- The parser reports FORMAT or TRUNC only (43_container.md R311). -/
theorem parseContainer_error {p : Params} {x : Bytes} {e : Err} (h : parseContainer p x = .error e) : e.spoilsDst = true := by
  simp only [parseContainer, bind_eq_error] at h
  rcases h with h | ⟨_, _, h | ⟨_, _, h | ⟨_, _, h | ⟨_, _, h | ⟨_, _, h | ⟨_, _, h | ⟨_, _, h | ⟨_, _, h | ⟨_, _, h |
    ⟨_, _, h | ⟨_, _, h | ⟨_, _, h | ⟨_, _, h | ⟨_, _, h | ⟨_, _, h | ⟨_, _, h | ⟨_, _, h | ⟨_, _, h |
      ⟨_, _, h⟩⟩⟩⟩⟩⟩⟩⟩⟩⟩⟩⟩⟩⟩⟩⟩⟩⟩⟩
  all_goals first
    | exact need_error_spoils h rfl
    | exact parseEntries_error h
    | (rw [takeBytes_error h]; rfl)
    | simp at h

theorem decodeContents_error {p : Params} {cap : Nat} {c : Parsed} {e : Err} (h : decodeContents p cap c = .error e) :
    e.spoilsDst = true := by
  simp only [decodeContents] at h
  split at h
  · simp at h
  · split at h
    · simp at h
    · split at h
      · rename_i hd
        simp only [Except.error.injEq] at h
        rw [← h]
        exact decodeStream_error (fun h => by rw [emitRun_error h]; rfl) hd
      · simp at h

theorem decodeContents_length {p : Params} {cap : Nat} {c : Parsed} {o : Bytes} (h : decodeContents p cap c = .ok o) :
    o.length ≤ cap := by
  simp only [decodeContents] at h
  split at h
  · simp only [Except.ok.injEq] at h; simp [← h]
  · split at h
    · simp only [Except.ok.injEq] at h; simp [← h]
    · split at h
      · simp at h
      · rename_i hd
        simp only [Except.ok.injEq] at h
        rw [← h]
        exact decodeStream_length emitRun_length (Nat.zero_le _) hd

theorem map_eq_error {α β : Type} {f : α → β} {x : Except Err α} {e : Err} : x.map f = .error e ↔ x = .error e := by
  cases x <;> simp [Except.map]

theorem map_eq_ok {α β : Type} {f : α → β} {x : Except Err α} {b : β} : x.map f = .ok b ↔ ∃ a, x = .ok a ∧ f a = b := by
  cases x <;> simp [Except.map]

/-- The errors of a command's own processing are ALLOC, FORMAT, TRUNC and NOCODE (60_exceptions.md R400, R403). -/
theorem execBody_error {i : Instr} {s : State} {x : Bytes} {e : Err} (h : execBody i s x = .error e) : e.spoilsDst = true := by
  cases i <;> simp only [execBody, State.plainOf, map_eq_error, reduceCtorEq] at h
  case rleEnc =>
    simp only [rleEncBody, bind_eq_error] at h
    rcases h with h | ⟨_, _, h⟩
    · exact need_error_spoils h rfl
    · simp at h
  case rleDec =>
    simp only [rleDecBody, bind_eq_error] at h
    rcases h with h | ⟨_, _, h | ⟨_, _, h⟩⟩
    · exact need_error_spoils h rfl
    · exact rleDecLoop_error h
    · simp at h
  case freq =>
    simp only [freqBody, bind_eq_error] at h
    rcases h with h | ⟨_, _, h | ⟨_, _, h | ⟨_, _, h⟩⟩⟩
    · exact need_error_spoils h rfl
    · exact need_error_spoils h rfl
    · exact need_error_spoils h rfl
    · simp at h
  case treeBuild =>
    simp only [treeBuildBody, bind_eq_error] at h
    rcases h with h | ⟨_, _, h | ⟨_, _, h | ⟨_, _, h⟩⟩⟩
    · exact need_error_spoils h rfl
    · exact need_error_spoils h rfl
    · rw [validateFrom_error h]; rfl
    · simp at h
  case codeGen =>
    simp only [codeGenBody, bind_eq_error] at h
    rcases h with h | ⟨_, _, h⟩
    · exact need_error_spoils h rfl
    · simp at h
  case pack =>
    simp only [packBody, bind_eq_error] at h
    rcases h with h | ⟨_, _, h | ⟨_, _, h | ⟨_, _, h⟩⟩⟩
    · exact need_error_spoils h rfl
    · exact packLoop_error h
    · exact need_error_spoils h rfl
    · simp at h
  case unpack =>
    simp only [unpackBody] at h
    split at h
    · simp at h
    · rw [bind_eq_error] at h
      rcases h with h | ⟨_, _, h⟩
      · exact decodeStream_error (fun h => by rw [emitPair_error h]; rfl) h
      · simp at h
  case xor =>
    simp only [xorBody, bind_eq_error] at h
    rcases h with h | ⟨_, _, h⟩
    · exact need_error_spoils h rfl
    · simp at h
  case encode =>
    simp only [encodeBody, encodeContainer, bind_eq_error] at h
    rcases h with (h | ⟨_, _, h | ⟨_, _, h⟩⟩) | ⟨_, _, h | ⟨_, _, h⟩⟩
    · exact need_error_spoils h rfl
    · exact need_error_spoils h rfl
    · simp at h
    · exact need_error_spoils h rfl
    · simp at h
  case decode =>
    simp only [decodeBody, bind_eq_error] at h
    rcases h with h | ⟨_, _, h | ⟨_, _, h⟩⟩
    · exact parseContainer_error h
    · exact decodeContents_error h
    · simp at h

/-- A success's output fits DST_CAP, RES_LEN is its length, and a command without a destination range has none
(20_memory.md R81). -/
theorem execBody_out {i : Instr} {s : State} {x : Bytes} {r : Success} (h : execBody i s x = .ok r) :
    (hasDst i = true → r.out.length ≤ s.latch.ops.cap ∧ r.res.resLen = BitVec.ofNat 32 r.out.length) ∧
      (hasDst i = false → r.out = []) := by
  cases i <;> simp only [execBody, State.plainOf, map_eq_ok, Except.ok.injEq, Prod.exists] at h <;>
    refine ⟨fun hd => ?_, fun hd => ?_⟩ <;> simp only [hasDst, reduceCtorEq] at hd
  case nop => rw [← h]; rfl
  case rleEnc =>
    obtain ⟨a, b, h, rfl⟩ := h
    simp only [rleEncBody, bind_eq_ok, need_eq_ok, decide_eq_true_eq, Except.ok.injEq, Prod.mk.injEq] at h
    obtain ⟨_, hl, rfl, rfl⟩ := h
    exact ⟨hl, rfl⟩
  case rleDec =>
    obtain ⟨a, b, h, rfl⟩ := h
    simp only [rleDecBody, bind_eq_ok, need_eq_ok, decide_eq_true_eq, Except.ok.injEq, Prod.mk.injEq] at h
    obtain ⟨_, -, _, hl, rfl, rfl⟩ := h
    exact ⟨rleDecLoop_length (Nat.zero_le _) hl, rfl⟩
  case freq =>
    obtain ⟨a, b, h, rfl⟩ := h
    simp only [freqBody, bind_eq_ok, need_eq_ok, decide_eq_true_eq, Except.ok.injEq, Prod.mk.injEq] at h
    obtain ⟨_, -, _, -, _, hl, rfl, rfl⟩ := h
    exact ⟨hl, by simp [State.plainSuccess]⟩
  case treeBuild => obtain ⟨a, b, h, rfl⟩ := h; rfl
  case codeGen => obtain ⟨a, b, h, rfl⟩ := h; rfl
  case codeQuery => rw [← h]; rfl
  case pack =>
    obtain ⟨a, b, h, rfl⟩ := h
    simp only [packBody, bind_eq_ok, need_eq_ok, decide_eq_true_eq, Except.ok.injEq, Prod.mk.injEq] at h
    obtain ⟨_, -, _, -, _, hl, rfl, rfl⟩ := h
    exact ⟨by simpa [State.plainSuccess] using hl, rfl⟩
  case unpack =>
    obtain ⟨a, b, h, rfl⟩ := h
    simp only [unpackBody] at h
    split at h
    · simp only [ok_bind, Except.ok.injEq, Prod.mk.injEq] at h
      obtain ⟨rfl, rfl⟩ := h
      exact ⟨Nat.zero_le _, rfl⟩
    · simp only [bind_eq_ok, Except.ok.injEq, Prod.mk.injEq, Prod.exists] at h
      obtain ⟨_, _, hl, rfl, rfl⟩ := h
      exact ⟨decodeStream_length emitPair_length (Nat.zero_le _) hl, rfl⟩
  case xor =>
    obtain ⟨a, b, h, rfl⟩ := h
    simp only [xorBody, bind_eq_ok, need_eq_ok, decide_eq_true_eq, Except.ok.injEq, Prod.mk.injEq] at h
    obtain ⟨_, hl, rfl, rfl⟩ := h
    exact ⟨by simpa [State.plainSuccess, xorBytes] using hl, rfl⟩
  case encode =>
    obtain ⟨a, b, h, rfl⟩ := h
    simp only [encodeBody, bind_eq_ok, need_eq_ok, decide_eq_true_eq, Except.ok.injEq, Prod.mk.injEq] at h
    obtain ⟨_, -, _, hl, rfl, rfl⟩ := h
    exact ⟨hl, rfl⟩
  case decode =>
    obtain ⟨a, b, c, h, rfl⟩ := h
    simp only [decodeBody, bind_eq_ok, Except.ok.injEq, Prod.mk.injEq] at h
    obtain ⟨_, -, _, hl, rfl, rfl, rfl⟩ := h
    exact ⟨decodeContents_length hl, rfl⟩
  case clear => rw [← h]; rfl

end Sys2Proof.Machine
end

