-- ==== Sys2Proof/Laws/PerInstr.lean ====
section
/-! SUPPORT. Statements about every command as syntax, one lemma per command: the word of a command is legal, and the term is
well formed (30_encoding.md R103). -/

namespace Sys2Proof.Laws.Legal

/-- The command's word meets the three conditions of 30_encoding.md R103, and the term is well formed. -/
def Statement (i : Instr) : Prop := legalWord (encodeWord i) = true ∧ i.wf = true

theorem nop : Statement .nop := ⟨rfl, rfl⟩
theorem rleEnc : Statement .rleEnc := ⟨rfl, rfl⟩
theorem rleDec : Statement .rleDec := ⟨rfl, rfl⟩
theorem freq : Statement .freq := ⟨rfl, rfl⟩
theorem treeBuild : Statement .treeBuild := ⟨rfl, rfl⟩
theorem codeGen : Statement .codeGen := ⟨rfl, rfl⟩
theorem codeQuery : Statement .codeQuery := ⟨rfl, rfl⟩
theorem pack : Statement .pack := ⟨rfl, rfl⟩
theorem unpack : Statement .unpack := ⟨rfl, rfl⟩
theorem xor : Statement .xor := ⟨rfl, rfl⟩
theorem encode (protect : Bool) : Statement (.encode protect) := by cases protect <;> exact ⟨rfl, rfl⟩
theorem decode : Statement .decode := ⟨rfl, rfl⟩
theorem clear : Statement .clear := ⟨rfl, rfl⟩

end Sys2Proof.Laws.Legal
end

