-- ==== Sys2Proof/Laws/Step.lean ====
section
/-! SUPPORT. What one access of the host and one step of the machine can do, said once (20_memory.md R80, 44_control.md R352). -/

namespace Sys2Proof.Machine

/-! ### The host's accesses -/

/-- What a register write can do: everything but a CMD write leaves the command's part of the state alone (10_state.md
R33..R42). -/
theorem writeReg_cases (s : State) (r : RegName) (v : Word) :
    (∃ ie ops, s.writeReg r v = { s with ie := ie, ops := ops }) ∨
    s.writeReg r v = { s with status := s.status.write v } ∨
    s.status.busy = false ∧ s.writeReg r v = s.issue v ∨
    s.status.busy = true ∧ s.writeReg r v = s.dropWrite := by
  cases r with
  | cmd =>
    cases h : s.status.busy with
    | false => exact .inr (.inr (.inl ⟨rfl, by simp [State.writeReg, State.writeCmd, h]⟩))
    | true => exact .inr (.inr (.inr ⟨rfl, by simp [State.writeReg, State.writeCmd, h]⟩))
  | status => exact .inr (.inl rfl)
  | _ => exact .inl ⟨_, _, rfl⟩

/-- What a write at any offset can do. -/
theorem writeOffset_cases (s : State) (off : Nat) (v : Word) :
    (∃ ie ops, s.writeOffset off v = { s with ie := ie, ops := ops }) ∨
    s.writeOffset off v = { s with status := s.status.write v } ∨
    s.status.busy = false ∧ s.writeOffset off v = s.issue v ∨
    s.status.busy = true ∧ s.writeOffset off v = s.dropWrite := by
  unfold State.writeOffset
  split
  · exact writeReg_cases s _ v
  · exact .inl ⟨s.ie, s.ops, rfl⟩

/-- The ranges in flight are those of the legal command in flight (20_memory.md R82). -/
theorem inFlightDst_iff (s : State) (a : Nat) : s.inFlightDst a = true ↔ s.DstInFlight a := by
  unfold State.inFlightDst State.flightPorts State.DstInFlight State.InDstRange
  cases hb : s.status.busy
  · simp [Ports.none]
  · cases hd : decodeWord s.latch.cmd with
    | error e => simp [Ports.none]
    | ok i =>
      simp only [if_true, true_and, Except.ok.injEq, exists_eq_left', OperandRegs.inDst, hasDst_eq, Bool.and_eq_true,
        decide_eq_true_eq]
      rfl

theorem inFlightSrc_iff (s : State) (a : Nat) : s.inFlightSrc a = true ↔ s.SrcInFlight a := by
  unfold State.inFlightSrc State.flightPorts State.SrcInFlight State.InSrcRange
  cases hb : s.status.busy
  · simp [Ports.none]
  · cases hd : decodeWord s.latch.cmd with
    | error e => simp [Ports.none]
    | ok i =>
      simp only [if_true, true_and, Except.ok.injEq, exists_eq_left', OperandRegs.inSrc, hasSrc_eq, Bool.and_eq_true,
        decide_eq_true_eq]
      rfl

/-- A byte is in flight exactly when BUSY = 1 and it lies in a range that the legal command in flight has (20_memory.md R82). -/
theorem inFlight_iff (s : State) (a : Nat) :
    (s.inFlightSrc a || s.inFlightDst a) = true ↔
      s.status.busy = true ∧ ∃ i, decodeWord s.latch.cmd = .ok i ∧ (s.InSrcRange i a ∨ s.InDstRange i a) := by
  rw [Bool.or_eq_true, inFlightSrc_iff, inFlightDst_iff, State.SrcInFlight, State.DstInFlight, ← and_or_left]
  simp only [and_or_left, exists_or]

/-- Everything an access of the host that answers a next state can do: a read adds a reply, a `wait` may stay in front, a
register write is `writeOffset`, a MEM write stores one byte outside the ranges in flight. -/
theorem hostAccess_next {s t : State} {op : HostOp} (h : hostAccess op s = .next t) :
    (∃ r draws host, t = { s with replies := r :: s.replies, draws := draws, host := host }) ∨
    (∃ off v, op = .regWrite off v ∧ regOffsetOk off = true ∧ t = s.writeOffset off v) ∨
    ∃ a b, op = .memWrite a b ∧ a < s.cfg.memSize.val ∧ s.inFlightSrc a = false ∧ s.inFlightDst a = false ∧
      t = { s with mem := s.mem.write a b } := by
  cases op with
  | regRead off =>
    simp only [hostAccess, hostRegRead] at h
    split at h <;> simp only [Host.Outcome.next.injEq, reduceCtorEq] at h
    exact .inl ⟨_, s.draws, s.host, h.symm⟩
  | regWrite off v =>
    simp only [hostAccess, hostRegWrite] at h
    split at h <;> simp only [Host.Outcome.next.injEq, reduceCtorEq] at h
    exact .inr (.inl ⟨off, v, rfl, ‹_›, h.symm⟩)
  | memRead a =>
    simp only [hostAccess, hostMemRead] at h
    split at h
    · split at h <;> simp only [Host.Outcome.next.injEq] at h
      · exact .inl ⟨_, s.draws + 1, s.host, h.symm⟩
      · exact .inl ⟨_, s.draws, s.host, h.symm⟩
    · simp at h
  | memWrite a b =>
    simp only [hostAccess, hostMemWrite] at h
    split at h
    · split at h
      · simp at h
      · rename_i ha hr
        simp only [Host.Outcome.next.injEq] at h
        simp only [Bool.or_eq_true, not_or, Bool.not_eq_true] at hr
        exact .inr (.inr ⟨a, b, rfl, ha, hr.1, hr.2, h.symm⟩)
    · simp at h
  | wait =>
    simp only [hostAccess, hostPoll, Host.Outcome.next.injEq] at h
    split at h
    · exact .inl ⟨_, s.draws, _, h.symm⟩
    · exact .inl ⟨_, s.draws, s.host, h.symm⟩
  | regOtherWidth n off => simp [hostAccess] at h
  | memWide n a => simp [hostAccess] at h

/-! ### One step -/

/-- Everything a step that answers a next state can do. -/
theorem step_next {s t : State} (h : step s = .next t) :
    let u := { s with turns := s.turns.tail }
    s.nextAgent = .host ∧ s.host = [] ∧ t = u ∨
    (∃ op rest, s.nextAgent = .host ∧ s.host = op :: rest ∧ hostAccess op { u with host := rest } = .next t) ∨
    (∃ i, s.nextAgent = .engine ∧ s.status.busy = true ∧ decodeWord s.latch.cmd = .ok i ∧ exec i u = .next t) ∨
    s.nextAgent = .engine ∧ s.status.busy = true ∧ (∃ r, decodeWord s.latch.cmd = .error r) ∧ t = u.completeIllegal ∨
    s.nextAgent = .engine ∧ s.status.busy = false ∧ t = u ∨
    s.nextAgent = .reset ∧ t = u.resetEvent := by
  unfold step at h
  cases hn : s.nextAgent with
  | host =>
    simp only [hn, hostStep] at h
    split at h
    · rename_i hh
      exact .inl ⟨rfl, hh, (Host.Outcome.next.inj h).symm⟩
    · rename_i op rest hh
      exact .inr (.inl ⟨op, rest, rfl, hh, h⟩)
  | engine =>
    simp only [hn, engineStep, completeLatched] at h
    cases hb : s.status.busy with
    | false =>
      rw [if_neg (by simp [hb])] at h
      exact .inr (.inr (.inr (.inr (.inl ⟨rfl, rfl, (Host.Outcome.next.inj h).symm⟩))))
    | true =>
      rw [if_pos hb] at h
      split at h
      · rename_i i hd
        exact .inr (.inr (.inl ⟨i, rfl, rfl, hd, h⟩))
      · rename_i r hd
        exact .inr (.inr (.inr (.inl ⟨rfl, rfl, ⟨r, hd⟩, (Host.Outcome.next.inj h).symm⟩)))
  | reset =>
    simp only [hn] at h
    exact .inr (.inr (.inr (.inr (.inr ⟨rfl, (Host.Outcome.next.inj h).symm⟩))))

end Sys2Proof.Machine
end

