-- ==== Sys2Proof/Laws/Tree.lean ====
section
/-! SUPPORT. The laws of Huffman trees: what the merge loop adds up (41_huffman.md R200, R204), that it does not depend on
the leaves' creation numbers (R202, R203), and the lengths and beginnings of the paths (R210, R213). -/

namespace Sys2Proof.Machine

/-! ### What the merge loop adds up -/

/-- The weights of a pool's trees, added up. -/
def poolWeight (p : List PoolNode) : Count := (p.map fun x : PoolNode => x.tree.weight).sum

/-- The tree of a table: N - 1 internal nodes, weights that add up, and the sum of the counts at the root. -/
theorem treeBuild_shape {es : List Entry} (h : es ≠ []) :
    ∃ t, treeBuild es = some t ∧ t.nodes = es.length - 1 ∧ t.Weighted ∧ t.weight = (es.map Entry.cnt).sum := by
  obtain ⟨n, hn, ht⟩ := treeBuild_eq_some h
  refine ⟨n.tree, ht, ?_, ?_, ?_⟩
  · have hk := mergeLoop_keeps (P := fun p : List PoolNode => (p.map fun x : PoolNode => x.tree.nodes).sum + p.length = es.length)
      (fun hpq hp => by rw [← hpq.length_eq, ← (hpq.map _).sum_eq]; exact hp) (fun h => by
        simp [HuffTree.join, HuffTree.nodes] at h ⊢; omega)
      (k := es.length - 1) (next := es.length) (pool := leafPool es) (by
        have : (leafPool es).map (fun x : PoolNode => x.tree.nodes) = ((leafPool es).map PoolNode.tree).map HuffTree.nodes := by rw [List.map_map]; rfl
        rw [this, map_leaf_leafPool, List.map_map]
        have : (es.map (HuffTree.nodes ∘ fun e => .leaf e.sym e.cnt)).sum = 0 := by
          rw [List.sum_eq_zero]; simp [HuffTree.nodes]
        rw [this]; simp)
    rw [hn] at hk; simp at hk; omega
  · have hk := mergeLoop_keeps (P := fun p : List PoolNode => ∀ x ∈ p, x.tree.Weighted)
      (fun hpq hp x hx => hp x (hpq.mem_iff.2 hx)) (fun h => by
        intro x hx
        rcases List.mem_cons.1 hx with rfl | hx
        · exact ⟨rfl, h _ (by simp), h _ (by simp)⟩
        · exact h x (by simp [hx]))
      (k := es.length - 1) (next := es.length) (pool := leafPool es) (by
        intro x hx
        have : x.tree ∈ (leafPool es).map PoolNode.tree := List.mem_map_of_mem hx
        rw [map_leaf_leafPool] at this
        obtain ⟨e, _, he⟩ := List.mem_map.1 this
        rw [← he]; trivial)
    rw [hn] at hk; exact hk n (by simp)
  · have hk := mergeLoop_keeps (P := fun p : List PoolNode => poolWeight p = (es.map Entry.cnt).sum)
      (fun hpq hp => by unfold poolWeight at *; rw [← (hpq.map _).sum_eq]; exact hp) (fun h => by
        simp only [poolWeight, List.map_cons, List.sum_cons, HuffTree.join, HuffTree.weight] at h ⊢
        rw [← h]; ring)
      (k := es.length - 1) (next := es.length) (pool := leafPool es) (by
        have : poolWeight (leafPool es) = (((leafPool es).map PoolNode.tree).map HuffTree.weight).sum := by rw [List.map_map]; rfl
        rw [this, map_leaf_leafPool, List.map_map]; rfl)
    rw [hn] at hk; simpa [poolWeight] using hk

/-- A sum of words that does not wrap. -/
theorem sum_toNat (l : List Count) (h : (l.map BitVec.toNat).sum < 2 ^ 64) :
    l.sum.toNat = (l.map BitVec.toNat).sum := by
  induction l with
  | nil => rfl
  | cons a l ih =>
    simp only [List.map_cons, List.sum_cons] at h ⊢
    rw [BitVec.toNat_add, ih (by omega), Nat.mod_eq_of_lt h]

/-! ### Paths -/

theorem HuffTree.length_leaves (t : HuffTree) : t.leaves.length = t.nodes + 1 := by
  induction t with
  | leaf => rfl
  | node w l r ihl ihr => simp [HuffTree.leaves, HuffTree.nodes, ihl, ihr]; omega

/-- A path below `p` is at least as long as `p`, and at most one bit longer for each internal node. -/
theorem length_of_mem_paths {t : HuffTree} {p : BitString} {e : Symbol × BitString} (h : e ∈ t.paths p) :
    p.length ≤ e.2.length ∧ e.2.length ≤ p.length + t.nodes := by
  induction t generalizing p with
  | leaf s w => simp [HuffTree.paths] at h; subst h; simp [HuffTree.nodes]
  | node w l r ihl ihr =>
    simp only [HuffTree.paths, List.mem_append] at h
    rcases h with h | h
    · have := ihl h; simp [HuffTree.nodes] at *; omega
    · have := ihr h; simp [HuffTree.nodes] at *; omega

/-- The paths of a tree fill the space below `p`. -/
theorem sum_paths (t : HuffTree) (p : BitString) :
    ((t.paths p).map fun e => ((1 : ℚ) / 2) ^ e.2.length).sum = (1 / 2) ^ p.length := by
  induction t generalizing p with
  | leaf s w => simp [HuffTree.paths]
  | node w l r ihl ihr =>
    simp only [HuffTree.paths, List.map_append, List.sum_append, ihl, ihr, List.length_append, List.length_singleton, pow_succ]
    ring

theorem begins_of_mem_paths {t : HuffTree} {p : BitString} {e : Symbol × BitString} (h : e ∈ t.paths p) : p <+: e.2 := by
  obtain ⟨q, c, hq, _⟩ := mem_paths h
  exact ⟨q, hq.symm⟩

/-- Two strings that differ behind `p` are no beginnings of one another. -/
theorem not_begins {p u v : BitString} {b : Bool} (h1 : (p ++ [b]) <+: u) (h2 : (p ++ [!b]) <+: v) : ¬ u <+: v := by
  intro h
  have ha := h1.trans h
  obtain ⟨x, rfl⟩ := ha
  obtain ⟨y, hy⟩ := h2
  simp at hy

/-! ### Creation numbers of leaves do not matter -/

/-- A pool element without a leaf's creation number. -/
def PoolNode.forget (n : PoolNode) : PoolNode :=
  match n.tree with
  | .leaf _ _ => ⟨n.tree, 0⟩
  | .node _ _ _ => n

@[simp] theorem PoolNode.forget_tree (n : PoolNode) : n.forget.tree = n.tree := by
  unfold PoolNode.forget; split <;> rfl

theorem forget_mono {x y : PoolNode} (h : x.key ≤ y.key) : x.forget.key ≤ y.forget.key := by
  rcases x with ⟨tx, sx⟩
  rcases y with ⟨ty, sy⟩
  cases tx <;> cases ty <;>
    simp [PoolNode.forget, PoolNode.key_eq, Prod.Lex.toLex_le_toLex, HuffTree.weight, HuffTree.csym, HuffTree.kind] at * <;>
    omega

/-- The least element of a pool with distinct keys is the same in any order. -/
theorem least_unique {p q : List PoolNode} {a a' : PoolNode} (hp : p.Perm q) (hn : (p.map PoolNode.key).Nodup) (ha : a ∈ p) (ha' : a' ∈ q)
   (h : ∀ x ∈ p, a.key ≤ x.key) (h' : ∀ x ∈ q, a'.key ≤ x.key) : a = a' :=
  List.inj_on_of_nodup_map hn ha (hp.mem_iff.2 ha') (le_antisymm (h a' (hp.mem_iff.2 ha')) (h' a (hp.mem_iff.1 ha)))

/-- Pools that differ only in the leaves' creation numbers merge alike. -/
theorem mergeLoop_congr (k next : Nat) (p q : List PoolNode) (hp : (p.map PoolNode.forget).Perm (q.map PoolNode.forget)) (hn : ((p.map PoolNode.forget).map PoolNode.key).Nodup)
   (hs : ∀ x ∈ p, x.tree.kind = 0 → x.seq < next) : ((mergeLoop k next p).map PoolNode.forget).Perm ((mergeLoop k next q).map PoolNode.forget) := by
  induction k generalizing next p q with
  | zero => exact hp
  | succ k ih =>
    have hlen : p.length = q.length := by simpa using hp.length_eq
    rcases mergeLoop_succ k next p with ⟨h1, e1⟩ | ⟨a, b, r, h1, ha, hb, e1⟩
    · rcases mergeLoop_succ k next q with ⟨h2, e2⟩ | ⟨a', b', r', h2, ha', hb', e2⟩
      · rw [e1, e2]; exact hp
      · have := h2.length_eq; simp at this; omega
    · rcases mergeLoop_succ k next q with ⟨h2, e2⟩ | ⟨a', b', r', h2, ha', hb', e2⟩
      · have := h1.length_eq; simp at this; omega
      · have h1n := h1.map PoolNode.forget
        have h2n := h2.map PoolNode.forget
        have hpq : ((a :: b :: r).map PoolNode.forget).Perm ((a' :: b' :: r').map PoolNode.forget) := (h1n.symm.trans hp).trans h2n
        have hnd : (((a :: b :: r).map PoolNode.forget).map PoolNode.key).Nodup := (h1n.map _).nodup_iff.1 hn
        have hmin : ∀ {a : PoolNode} {l : List PoolNode}, (∀ x ∈ l, a.key ≤ x.key) → ∀ y ∈ (a :: l).map PoolNode.forget, a.forget.key ≤ y.key := by
          intro a l h y hy
          rw [List.map_cons, List.mem_cons] at hy
          rcases hy with rfl | hy
          · exact le_refl _
          · obtain ⟨x, hx, rfl⟩ := List.mem_map.1 hy
            exact forget_mono (h x hx)
        have hae : a.forget = a'.forget := least_unique hpq hnd (by simp) (by simp) (hmin ha) (hmin ha')
        have hpq2 : ((b :: r).map PoolNode.forget).Perm ((b' :: r').map PoolNode.forget) := by
          have := hpq; simp only [List.map_cons] at this ⊢; rw [hae] at this; exact List.Perm.cons_inv this
        have hnd2 : (((b :: r).map PoolNode.forget).map PoolNode.key).Nodup := (List.nodup_cons.1 hnd).2
        have hbe : b.forget = b'.forget := least_unique hpq2 hnd2 (by simp) (by simp) (hmin hb) (hmin hb')
        have hpq3 : (r.map PoolNode.forget).Perm (r'.map PoolNode.forget) := by
          have := hpq2; simp only [List.map_cons] at this ⊢; rw [hbe] at this; exact List.Perm.cons_inv this
        have hta : a.tree = a'.tree := by simpa using congrArg PoolNode.tree hae
        have htb : b.tree = b'.tree := by simpa using congrArg PoolNode.tree hbe
        rw [e1, e2]
        apply ih
        · simp only [List.map_cons, hta, htb]; exact hpq3.cons _
        · simp only [List.map_cons, List.nodup_cons]
          refine ⟨fun hm => ?_, (List.nodup_cons.1 hnd2).2⟩
          obtain ⟨y, hy, hye⟩ := List.mem_map.1 hm
          obtain ⟨x, hx, rfl⟩ := List.mem_map.1 hy
          have hk : x.forget.tree.kind = 0 ∧ x.forget.seq = next := by
            simp only [PoolNode.key_eq, toLex_inj, Prod.mk.injEq] at hye
            have := hye.2.2
            exact ⟨by simpa [PoolNode.forget, HuffTree.join, HuffTree.kind] using this.1, by simpa [PoolNode.forget, HuffTree.join] using this.2⟩
          have hkx : x.tree.kind = 0 := by simpa using hk.1
          have hxs : x.forget = x := by rcases x with ⟨_ | _, _⟩ <;> simp_all [PoolNode.forget, HuffTree.kind]
          have := hs x (h1.mem_iff.2 (by simp [hx])) hkx
          rw [hxs] at hk; omega
        · intro x hx hk
          rcases List.mem_cons.1 hx with rfl | hx
          · simp
          · have := hs x (h1.mem_iff.2 (by simp [hx])) hk; omega

theorem map_forget_leafPool (es : List Entry) :
    (leafPool es).map PoolNode.forget = es.map fun e => ⟨.leaf e.sym e.cnt, 0⟩ :=
  List.ext_getElem (by simp) fun i h₁ h₂ => by simp [leafPool, PoolNode.forget]

/-! ### The loop in the terms of `MergesTo` (41_huffman.md R204) -/

/-- A pool whose creation numbers are distinct and below `next` merges, round by round, into one tree. -/
theorem mergesTo_mergeLoop (k next : Nat) (pool : List PoolNode) (hk : pool.length = k + 1)
    (hn : (pool.map PoolNode.seq).Nodup) (hs : ∀ x ∈ pool, x.seq < next) :
    ∃ n, mergeLoop k next pool = [n] ∧ MergesTo next pool n.tree := by
  induction k generalizing next pool with
  | zero =>
    obtain ⟨n, rfl⟩ := List.length_eq_one_iff.1 hk
    exact ⟨n, rfl, .root next n⟩
  | succ k ih =>
    rcases mergeLoop_succ k next pool with ⟨h, -⟩ | ⟨a, b, rest, hp, ha, hb, he⟩
    · omega
    · have hn' : ((a :: b :: rest).map PoolNode.seq).Nodup := (hp.map _).nodup_iff.1 hn
      have hlt : ∀ {a : PoolNode} {l : List PoolNode}, ((a :: l).map PoolNode.seq).Nodup → (∀ x ∈ l, a.key ≤ x.key) →
          ∀ x ∈ l, a.key < x.key := by
        intro a l hn h x hx
        refine lt_of_le_of_ne (h x hx) fun he => (List.nodup_cons.1 hn).1 ?_
        rw [PoolNode.seq_of_key he]; exact List.mem_map_of_mem hx
      have hn2 := (List.nodup_cons.1 hn').2
      have hs' : ∀ x ∈ a :: b :: rest, x.seq < next := fun x hx => hs x (hp.mem_iff.2 hx)
      obtain ⟨n, h1, h2⟩ := ih (next + 1) (⟨a.tree.join b.tree, next⟩ :: rest) (by
        have := hp.length_eq; simp at this ⊢; omega) (by
        simp only [List.map_cons, List.nodup_cons]
        refine ⟨fun h => ?_, (List.nodup_cons.1 hn2).2⟩
        obtain ⟨x, hx, hxe⟩ := List.mem_map.1 h
        have := hs' x (by simp [hx]); omega) (by
        intro x hx
        rcases List.mem_cons.1 hx with rfl | hx
        · simp
        · have := hs' x (by simp [hx]); omega)
      exact ⟨n, by rw [he, h1], .join next pool rest a b _ hp (hlt hn' ha) (hlt hn2 hb) h2⟩

/-- Every tree of the pool is a subtree of what the loop ends in. -/
theorem follow_of_mergesTo {next : Nat} {pool : List PoolNode} {t : HuffTree} (h : MergesTo next pool t) :
    ∀ x ∈ pool, ∃ p, t.follow p = some x.tree := by
  induction h with
  | root next n => intro x hx; simp at hx; subst hx; exact ⟨[], by cases x.tree <;> rfl⟩
  | join next pool rest a b t hp ha hb hm ih =>
    have key : ∀ (t : HuffTree) (p : BitString) (w : Count) (l r : HuffTree) (c : Bool), t.follow p = some (.node w l r) →
        t.follow (p ++ [c]) = some (if c then r else l) := by
      intro t p
      induction p generalizing t with
      | nil => intro w l r c h; cases t <;> simp [HuffTree.follow] at h ⊢; obtain ⟨-, rfl, rfl⟩ := h; cases c <;> simp
      | cons d p ihp =>
        intro w l r c h
        cases t with
        | leaf => simp [HuffTree.follow] at h
        | node w' l' r' => cases d <;> simp [HuffTree.follow] at h ⊢ <;> exact ihp _ _ _ _ _ h
    intro x hx
    have hx := hp.mem_iff.1 hx
    obtain ⟨p, hpj⟩ := ih _ (List.mem_cons_self ..)
    rcases List.mem_cons.1 hx with rfl | hx
    · exact ⟨p ++ [false], by simpa using key t p _ _ _ false hpj⟩
    · rcases List.mem_cons.1 hx with rfl | hx
      · exact ⟨p ++ [true], by simpa using key t p _ _ _ true hpj⟩
      · exact ih x (by simp [hx])

end Sys2Proof.Machine
end

