-- ==== Sys2Proof/Tests/Slice0.lean ====
section
/-! SUPPORT. The model's own tests: ill-formed terms that the checks refuse, words written out bit by bit, small vectors of
95_test_vectors.md (each named by its section and row), and a witness for every statement with hypotheses. -/

namespace Sys2Proof.Tests

open Sys2Proof.Machine

-- One thread at a time: each thread of Lean reserves its whole stack, which counts against the memory limit of a build.
set_option Elab.async false

/-! ### Ill-formed terms are refused -/

/-- Bit 9 is in RSV (30_encoding.md R101; 95_test_vectors.md 2.11 row 8). -/
theorem test_wf_reserved_bits : legalWord 0x0000020A = false := by decide
/-- Opcode 0x0D is reserved (2.11 row 4). -/
theorem test_wf_reserved_opcode : legalWord 0x0000000D = false := by decide
/-- P with DECODE (2.11 row 7). -/
theorem test_wf_protect : legalWord 0x0000010B = false := by decide
/-- P with ENCODE is legal (2.11 row 10). -/
theorem test_wf_legal : legalWord 0x0000010A = true ∧ legalWord 0x0000000C = true := by decide
/-- A misaligned REG access and one at 0x100 (20_memory.md R74). -/
theorem test_wf_reg : (HostOp.regRead 0x06).wf 16 = false ∧ (HostOp.regWrite 0x100 0).wf 16 = false ∧
    (HostOp.regRead 0xFC).wf 16 = true := by decide
/-- A REG access of another width and a wide MEM access (R73, R74). -/
theorem test_wf_width : (HostOp.regOtherWidth 2 0x04).wf 16 = false ∧ (HostOp.memWide 4 0).wf 16 = false := by decide
/-- A MEM access at MEM_SIZE (R73). -/
theorem test_wf_mem : (HostOp.memRead 16).wf 16 = false ∧ (HostOp.memWrite 16 0).wf 16 = false ∧
    (HostOp.memRead 15).wf 16 = true := by decide
/-- Every command term is legal (30_encoding.md R100, R102). -/
theorem test_wf_instr : (Instr.encode true).wf = true ∧ Instr.nop.wf = true := by decide

/-! ### Words of the opcode map, bit by bit: RSV [31:9], P [8], OPC [7:0] (30_encoding.md R101, R103) -/

theorem test_decode_nop : decodeWord 0b00000000000000000000000_0_00000000 = .ok .nop := by decide
theorem test_decode_rleEnc : decodeWord 0b00000000000000000000000_0_00000001 = .ok .rleEnc := by decide
theorem test_decode_rleDec : decodeWord 0b00000000000000000000000_0_00000010 = .ok .rleDec := by decide
theorem test_decode_freq : decodeWord 0b00000000000000000000000_0_00000011 = .ok .freq := by decide
theorem test_decode_treeBuild : decodeWord 0b00000000000000000000000_0_00000100 = .ok .treeBuild := by decide
theorem test_decode_codeGen : decodeWord 0b00000000000000000000000_0_00000101 = .ok .codeGen := by decide
theorem test_decode_codeQuery : decodeWord 0b00000000000000000000000_0_00000110 = .ok .codeQuery := by decide
theorem test_decode_pack : decodeWord 0b00000000000000000000000_0_00000111 = .ok .pack := by decide
theorem test_decode_unpack : decodeWord 0b00000000000000000000000_0_00001000 = .ok .unpack := by decide
theorem test_decode_xor : decodeWord 0b00000000000000000000000_0_00001001 = .ok .xor := by decide
theorem test_decode_encode : decodeWord 0b00000000000000000000000_0_00001010 = .ok (.encode false) := by decide
theorem test_decode_encode_protected : decodeWord 0b00000000000000000000000_1_00001010 = .ok (.encode true) := by decide
theorem test_decode_decode : decodeWord 0b00000000000000000000000_0_00001011 = .ok .decode := by decide
theorem test_decode_clear : decodeWord 0b00000000000000000000000_0_00001100 = .ok .clear := by decide
/-- 2.11 rows 4 to 9. -/
theorem test_decode_illegal : decodeWord 0x0000000D = .error .reservedOpcode ∧ decodeWord 0x000000FF = .error .reservedOpcode ∧
    decodeWord 0x00000100 = .error .protectNotEncode ∧ decodeWord 0x0000010B = .error .protectNotEncode ∧
    decodeWord 0x0000020A = .error .reservedBits ∧ decodeWord 0x8000000A = .error .reservedBits := by decide
theorem test_decodeTableWord : decodeTableWord 32 0x10A = some (.encode true) ∧ decodeTableWord 32 0x0D = none := by decide

/-! ### Small states -/

/-- The test configuration TC (95_test_vectors.md), with another CODE_LEN_MAX where a row asks for one. -/
def tcMax (m : { n : Nat // 1 ≤ n ∧ n ≤ 65279 }) : Params where
  memSize := ⟨65536, by decide, by decide⟩
  signature := ⟨0x52, 0x4C, 0x45, 0x48, 0x55, 0x46⟩
  version := ⟨0x01, 0x00⟩
  algIdRle := 0x01
  algIdHuf := 0x02
  xorKey := 0x5A
  codeLenMax := m

def tc : Params := tcMax ⟨65279, by decide, by decide⟩

/-- TC with CODE_LEN_MAX = 1. -/
def tc1 : Params := tcMax ⟨1, by decide, by decide⟩

/-- The source bytes `x` at 0 and a destination of `cap` bytes at 0x1000, latched, with ARG0..ARG2. -/
def st (x : Bytes) (cap : Nat := 0x100) (a0 a1 a2 : Word := 0) (dst : Nat := 0x1000) : State :=
  { State.resetWith tc with
    mem := Memory.writeBytes [] 0 x
    latch := ⟨0, ⟨0, BitVec.ofNat 32 x.length, BitVec.ofNat 32 dst, BitVec.ofNat 32 cap, a0, a1, a2⟩⟩ }

/-- Entries (symbol, 1) of 2.4 row 1: codes 0142 -> "0", 0341 -> "1". -/
def row1 : List Entry := [⟨0x0142, 1⟩, ⟨0x0341, 1⟩]

/-- The table of 2.4 row 6: codes 0144 -> "0", 0141 -> "100", 0142 -> "101", 0143 -> "11". -/
def row6 : List Entry := [⟨0x0141, 1⟩, ⟨0x0142, 1⟩, ⟨0x0143, 2⟩, ⟨0x0144, 2⟩]

/-- `s` with TREE built from `es`, TV = 1. -/
def withTree (es : List Entry) (s : State) : State :=
  { s with tree := treeBuild es, status := { s.status with tv := true } }

/-- `s` with TREE built from `es` and CT from it, TV = CV = 1. -/
def withTable (es : List Entry) (s : State) : State :=
  { s with tree := treeBuild es, ct := codeGen (treeBuild es), status := { s.status with tv := true, cv := true } }

/-- The 49-byte container C of 2.9 row 1. -/
def boxC : Bytes :=
  [0x52, 0x4C, 0x45, 0x48, 0x55, 0x46, 0x01, 0x00, 0x01, 0x02, 0x00, 0x04, 0, 0, 0, 0, 0, 0, 0, 0x02, 0, 0, 0] ++
    [0x42, 0x01, 0x01, 0, 0, 0, 0, 0, 0, 0, 0x41, 0x03, 0x01, 0, 0, 0, 0, 0, 0, 0] ++ [0x02, 0x01, 0, 0, 0, 0x80]

/-- What a completion shows: STATUS, the RES_LEN bytes at DST_ADDR, RES_LEN and RES0..RES3. -/
def shown (r : Result) : Option (Word × Option Bytes × List Word) :=
  match r with
  | .next t => some (t.status.word, t.mem.readBytes t.latch.ops.dst t.res.resLen.toNat,
      [t.res.resLen, t.res.res0, t.res.res1, t.res.res2, t.res.res3])
  | .fault _ => none
  | .refused _ => none

/-! ### Vectors of 95_test_vectors.md -/

/-- 2.1 row 1. -/
theorem test_rleEnc_row1 : shown (exec .rleEnc (st [0x41, 0x41, 0x41, 0x42])) =
    some (0x002, some [0x41, 0x03, 0x42, 0x01], [4, 2, 0, 0, 0]) := by decide
/-- 2.1 row 9: ALLOC. -/
theorem test_rleEnc_row9 : shown (exec .rleEnc (st [0x41, 0x41, 0x41, 0x42] 3)) =
    some (0x012, some [], [0, 0, 0, 0, 0]) := by decide
/-- 2.2 row 1. -/
theorem test_rleDec_row1 : shown (exec .rleDec (st [0x41, 0x03, 0x42, 0x01])) =
    some (0x002, some [0x41, 0x41, 0x41, 0x42], [4, 2, 0, 0, 0]) := by decide
/-- 2.2 row 8: ALLOC at pair 0, before the FORMAT of pair 1. -/
theorem test_rleDec_row8 : shown (exec .rleDec (st [0x41, 0x02, 0x42, 0x00] 1)) =
    some (0x012, some [], [0, 0, 0, 0, 0]) := by decide
/-- 2.3 row 4: count 1 before count 2. -/
theorem test_freq_row4 : shown (exec .freq (st [0x41, 0x01, 0x42, 0x01, 0x41, 0x01])) =
    some (0x002, some [0x42, 0x01, 0x01, 0, 0, 0, 0, 0, 0, 0, 0x41, 0x01, 0x02, 0, 0, 0, 0, 0, 0, 0], [20, 2, 3, 0, 0]) := by
  decide +kernel
/-- 2.4 row 6: TREE, and TV = 1. -/
theorem test_treeBuild_row6 : shown (exec .treeBuild (st (tableBytes row6))) = some (0x102, some [], [0, 4, 6, 0, 0]) ∧
    treeBuild row6 = some (.node 6 (.leaf 0x0144 2)
      (.node 4 (.node 2 (.leaf 0x0141 1) (.leaf 0x0142 1)) (.leaf 0x0143 2))) := by decide +kernel
/-- 2.4 row 12: not ascending. -/
theorem test_treeBuild_row12 : shown (exec .treeBuild (st (tableBytes [⟨0x0142, 2⟩, ⟨0x0141, 1⟩]))) =
    some (0x022, some [], [0, 0, 0, 0, 0]) := by decide +kernel
/-- 2.4 row 6: the code table. -/
theorem test_codeGen_row6 : shown (exec .codeGen (withTree row6 (st []))) = some (0x302, some [], [0, 4, 3, 1, 0]) ∧
    codeGen (treeBuild row6) = [(0x0144, [false]), (0x0141, [true, false, false]), (0x0142, [true, false, true]),
      (0x0143, [true, true])] := by decide +kernel
/-- 2.5 row 4: the bits "01" at offset 1. -/
theorem test_codeQuery_row4 : shown (exec .codeQuery (withTable row6 (st [] 0 0x142 1))) =
    some (0x302, some [], [0, 3, 0x40000000, 0, 0]) := by decide +kernel
/-- 2.6 row 2. -/
theorem test_pack_row2 : shown (exec .pack (withTable row6
      (st [0x41, 0x01, 0x42, 0x01, 0x43, 0x01, 0x44, 0x01, 0x43, 0x01, 0x44, 0x01]))) =
    some (0x302, some [0x97, 0x60], [2, 4, 6, 12, 0]) := by decide +kernel
/-- 2.7 row 1. -/
theorem test_unpack_row1 : shown (exec .unpack (withTree row1 (st [0x80] 0x100 2 0 2))) =
    some (0x102, some [0x41, 0x03, 0x42, 0x01], [4, 2, 0, 0, 0]) := by decide +kernel
/-- 2.7 row 2: TRUNC; row 7: a lone leaf takes any bit. -/
theorem test_unpack_row2_row7 : shown (exec .unpack (withTree row1 (st [0x80] 4 3 0 2))) =
    some (0x132, some [], [0, 0, 0, 0, 0]) ∧
    shown (exec .unpack (withTree [⟨0x0441, 1⟩] (st [0xFF] 0x100 8 0 8))) =
      some (0x102, some [0x41, 4, 0x41, 4, 0x41, 4, 0x41, 4, 0x41, 4, 0x41, 4, 0x41, 4, 0x41, 4], [16, 8, 0, 0, 0]) := by
  decide +kernel
/-- 2.8 row 5, in place. -/
theorem test_xor_row5 : shown (exec .xor (st [0x80, 0x81] 2 0xFF 0 0 0)) =
    some (0x002, some [0x7F, 0x7E], [2, 0, 0, 0, 0]) := by decide
/-- 2.9 row 1. -/
theorem test_encode_row1 : shown (exec (.encode false) (st [0x41, 0x41, 0x41, 0x42])) =
    some (0x002, some boxC, [49, 2, 2, 1, 2]) := by decide +kernel
/-- 2.9 row 2: byte 10 is 01 and the payload DA; row 7: a lone symbol has the code 0, so the payload is 00. -/
theorem test_encode_row2_row7 : shown (exec (.encode true) (st [0x41, 0x41, 0x41, 0x42])) =
    some (0x002, some ((boxC.set 10 0x01).set 48 0xDA), [49, 2, 2, 1, 2]) ∧
    shown (exec (.encode false) (st [0x41, 0x41, 0x41, 0x41])) =
      some (0x002, some ((boxC.take 19) ++ [0x01, 0, 0, 0, 0x41, 0x04, 0x01, 0, 0, 0, 0, 0, 0, 0, 0x01, 0x01, 0, 0, 0, 0x00]),
        [39, 1, 1, 1, 1]) := by decide +kernel
/-- 2.10 row 1. -/
theorem test_decode_row1 : shown (exec .decode (st boxC)) =
    some (0x002, some [0x41, 0x41, 0x41, 0x42], [4, 4, 0, 2, 0]) := by decide +kernel
/-- 2.10 row 21: vb 1, TRUNC; row 22: vb 8, surplus bits ignored; row 25: the size field 5, SZMIS = 1. -/
theorem test_decode_row21_row22_row25 :
    shown (exec .decode (st (boxC.set 43 0x01))) = some (0x032, some [], [0, 0, 0, 0, 0]) ∧
    shown (exec .decode (st (boxC.set 43 0x08))) = some (0x002, some [0x41, 0x41, 0x41, 0x42], [4, 4, 0, 2, 0]) ∧
    shown (exec .decode (st (boxC.set 11 0x05))) =
      some (0x00A, some [0x41, 0x41, 0x41, 0x42], [4, 5, 0, 2, 0]) := by decide +kernel
/-- 2.10 rows 5 to 15, 17 to 19, 23 and 24: which error a container that does not parse gets. -/
theorem test_parse_errors : ([boxC.take 3, 0x53 :: (boxC.take 5).drop 1, boxC.set 0 0x53, boxC.set 6 0x02, boxC.set 8 0x09,
      boxC.set 9 0x09, boxC.set 10 0x02, boxC.take 19 ++ [0xFF, 0xFF, 0xFF, 0xFF] ++ boxC.drop 23,
      boxC.take 19 ++ [0x01, 0xFF, 0, 0] ++ boxC.drop 23, boxC.set 19 0x03,
      boxC.take 23 ++ (boxC.drop 33).take 10 ++ (boxC.drop 23).take 10 ++ boxC.drop 43, boxC.set 25 0, boxC.set 24 0,
      boxC.set 43 0, boxC ++ [0], boxC.set 44 0x02].map (parseContainer tc)).map (fun r => match r with
        | .ok _ => none
        | .error e => some e) =
    [some .trunc, some .trunc, some .format, some .format, some .format, some .format, some .format, some .format,
      some .format, some .trunc, some .format, some .format, some .format, some .format, some .format, some .trunc] := by
  decide +kernel
/-- The bytes of fields written out (00_scope.md R12): least significant first. -/
theorem test_leField : leField 4 0x01020304 = [0x04, 0x03, 0x02, 0x01] ∧
    entryField ⟨0x0341, 1⟩ = [0x41, 0x03, 0x01, 0, 0, 0, 0, 0, 0, 0] := by decide
/-- 2.11 row 1. -/
theorem test_nop_row1 : shown (exec .nop (st [])) = some (0x002, some [], [0, 0, 0, 0, 0]) := by decide
/-- 2.11 row 2. -/
theorem test_clear_row2 : shown (exec .clear (withTable row1 (st []))) = some (0x002, some [], [0, 0, 0, 0, 0]) := by decide
/-- 2.11 row 4: ILLEGAL, TV unchanged. -/
theorem test_illegal_row4 : shown (step ((withTree row1 (st [])).withFetchWord 32 0x0D)) =
    some (0x142, some [], [0, 0, 0, 0, 0]) := by decide
/-- 2.11 row 16. -/
theorem test_params_row16 : (st []).readOffset 0x3C = 0x10000 ∧ (st []).readOffset 0x40 = 0xFEFF := by decide
/-- The word `cmd ENCODE.P` writes (30_encoding.md R118). -/
theorem test_line_cmd : (expandLine (.cmd (.encode true))).map HostOp.transaction =
    [some ⟨.W, .REG, 0x04, some 0x10A⟩] := by decide

/-! ### Witnesses: a state and operands that meet the hypotheses of a statement -/

theorem rangesOk_of {s : State} {i : Instr} (h : rangeCheck (portsOf i) s.latch.ops s.cfg.memSize.val = .ok ()) :
    s.RangesOk i := rangeCheck_ok_iff.1 h

theorem not_rangesOk_of {s : State} {i : Instr} (h : rangeCheck (portsOf i) s.latch.ops s.cfg.memSize.val ≠ .ok ()) :
    ¬ s.RangesOk i := fun hr => h (rangeCheck_ok_iff.2 hr)

theorem sourceIs_of {s : State} {x : Bytes} (h : s.mem.readBytes s.latch.ops.src s.latch.ops.len = some x) :
    s.SourceIs x := h

/-- A command in flight. -/
def busy (w : Word) (s : State) : State := s.issue w

theorem witness_LegalWordsAreTheOpcodeMap : decodeWord 0x0000000C = .ok .clear ∧ decodeWord 0x0000010A = .ok (.encode true) := by
  decide
theorem witness_StepRunsTheLatchedCommand :
    let s := busy 0x0000010A (st [])
    s.status.busy = true ∧ s.nextAgent = .engine ∧ decodeWord s.latch.cmd = .ok (.encode true) := by decide
/-- The engine's turn with nothing in flight, the host's turn while BUSY = 1, and the host's turn with no access left. -/
theorem witness_StepRunsTheLatchedCommand_turns :
    let s := { st [] with turns := [.engine] }
    let u := { busy 0x00000000 (st []) with turns := [.host], host := [.memRead 0] }
    s.status.busy = false ∧ s.nextAgent = .engine ∧ u.status.busy = true ∧ u.nextAgent = .host ∧ u.host = .memRead 0 :: [] ∧
      (st []).nextAgent = .host ∧ (st []).host = [] ∧ u.turns = .host :: [] ∧ (st []).turns = [] := by decide
theorem witness_IllegalWordCompletesWithIllegal :
    let s := busy 0x0000000D (st [])
    s.status.busy = true ∧ s.nextAgent = .engine ∧ decodeWord s.latch.cmd = .error .reservedOpcode := by decide
theorem witness_CommandInFlightCompletes : (busy 0x00000000 (st [])).status.busy = true := by decide
theorem witness_CmdWriteIssues : (st []).status.busy = false := by decide
theorem witness_CmdWriteWhileBusyIsDropped : (busy 0x00000001 (st [])).status.busy = true := by decide
theorem witness_FreqTableCountsAndSorts : [(⟨1, 0x41⟩ : Pair), ⟨1, 0x42⟩].length < 2 ^ 64 := by decide
theorem witness_FreqTableHasAtMost65280Entries : ∀ p ∈ [(⟨1, 0x41⟩ : Pair), ⟨255, 0x42⟩], 1 ≤ p.run.toNat := by decide

/-- RLE_ENC: the output just fits, and is one byte too long. -/
theorem witness_RleEncWritesThePairStream_fits :
    let s := st [0x41, 0x41, 0x41, 0x42] 4
    s.RangesOk .rleEnc ∧ s.SourceIs [0x41, 0x41, 0x41, 0x42] ∧
      2 * (rleForward [0x41, 0x41, 0x41, 0x42]).length ≤ s.latch.ops.dstCap.toNat :=
  ⟨rangesOk_of (by decide), sourceIs_of (by decide), by decide⟩
theorem witness_RleEncWritesThePairStream_alloc :
    let s := st [0x41, 0x41, 0x41, 0x42] 3
    s.RangesOk .rleEnc ∧ s.SourceIs [0x41, 0x41, 0x41, 0x42] ∧
      s.latch.ops.dstCap.toNat < 2 * (rleForward [0x41, 0x41, 0x41, 0x42]).length :=
  ⟨rangesOk_of (by decide), sourceIs_of (by decide), by decide⟩

theorem witness_RleDecExpandsThePairStream_trunc :
    let s := st [0x41, 0x03, 0x42]
    s.RangesOk .rleDec ∧ s.SourceIs [0x41, 0x03, 0x42] ∧ [(0x41 : Byte), 0x03, 0x42].length % 2 = 1 :=
  ⟨rangesOk_of (by decide), sourceIs_of (by decide), by decide⟩
theorem witness_RleDecExpandsThePairStream_fits :
    let s := st [0x41, 0x03, 0x42, 0x01] 4
    let ps : List Pair := [⟨3, 0x41⟩, ⟨1, 0x42⟩]
    s.RangesOk .rleDec ∧ s.SourceIs [0x41, 0x03, 0x42, 0x01] ∧
      [0x41, 0x03, 0x42, 0x01] = ps.flatMap (fun p => [p.val, p.run]) ∧ (∀ p ∈ ps, 1 ≤ p.run.toNat) ∧
      (rleInverse ps).length ≤ s.latch.ops.dstCap.toNat :=
  ⟨rangesOk_of (by decide), sourceIs_of (by decide), by decide, by decide, by decide⟩
theorem witness_RleDecExpandsThePairStream_format :
    let s := st [0x41, 0x02, 0x42, 0x00] 2
    let ps : List Pair := [⟨2, 0x41⟩]
    let p : Pair := ⟨0, 0x42⟩
    s.RangesOk .rleDec ∧ s.SourceIs [0x41, 0x02, 0x42, 0x00] ∧
      [0x41, 0x02, 0x42, 0x00] = (ps ++ p :: []).flatMap (fun p => [p.val, p.run]) ∧ (∀ q ∈ ps, 1 ≤ q.run.toNat) ∧
      (rleInverse ps).length ≤ s.latch.ops.dstCap.toNat ∧ p.run = 0 :=
  ⟨rangesOk_of (by decide), sourceIs_of (by decide), by decide, by decide, by decide, by decide⟩
theorem witness_RleDecExpandsThePairStream_alloc :
    let s := st [0x41, 0x02, 0x42, 0x01] 2
    let ps : List Pair := [⟨2, 0x41⟩]
    let p : Pair := ⟨1, 0x42⟩
    s.RangesOk .rleDec ∧ s.SourceIs [0x41, 0x02, 0x42, 0x01] ∧
      [0x41, 0x02, 0x42, 0x01] = (ps ++ p :: []).flatMap (fun p => [p.val, p.run]) ∧ (∀ q ∈ ps, 1 ≤ q.run.toNat) ∧
      (rleInverse ps).length ≤ s.latch.ops.dstCap.toNat ∧ 1 ≤ p.run.toNat ∧
      s.latch.ops.dstCap.toNat < (rleInverse ps).length + p.run.toNat :=
  ⟨rangesOk_of (by decide), sourceIs_of (by decide), by decide, by decide, by decide, by decide, by decide⟩

theorem witness_FreqWritesTheFrequencyTable_trunc :
    let s := st [0x41, 0x01, 0x42]
    s.RangesOk .freq ∧ s.SourceIs [0x41, 0x01, 0x42] ∧ [(0x41 : Byte), 0x01, 0x42].length % 2 = 1 :=
  ⟨rangesOk_of (by decide), sourceIs_of (by decide), by decide⟩
theorem witness_FreqWritesTheFrequencyTable_format :
    let s := st [0x41, 0x00]
    let ps : List Pair := [⟨0, 0x41⟩]
    s.RangesOk .freq ∧ s.SourceIs [0x41, 0x00] ∧ [0x41, 0x00] = ps.flatMap (fun p => [p.val, p.run]) ∧
      ∃ p ∈ ps, p.run = 0 :=
  ⟨rangesOk_of (by decide), sourceIs_of (by decide), by decide, by decide⟩
theorem witness_FreqWritesTheFrequencyTable_fits :
    let s := st [0x41, 0x01, 0x42, 0x01] 20
    let ps : List Pair := [⟨1, 0x41⟩, ⟨1, 0x42⟩]
    s.RangesOk .freq ∧ s.SourceIs [0x41, 0x01, 0x42, 0x01] ∧
      [0x41, 0x01, 0x42, 0x01] = ps.flatMap (fun p => [p.val, p.run]) ∧ (∀ p ∈ ps, 1 ≤ p.run.toNat) ∧
      10 * (freqTable ps).length ≤ s.latch.ops.dstCap.toNat :=
  ⟨rangesOk_of (by decide), sourceIs_of (by decide), by decide, by decide, by decide⟩
theorem witness_FreqWritesTheFrequencyTable_alloc :
    let s := st [0x41, 0x01, 0x42, 0x01] 19
    let ps : List Pair := [⟨1, 0x41⟩, ⟨1, 0x42⟩]
    s.RangesOk .freq ∧ s.SourceIs [0x41, 0x01, 0x42, 0x01] ∧
      [0x41, 0x01, 0x42, 0x01] = ps.flatMap (fun p => [p.val, p.run]) ∧ (∀ p ∈ ps, 1 ≤ p.run.toNat) ∧
      s.latch.ops.dstCap.toNat < 10 * (freqTable ps).length :=
  ⟨rangesOk_of (by decide), sourceIs_of (by decide), by decide, by decide, by decide⟩

/-- Two leaves of equal weight. -/
theorem witness_ExtractMinTakesTheLeastKey :
    leafPool row1 ≠ [] ∧ ((leafPool row1).map PoolNode.seq).Nodup := by decide
theorem valid_row1 : ValidTable row1 := ⟨by decide, by decide, by decide, by decide, by decide⟩
theorem valid_row6 : ValidTable row6 := ⟨by decide, by decide, by decide, by decide, by decide⟩
/-- The table of one entry of 2.4 row 10. -/
theorem valid_row10 : ValidTable [⟨0x0441, 1⟩] := ⟨by decide, by decide, by decide, by decide, by decide⟩
/-- A run length of 0 (2.4 row 16). -/
theorem not_valid_row16 : ¬ ValidTable [⟨0x0041, 1⟩] := fun h => absurd h.runs (by decide)
theorem witness_ValidateEntriesChecksTheTable_valid : ValidTable row1 := valid_row1
theorem witness_ValidateEntriesChecksTheTable_invalid : ¬ ValidTable [⟨0x0041, 1⟩] := not_valid_row16
theorem witness_FreqTablesAreValid : [(⟨1, 0x41⟩ : Pair), ⟨255, 0x42⟩].length < 2 ^ 64 ∧
    ∀ p ∈ [(⟨1, 0x41⟩ : Pair), ⟨255, 0x42⟩], 1 ≤ p.run.toNat := by decide
theorem witness_TreeBuildHasTheEntriesAsLeaves : ValidTable row6 ∧ row6 ≠ [] ∧ row6.reverse.Perm row6 ∧
    row6 = ⟨0x0141, 1⟩ :: ⟨0x0142, 1⟩ :: [⟨0x0143, 2⟩, ⟨0x0144, 2⟩] ∧ ValidTable [⟨0x0142, 1⟩, ⟨0x0341, 1⟩] :=
  ⟨valid_row6, by decide, List.reverse_perm _, rfl, valid_row1⟩
theorem witness_CodesArePrefixFreeAndComplete_two :
    ValidTable row1 ∧ treeBuild row1 = some (.node 2 (.leaf 0x0142 1) (.leaf 0x0341 1)) ∧ 2 ≤ row1.length :=
  ⟨valid_row1, by decide, by decide⟩
theorem witness_CodesArePrefixFreeAndComplete_one :
    ValidTable [⟨0x0441, 1⟩] ∧ treeBuild [⟨0x0441, 1⟩] = some (.leaf 0x0441 1) ∧ [(⟨0x0441, 1⟩ : Entry)].length = 1 :=
  ⟨valid_row10, by decide, by decide⟩
theorem witness_CodeLengthsAreBounded :
    ValidTable row1 ∧ row1.length ≤ 65280 ∧ treeBuild row1 = some (.node 2 (.leaf 0x0142 1) (.leaf 0x0341 1)) :=
  ⟨valid_row1, by decide, by decide⟩

theorem witness_TreeBuildBuildsTheTree_trunc :
    let s := st [0x41, 0x01, 0x01]
    s.RangesOk .treeBuild ∧ s.SourceIs [0x41, 0x01, 0x01] ∧ [(0x41 : Byte), 0x01, 0x01].length % 10 ≠ 0 :=
  ⟨rangesOk_of (by decide), sourceIs_of (by decide), by decide⟩
theorem witness_TreeBuildBuildsTheTree_builds :
    let s := st (tableBytes row1)
    s.RangesOk .treeBuild ∧ s.SourceIs (tableField row1) ∧ row1.length ≤ 65280 ∧ ValidTable row1 :=
  ⟨rangesOk_of (by decide), sourceIs_of (by decide), by decide, valid_row1⟩
theorem witness_TreeBuildBuildsTheTree_format :
    let s := st (tableBytes [⟨0x0041, 1⟩])
    s.RangesOk .treeBuild ∧ s.SourceIs (tableField [⟨0x0041, 1⟩]) ∧ ¬ ValidTable [⟨0x0041, 1⟩] :=
  ⟨rangesOk_of (by decide), sourceIs_of (by decide), not_valid_row16⟩

/-- CODE_GEN: every code as long as CODE_LEN_MAX allows (2.4 row 21), and a code one bit longer (2.4 row 20). -/
theorem witness_CodeGenMakesTheCodeTable_fits :
    let s := { withTree row1 (st []) with cfg := tc1 }
    s.status.tv = true ∧ ∀ e ∈ codeGen s.tree, e.2.length ≤ s.cfg.codeLenMax.val := by decide
theorem witness_CodeGenMakesTheCodeTable_alloc :
    let s := { withTree [⟨0x0141, 1⟩, ⟨0x0142, 1⟩, ⟨0x0143, 2⟩] (st []) with cfg := tc1 }
    s.status.tv = true ∧ ∃ e ∈ codeGen s.tree, s.cfg.codeLenMax.val < e.2.length := by decide
/-- CODE_QUERY: a symbol with a code, and one without (2.5 rows 6 and 7). -/
theorem witness_CodeQueryReadsTheCode :
    let s := withTable row6 (st [] 0 0x144)
    let u := withTable row6 (st [] 0 0x145)
    s.status.cv = true ∧ CodeTable.code s.ct (s.latch.ops.arg0.extractLsb' 0 16) = some [false] ∧
      u.status.cv = true ∧ CodeTable.code u.ct (u.latch.ops.arg0.extractLsb' 0 16) = none := by decide

theorem witness_PackWritesThePayload_trunc :
    let s := withTable row1 (st [0x41, 0x03, 0x42])
    s.RangesOk .pack ∧ s.status.cv = true ∧ s.SourceIs [0x41, 0x03, 0x42] ∧ [(0x41 : Byte), 0x03, 0x42].length % 2 = 1 :=
  ⟨rangesOk_of (by decide), by decide, sourceIs_of (by decide), by decide⟩
theorem witness_PackWritesThePayload_fits :
    let s := withTable row1 (st [0x41, 0x03, 0x42, 0x01] 1)
    let ps : List Pair := [⟨3, 0x41⟩, ⟨1, 0x42⟩]
    s.RangesOk .pack ∧ s.status.cv = true ∧ s.SourceIs [0x41, 0x03, 0x42, 0x01] ∧
      [0x41, 0x03, 0x42, 0x01] = ps.flatMap (fun p => [p.val, p.run]) ∧
      (∀ p ∈ ps, (CodeTable.code s.ct p.sym).isSome = true) ∧
      ((payloadBits s.ct ps).length + 7) / 8 ≤ s.latch.ops.dstCap.toNat :=
  ⟨rangesOk_of (by decide), by decide, sourceIs_of (by decide), by decide, by decide, by decide⟩
theorem witness_PackWritesThePayload_alloc :
    let s := withTable row1 (st [0x41, 0x03, 0x42, 0x01] 0)
    let ps : List Pair := [⟨3, 0x41⟩, ⟨1, 0x42⟩]
    s.RangesOk .pack ∧ s.status.cv = true ∧ s.SourceIs [0x41, 0x03, 0x42, 0x01] ∧
      [0x41, 0x03, 0x42, 0x01] = ps.flatMap (fun p => [p.val, p.run]) ∧
      (∀ p ∈ ps, (CodeTable.code s.ct p.sym).isSome = true) ∧
      s.latch.ops.dstCap.toNat < ((payloadBits s.ct ps).length + 7) / 8 :=
  ⟨rangesOk_of (by decide), by decide, sourceIs_of (by decide), by decide, by decide, by decide⟩
theorem witness_PackWritesThePayload_nocode :
    let s := withTable row1 (st [0x41, 0x03, 0x45, 0x01] 0)
    let ps : List Pair := [⟨3, 0x41⟩]
    let p : Pair := ⟨1, 0x45⟩
    s.RangesOk .pack ∧ s.status.cv = true ∧ s.SourceIs [0x41, 0x03, 0x45, 0x01] ∧
      [0x41, 0x03, 0x45, 0x01] = (ps ++ p :: []).flatMap (fun p => [p.val, p.run]) ∧
      (∀ q ∈ ps, (CodeTable.code s.ct q.sym).isSome = true) ∧ CodeTable.code s.ct p.sym = none ∧
      (payloadBits s.ct ps).length / 8 ≤ s.latch.ops.dstCap.toNat :=
  ⟨rangesOk_of (by decide), by decide, sourceIs_of (by decide), by decide, by decide, by decide, by decide⟩
/-- Eight one-bit codes fill a byte that does not fit, before the pair without a code. -/
theorem witness_PackWritesThePayload_alloc_first :
    let s := withTable row1 (st (pairBytes (List.replicate 8 ⟨3, 0x41⟩ ++ [⟨1, 0x45⟩])) 0)
    let ps : List Pair := List.replicate 8 ⟨3, 0x41⟩
    let p : Pair := ⟨1, 0x45⟩
    s.RangesOk .pack ∧ s.status.cv = true ∧ s.SourceIs (pairBytes (ps ++ [p])) ∧
      pairBytes (ps ++ [p]) = (ps ++ p :: []).flatMap (fun p => [p.val, p.run]) ∧
      (∀ q ∈ ps, (CodeTable.code s.ct q.sym).isSome = true) ∧ CodeTable.code s.ct p.sym = none ∧
      s.latch.ops.dstCap.toNat < (payloadBits s.ct ps).length / 8 :=
  ⟨rangesOk_of (by decide), by decide, sourceIs_of (by decide), by decide, by decide, by decide, by decide⟩

/-- UNPACK: valid bits 0 and 9, an Empty TREE with a count of 1 and with a count of 0 (2.7 rows 10, 11, 13, 14). -/
theorem witness_UnpackDecodesThePayload_format :
    let s := withTree row1 (st [0x80] 0x100 2 0 0)
    let u := withTree row1 (st [0x80] 0x100 2 0 9)
    s.RangesOk .unpack ∧ s.status.tv = true ∧ s.latch.ops.arg2.toNat < 1 ∧
      u.RangesOk .unpack ∧ u.status.tv = true ∧ 8 < u.latch.ops.arg2.toNat :=
  ⟨rangesOk_of (by decide), by decide, by decide, rangesOk_of (by decide), by decide, by decide⟩
theorem witness_UnpackDecodesThePayload_empty :
    let s := withTree [] (st [] 0x100 1 0 8)
    let u := withTree [] (st [] 0x100 0 0 8)
    s.RangesOk .unpack ∧ s.status.tv = true ∧ s.tree = none ∧ 0 < s.latch.ops.arg1.toNat * 2 ^ 32 + s.latch.ops.arg0.toNat ∧
      u.RangesOk .unpack ∧ u.status.tv = true ∧ u.SourceIs [] ∧ 1 ≤ u.latch.ops.arg2.toNat ∧
      u.latch.ops.arg2.toNat ≤ 8 ∧ u.latch.ops.arg1.toNat * 2 ^ 32 + u.latch.ops.arg0.toNat = 0 :=
  ⟨rangesOk_of (by decide), by decide, by decide, by decide, rangesOk_of (by decide), by decide, sourceIs_of (by decide),
    by decide, by decide, by decide⟩
/-- The tree of row1, whose codes are 0142 -> "0", 0341 -> "1". -/
def tree1 : HuffTree := .node 2 (.leaf 0x0142 1) (.leaf 0x0341 1)
/-- The payload 80 begins with the bits 1, 0. -/
theorem reads_first (lim : Nat) (h : 1 ≤ lim) : ReadsSymbol [0x80] lim tree1 0 0x0341 1 :=
  .path 2 _ _ 0 [true] 0x0341 1 rfl (by decide) h
theorem reads_second (lim : Nat) (h : 2 ≤ lim) : ReadsSymbol [0x80] lim tree1 1 0x0142 2 :=
  .path 2 _ _ 1 [false] 0x0142 1 rfl (by decide) h
theorem reads_one (lim : Nat) (h : 1 ≤ lim) : ReadsSymbols [0x80] lim tree1 0 [0x0341] 1 :=
  .more _ _ _ _ _ (reads_first lim h) (.done 1)
theorem reads_two (lim : Nat) (h : 2 ≤ lim) : ReadsSymbols [0x80] lim tree1 0 [0x0341, 0x0142] 2 :=
  .more _ _ _ _ _ (reads_first lim (by omega)) (.more _ _ _ _ _ (reads_second lim h) (.done 2))

/-- UNPACK: 2.7 row 1 with a capacity of 4, and of 3; row 2. -/
theorem witness_UnpackDecodesThePayload_ok :
    let s := withTree row1 (st [0x80] 4 2 0 2)
    s.RangesOk .unpack ∧ s.status.tv = true ∧ s.SourceIs [0x80] ∧ s.tree = some tree1 ∧
      Decodes [0x80] (streamLimit 1 2) tree1 pairField 4 2 (.ok ([0x41, 0x03, 0x42, 0x01], 2)) :=
  ⟨rangesOk_of (by decide), by decide, sourceIs_of (by decide), by decide,
    .all [0x0341, 0x0142] 2 rfl (reads_two _ (by decide)) (by decide)⟩
theorem witness_UnpackDecodesThePayload_error :
    let s := withTree row1 (st [0x80] 3 2 0 2)
    s.RangesOk .unpack ∧ s.status.tv = true ∧ s.SourceIs [0x80] ∧ s.tree = some tree1 ∧
      Decodes [0x80] (streamLimit 1 2) tree1 pairField 3 2 (.error .alloc) ∧
      Decodes [0x80] (streamLimit 1 2) tree1 pairField 4 3 (.error .trunc) :=
  ⟨rangesOk_of (by decide), by decide, sourceIs_of (by decide), by decide,
    .alloc [0x0341] 1 0x0142 2 (by decide) (reads_one _ (by decide)) (by decide) (reads_second _ (by decide)) (by decide),
    .trunc [0x0341, 0x0142] 2 (by decide) (reads_two _ (by decide)) (by decide) (decodeSymbol_eq_error.1 rfl).2⟩
/-- A lone leaf takes a bit 1 as well as a bit 0, up to the limit and no further. -/
theorem witness_ReadsSymbol_lone :
    ReadsSymbol [0x80] 2 (.leaf 0x0441 1) 0 0x0441 1 ∧ ReadsSymbol [0x80] 2 (.leaf 0x0441 1) 1 0x0441 2 ∧
      ∀ s pos', ¬ ReadsSymbol [0x80] 2 (.leaf 0x0441 1) 2 s pos' :=
  ⟨.lone _ _ _ (by decide), .lone _ _ _ (by decide), (decodeSymbol_eq_error.1 rfl).2⟩
theorem witness_DecodeStreamInvertsPackPayload :
    let ps : List Pair := [⟨3, 0x41⟩, ⟨1, 0x42⟩]
    ValidTable row1 ∧ treeBuild row1 = some (.node 2 (.leaf 0x0142 1) (.leaf 0x0341 1)) ∧
      (∀ p ∈ ps, p.sym ∈ row1.map Entry.sym) ∧ 2 * ps.length ≤ 4 :=
  ⟨valid_row1, by decide, by decide, by decide⟩

theorem witness_XorWritesTheScrambledBytes_fits :
    let s := st [0x80, 0x81] 2 0xFF 0 0 0
    s.RangesOk .xor ∧ s.SourceIs [0x80, 0x81] ∧ [(0x80 : Byte), 0x81].length ≤ s.latch.ops.dstCap.toNat :=
  ⟨rangesOk_of (by decide), sourceIs_of (by decide), by decide⟩
theorem witness_XorWritesTheScrambledBytes_alloc :
    let s := st [0x80, 0x81] 1
    s.RangesOk .xor ∧ s.SourceIs [0x80, 0x81] ∧ s.latch.ops.dstCap.toNat < [(0x80 : Byte), 0x81].length :=
  ⟨rangesOk_of (by decide), sourceIs_of (by decide), by decide⟩
theorem witness_XorTwiceInPlaceRestoresMemory :
    let s := st [0x80, 0x81] 2 0xFF 0 0 0
    s.RangesOk .xor ∧ s.SourceIs [0x80, 0x81] ∧ s.latch.ops.srcAddr = s.latch.ops.dstAddr ∧
      [(0x80 : Byte), 0x81].length ≤ s.latch.ops.dstCap.toNat :=
  ⟨rangesOk_of (by decide), sourceIs_of (by decide), by decide, by decide⟩

/-- ENCODE of 2.9 row 1 with DST_CAP 49, the container's length, and 48 (2.9 row 18). -/
theorem witness_EncodeWritesTheContainer_fits :
    let s := st [0x41, 0x41, 0x41, 0x42] 49
    let es := freqTable (rleForward [0x41, 0x41, 0x41, 0x42])
    s.RangesOk (.encode true) ∧ s.SourceIs [0x41, 0x41, 0x41, 0x42] ∧
      (∀ e ∈ codeGen (treeBuild es), e.2.length ≤ s.cfg.codeLenMax.val) ∧ boxC.length ≤ s.latch.ops.dstCap.toNat :=
  ⟨rangesOk_of (by decide), sourceIs_of (by decide), by decide +kernel, by decide⟩
theorem witness_EncodeWritesTheContainer_alloc :
    let s := st [0x41, 0x41, 0x41, 0x42] 48
    s.RangesOk (.encode true) ∧ s.SourceIs [0x41, 0x41, 0x41, 0x42] ∧ s.latch.ops.dstCap.toNat < boxC.length :=
  ⟨rangesOk_of (by decide), sourceIs_of (by decide), by decide⟩
/-- A code one bit longer than CODE_LEN_MAX (2.9 row 19). -/
theorem witness_EncodeWritesTheContainer_long :
    let s := { st [0x43, 0x41, 0x43, 0x42] with cfg := tc1 }
    s.RangesOk (.encode false) ∧ s.SourceIs [0x43, 0x41, 0x43, 0x42] ∧
      ∃ e ∈ codeGen (treeBuild (freqTable (rleForward [0x43, 0x41, 0x43, 0x42]))), s.cfg.codeLenMax.val < e.2.length :=
  ⟨rangesOk_of (by decide), sourceIs_of (by decide), by decide +kernel⟩

/-- DECODE: a parse error (2.10 row 5), a contents error (row 28) and a success (row 29). -/
theorem witness_DecodeWritesTheContents_parse :
    let s := st (boxC.take 3)
    s.RangesOk .decode ∧ s.SourceIs (boxC.take 3) ∧ parseContainer s.cfg (boxC.take 3) = .error .trunc :=
  ⟨rangesOk_of (by decide), sourceIs_of (by decide), by decide⟩
theorem witness_DecodeWritesTheContents_contents :
    let s := st boxC 3
    let u := st boxC 4
    let c : Parsed := ⟨false, 4, row1, 2, 2, [0x80]⟩
    s.RangesOk .decode ∧ s.SourceIs boxC ∧ parseContainer s.cfg boxC = .ok c ∧ treeBuild c.entries = some tree1 ∧
      tableTotal c.entries = 2 ∧ Decodes [0x80] (streamLimit 1 c.validBits) tree1 runField 3 2 (.error .alloc) ∧
      u.RangesOk .decode ∧ u.SourceIs boxC ∧
      Decodes [0x80] (streamLimit 1 c.validBits) tree1 runField 4 2 (.ok ([0x41, 0x41, 0x41, 0x42], 2)) :=
  ⟨rangesOk_of (by decide), sourceIs_of (by decide), by decide +kernel, by decide, by decide,
    .alloc [0x0341] 1 0x0142 2 (by decide) (reads_one _ (by decide)) (by decide) (reads_second _ (by decide)) (by decide),
    rangesOk_of (by decide), sourceIs_of (by decide), .all [0x0341, 0x0142] 2 rfl (reads_two _ (by decide)) (by decide)⟩
/-- A container of no entries with a payload of 3 bytes (2.10 row 30). -/
theorem witness_DecodeWritesTheContents_empty :
    let x := boxC.take 11 ++ [0, 0, 0, 0, 0, 0, 0, 0] ++ [0, 0, 0, 0] ++ [0x08, 0x03, 0, 0, 0, 0x12, 0x34, 0x56]
    (st x).RangesOk .decode ∧ (st x).SourceIs x ∧ parseContainer tc x = .ok ⟨false, 0, [], 0, 8, [0x12, 0x34, 0x56]⟩ ∧
      tableTotal [] = 0 := ⟨rangesOk_of (by decide), sourceIs_of (by decide), by decide +kernel, by decide⟩
/-- What ENCODE wrote in 2.9 row 1 is C, and a state that decodes it. -/
theorem witness_DecodeOfEncodeIsTheInput :
    let x : Bytes := [0x41, 0x41, 0x41, 0x42]
    let s := st x 49
    let u := st boxC 4
    s.RangesOk (.encode false) ∧ s.SourceIs x ∧
      (∀ e ∈ codeGen (treeBuild (freqTable (rleForward x))), e.2.length ≤ s.cfg.codeLenMax.val) ∧
      28 + 10 * (freqTable (rleForward x)).length +
        ((payloadBits (codeGen (treeBuild (freqTable (rleForward x)))) (rleForward x)).length + 7) / 8 ≤
          s.latch.ops.dstCap.toNat ∧
      u.cfg = s.cfg ∧ u.RangesOk .decode ∧ u.SourceIs boxC ∧ x.length ≤ u.latch.ops.dstCap.toNat :=
  ⟨rangesOk_of (by decide), sourceIs_of (by decide), by decide +kernel, by decide +kernel, rfl, rangesOk_of (by decide),
    sourceIs_of (by decide), by decide⟩
theorem witness_TruncatedContainerIsTrunc :
    let x : Bytes := [0x41, 0x41, 0x41, 0x42]
    let s := st boxC.dropLast 0
    encodeContainer s.cfg x false = .ok ⟨boxC, 2, 2, 1, 2⟩ ∧ x.length < 2 ^ 32 ∧ s.RangesOk .decode ∧
      s.SourceIs boxC.dropLast :=
  ⟨by decide +kernel, by decide, rangesOk_of (by decide), sourceIs_of (by decide)⟩

/-- RANGE: the source ends one byte behind MEM (2.1 row 10), an overlap that is not in place (2.8 row 6). -/
theorem witness_BadRangesGiveRange :
    let s : State := { st [] with latch := ⟨0, ⟨0xFFFE, 3, 0x1000, 0, 0, 0, 0⟩⟩ }
    let u := st [0x80, 0x81, 0x82, 0x83] 4 0 0 0 1
    ¬ s.RangesOk .rleEnc ∧ ¬ u.RangesOk .xor ∧ (st []).RangesOk .xor :=
  ⟨not_rangesOk_of (by decide), not_rangesOk_of (by decide), rangesOk_of (by decide)⟩
theorem witness_MissingTreeOrTableGivesState :
    (st []).RangesOk .unpack ∧ ¬ StateOk .unpack (st []).status ∧ StateOk .unpack (withTree row1 (st [])).status := by
  refine ⟨rangesOk_of (by decide), fun h => absurd (h.1 (.inr rfl)) (by decide), ?_, ?_⟩
  · intro _; decide
  · intro h; rcases h with h | h <;> simp at h
theorem witness_ErrorsLeaveWhatTheRuleSays :
    ∃ t, exec .codeGen (st []) = .next t ∧ t.status.err = some .state := ⟨_, rfl, rfl⟩
/-- Of each row of 10_state.md R43: a command that answers a next state. -/
theorem witness_FlagsAfterEachCommand :
    Continues (exec .nop (st [])) ∧ Continues (exec .treeBuild (st (tableBytes row1))) ∧ Continues (exec .codeGen (st [])) ∧
      Continues (exec (.encode true) (st [])) ∧ Continues (exec .clear (st [])) ∧ Continues (exec .decode (st [])) :=
  ⟨exec_continues (by decide), exec_continues (by decide), exec_continues (by decide), exec_continues (by decide),
    exec_continues (by decide), exec_continues (by decide)⟩
theorem witness_CommandsWriteOnlyTheirDestination :
    ∃ t, exec .xor (st [0x80] 1) = .next t ∧ t.status.err = none ∧ hasDst .xor = true ∧ hasDst .treeBuild = false :=
  ⟨_, rfl, rfl, rfl, rfl⟩
theorem witness_CommandsReadOnlyTheirSource :
    let s := st [0x80] 1
    hasSrc .xor = true ∧ ∀ a, s.latch.ops.srcAddr.toNat ≤ a → a < s.latch.ops.srcAddr.toNat + s.latch.ops.srcLen.toNat →
      Memory.read [(0, 0x80), (5, 0x01)] a = s.mem.read a := by
  refine ⟨rfl, fun a _ h => ?_⟩
  have : a = 0 := by
    have h' : a < 0 + 1 := h
    omega
  subst this; rfl
/-- A written source, and one whose only byte is unwritten. -/
theorem witness_OnlyUnwrittenSourcesStopACommand :
    let s := st [0x80] 1
    let u : State := { s with mem := [] }
    s.SourceWritten .xor ∧ ¬ u.SourceWritten .xor ∧ u.RangesOk .xor ∧ StateOk .xor u.status := by
  refine ⟨by unfold State.SourceWritten; decide, by unfold State.SourceWritten; decide, rangesOk_of (by decide), ?_, ?_⟩ <;>
    · intro h; rcases h with h | h <;> simp at h

/-- MEM_SIZE - 1 and MEM_SIZE, outside and inside the ranges in flight. -/
theorem witness_HostMemAccess :
    let s := busy 0x00000009 { st [0x80] with ops := ⟨0, 1, 0xFFFF, 1, 0, 0, 0⟩ }
    s.cfg.memSize.val ≤ 65536 ∧ 65535 < s.cfg.memSize.val ∧ s.DstInFlight 65535 ∧ ¬ s.DstInFlight 65534 ∧
      ¬ s.SrcInFlight 65534 ∧ s.SrcInFlight 0 ∧ ¬ s.DstInFlight 0 :=
  ⟨by decide, by decide, (inFlightDst_iff _ _).1 rfl, fun h => absurd ((inFlightDst_iff _ _).2 h) (by decide),
    fun h => absurd ((inFlightSrc_iff _ _).2 h) (by decide), (inFlightSrc_iff _ _).1 rfl,
    fun h => absurd ((inFlightDst_iff _ _).2 h) (by decide)⟩
/-- XOR in flight from byte 0 to byte 65535: the first byte of the source and the last of the destination race, the bytes beside
them and a write while an illegal word is in flight do not. -/
theorem witness_HostRaceIsAFault :
    let s := busy 0x00000009 { st [0x80] with ops := ⟨0, 1, 0xFFFF, 1, 0, 0, 0⟩ }
    let u := busy 0x0000000D { st [0x80] with ops := ⟨0, 1, 0xFFFF, 1, 0, 0, 0⟩ }
    s.status.busy = true ∧ decodeWord s.latch.cmd = .ok .xor ∧ 65535 < s.cfg.memSize.val ∧ s.InDstRange .xor 65535 ∧
      s.InSrcRange .xor 0 ∧ hostAccess (.memWrite 0 0) s = .fault .hostRace ∧
      hostAccess (.memWrite 65535 0) s = .fault .hostRace ∧ Continues (hostAccess (.memWrite 1 0) s) ∧
      Continues (hostAccess (.memWrite 65534 0) s) ∧ Continues (hostAccess (.memWrite 0 0) u) := by
  refine ⟨by decide, by decide, by decide, ⟨by decide, by decide, by decide⟩, ⟨by decide, by decide, by decide⟩, rfl, rfl,
    ⟨_, rfl⟩, ⟨_, rfl⟩, ⟨_, rfl⟩⟩
theorem witness_RegAccessIsAlignedWords :
    (0xFC % 4 = 0 ∧ 0xFC < 0x100) ∧ ¬ (0x100 % 4 = 0 ∧ 0x100 < 0x100) ∧ ¬ (0x06 % 4 = 0 ∧ 0x06 < 0x100) := by decide
theorem witness_ReservedReadZeroIgnoreWrites :
    (0x44 ≤ 0x44 ∧ 0x44 < 0x100 ∧ 0x44 % 4 = 0) ∧ (0x44 ≤ 0xFC ∧ 0xFC < 0x100 ∧ 0xFC % 4 = 0) ∧
      (0x000003F9 : Word).getLsbD 1 = (0 : Word).getLsbD 1 ∧ (0x000003F9 : Word).getLsbD 2 = (0 : Word).getLsbD 2 ∧
      (0xFFFFFFFE : Word).getLsbD 0 = (0 : Word).getLsbD 0 := by decide
theorem witness_StatusReadAndWrite :
    let s : State := { st [] with status := ⟨true, true, true, true, some .nocode, true, true⟩ }
    10 ≤ 10 ∧ s.readOffset 0x08 = 0x0000037F ∧ (s.readOffset 0x08).getLsbD 10 = false := by decide
theorem witness_InterruptIsDoneAndEnable :
    (0 : Word).getLsbD 0 = false ∧ (2 : Word).getLsbD 1 = true ∧ (st []).status.busy = false ∧
      State.irq { st [] with ie := true, status := { Status.reset with done := true } } = true := by decide
theorem witness_HostAccessesKeepResults :
    ∃ t, hostAccess (.regWrite 0x04 0x0000000D) (busy 0x00000000 (st [])) = .next t := ⟨_, rfl⟩
theorem witness_CmdLineIssuesAndRuns :
    let s : State := { st [] with host := expandLine (.cmd .decode) ++ [.wait] }
    s.status.busy = false ∧ s.turns = [] ∧ s.host = expandLine (.cmd .decode) ++ [.wait] := ⟨rfl, rfl, rfl⟩
theorem witness_ResetEventResetsTheBlock :
    ({ busy 0x00000000 (st []) with turns := [.reset] } : State).turns = .reset :: [] := rfl
/-- A state with a table meets the invariant, and steps. -/
theorem witness_StepKeepsTheInvariant :
    State.Inv { busy 0x00000005 (State.resetWith tc) with tree := none, status := ⟨true, false, false, false, none, true, false⟩ } ∧
      Continues (step { busy 0x00000005 (State.resetWith tc) with
        tree := none, status := ⟨true, false, false, false, none, true, false⟩ }) := by
  refine ⟨⟨⟨Memory.wf_nil, by intro c hc; cases hc⟩, fun _ => ⟨rfl, rfl, rfl, rfl⟩, fun _ => ⟨[], 0, by decide, rfl, rfl⟩,
    fun h => ?_⟩, _, rfl⟩
  cases h
theorem witness_StepKeepsTheParameters : Continues (step (State.resetWith tc)) := ⟨_, rfl⟩

end Sys2Proof.Tests
end

section
/-! The parameters of the instance are fixed (00_scope.md R6): no register write, no access of the host, no command and no
reset changes them, so no step does. -/

namespace Sys2Proof.Machine

/-- CMD writes included: no register holds a parameter that a write could change (10_state.md R33, R41). -/
@[simp] theorem State.writeOffset_cfg (s : State) (off : Nat) (v : Word) : (s.writeOffset off v).cfg = s.cfg := by
  obtain ⟨ie, ops, hw⟩ | hw | ⟨-, hw⟩ | ⟨-, hw⟩ := writeOffset_cases s off v
  · rw [hw]
  · rw [hw]
  · rw [hw, State.issue_cfg]
  · rw [hw, State.dropWrite_cfg]

theorem hostAccess_next_cfg {s t : State} {op : HostOp} (h : hostAccess op s = .next t) : t.cfg = s.cfg := by
  obtain ⟨r, draws, host, rfl⟩ | ⟨off, v, -, -, rfl⟩ | ⟨a, b, -, -, -, -, rfl⟩ := hostAccess_next h
  · rfl
  · exact s.writeOffset_cfg off v
  · rfl

/-- A command ends in an error completion or a success, and both keep the parameters (44_control.md R352). -/
theorem exec_next_cfg {i : Instr} {s t : State} (h : exec i s = .next t) : t.cfg = s.cfg := by
  obtain ⟨e, rfl, -⟩ | ⟨x, r, -, -, -, rfl⟩ := exec_next h
  · exact s.completeErr_cfg ..
  · exact s.completeOk_cfg r

/-- Settles O60: each of the six things a step can do keeps the parameters. -/
theorem stepKeepsTheParameters : Obligations.StepKeepsTheParameters := by
  intro s t h
  obtain ⟨-, -, rfl⟩ | ⟨op, rest, -, -, hacc⟩ | ⟨i, -, -, -, hexec⟩ | ⟨-, -, -, rfl⟩ | ⟨-, -, rfl⟩ | ⟨-, rfl⟩ := step_next h
  · rfl
  · exact (hostAccess_next_cfg hacc).trans rfl
  · exact (exec_next_cfg hexec).trans rfl
  · exact State.completeErr_cfg ..
  · rfl
  · exact State.resetEvent_cfg _

end Sys2Proof.Machine
end

section
/-! TREE, CT, TV, CV and SZMIS of a success, command by command (10_state.md R43), and the flags after each command. -/

namespace Sys2Proof.Machine

/-- The successes of command `i` (10_state.md R43): but for TREE_BUILD and CODE_GEN, which set one table each, a success keeps
TREE, CT, TV and CV or clears the two flags. -/
def IsSuccessOf (s : State) (r : Success) : Instr → Prop
  | .treeBuild => ∃ es total res, es.length ≤ maxEntries ∧ validateEntries es = .ok total ∧
      r = { s.plainSuccess [] res with tree := treeBuild es, tv := true, cv := false }
  | .codeGen => ∃ res, maxCodeLen (codeGen s.tree) ≤ s.cfg.codeLenMax.val ∧
      r = { s.plainSuccess [] res with ct := codeGen s.tree, cv := true }
  | .encode _ => ∃ out res, r = s.clearingSuccess out res false
  | .decode => ∃ out res mis, r = s.clearingSuccess out res mis
  | .clear => ∃ out res, r = s.clearingSuccess out res false
  | _ => ∃ out res, r = s.plainSuccess out res

/-- The table TREE_BUILD builds from is short enough and valid (41_huffman.md R206). -/
theorem treeBuildBody_eq_ok {x : Bytes} {t : Option HuffTree} {res : ResultRegs} (h : treeBuildBody x = .ok (t, res)) :
    ∃ es total, es.length ≤ maxEntries ∧ validateEntries es = .ok total ∧ t = treeBuild es := by
  simp only [treeBuildBody, bind_eq_ok, need_eq_ok, decide_eq_true_eq, Except.ok.injEq, Prod.mk.injEq] at h
  obtain ⟨-, -, -, hn, total, hv, rfl, -⟩ := h
  exact ⟨_, total, by rwa [length_entriesOf], hv, rfl⟩

/-- CODE_GEN makes the code table of TREE, with no code longer than CODE_LEN_MAX (41_huffman.md R212). -/
theorem codeGenBody_eq_ok {n : Nat} {t : Option HuffTree} {c : CodeTable} {res : ResultRegs}
    (h : codeGenBody n t = .ok (c, res)) : maxCodeLen (codeGen t) ≤ n ∧ c = codeGen t := by
  simp only [codeGenBody, bind_eq_ok, need_eq_ok, decide_eq_true_eq, Except.ok.injEq, Prod.mk.injEq] at h
  obtain ⟨-, hn, rfl, -⟩ := h
  exact ⟨hn, rfl⟩

/-- A data command's success keeps the tables. -/
theorem plainOf_eq_ok {s : State} {x : Except Err (Bytes × ResultRegs)} {r : Success} (h : s.plainOf x = .ok r) :
    ∃ out res, r = s.plainSuccess out res := by
  obtain ⟨p, -, rfl⟩ := map_eq_ok.1 h
  exact ⟨p.1, p.2, rfl⟩

theorem isSuccessOf_of_execBody {i : Instr} {s : State} {x : Bytes} {r : Success} (h : execBody i s x = .ok r) :
    IsSuccessOf s r i := by
  cases i with
  | nop => exact ⟨_, _, (Except.ok.inj h).symm⟩
  | treeBuild =>
    obtain ⟨⟨t, res⟩, hb, rfl⟩ := map_eq_ok.1 h
    obtain ⟨es, total, hn, hv, rfl⟩ := treeBuildBody_eq_ok hb
    exact ⟨es, total, res, hn, hv, rfl⟩
  | codeGen =>
    obtain ⟨⟨c, res⟩, hb, rfl⟩ := map_eq_ok.1 h
    obtain ⟨hn, rfl⟩ := codeGenBody_eq_ok hb
    exact ⟨res, hn, rfl⟩
  | codeQuery => exact ⟨_, _, (Except.ok.inj h).symm⟩
  | encode prot =>
    obtain ⟨p, -, rfl⟩ := map_eq_ok.1 h
    exact ⟨p.1, p.2, rfl⟩
  | decode =>
    obtain ⟨p, -, rfl⟩ := map_eq_ok.1 h
    exact ⟨p.1, p.2.1, p.2.2, rfl⟩
  | clear => exact ⟨_, _, (Except.ok.inj h).symm⟩
  | rleEnc | rleDec | freq | pack | unpack | xor => exact plainOf_eq_ok h

/-- CLEAR has no range, needs no state and always succeeds (44_control.md R361). -/
theorem exec_clear (s : State) : exec .clear s = .next (s.completeOk (s.clearingSuccess [] ResultRegs.zero false)) := rfl

/-- TV, CV and SZMIS after command `i`, as the rows of 10_state.md R43 say. -/
def FlagsAfter (s t : State) : Instr → Prop
  | .treeBuild => t.status.tv = t.status.err.isNone ∧ t.status.cv = false ∧ t.status.szmis = false
  | .codeGen => t.status.tv = s.status.tv ∧ t.status.szmis = false ∧
      (t.status.err = none → t.status.cv = true) ∧ (t.status.err = some .alloc → t.status.cv = false) ∧
      (t.status.err = some .state → t.status.cv = s.status.cv)
  | .encode _ => t.status.tv = false ∧ t.status.cv = false ∧ t.status.szmis = false
  | .decode => t.status.tv = false ∧ t.status.cv = false ∧ (t.status.err ≠ none → t.status.szmis = false)
  | .clear => t.status.tv = false ∧ t.status.cv = false ∧ t.status.szmis = false
  | _ => t.status.tv = s.status.tv ∧ t.status.cv = s.status.cv ∧ t.status.szmis = false

theorem flagsAfter_completeOk {i : Instr} {s : State} {r : Success} (h : IsSuccessOf s r i) :
    FlagsAfter s (s.completeOk r) i := by
  cases i with
  | treeBuild =>
    obtain ⟨es, total, res, -, -, rfl⟩ := h
    exact ⟨rfl, rfl, rfl⟩
  | codeGen =>
    obtain ⟨res, -, rfl⟩ := h
    exact ⟨rfl, rfl, fun _ => rfl, nofun, nofun⟩
  | decode =>
    obtain ⟨out, res, mis, rfl⟩ := h
    exact ⟨rfl, rfl, fun h => absurd rfl h⟩
  | nop | rleEnc | rleDec | freq | codeQuery | pack | unpack | xor | encode | clear =>
    obtain ⟨out, res, rfl⟩ := h
    exact ⟨rfl, rfl, rfl⟩

theorem flagsAfter_completeErr {i : Instr} (hi : i ≠ .clear) (s : State) (d : Bool) (e : Err) :
    FlagsAfter s (s.completeErr d e (execOnErr i s e)) i := by
  cases i with
  | clear => exact absurd rfl hi
  | codeGen =>
    refine ⟨rfl, rfl, nofun, fun h => ?_, fun h => ?_⟩
    · obtain rfl : e = .alloc := Option.some.inj h
      rfl
    · obtain rfl : e = .state := Option.some.inj h
      rfl
  | decode => exact ⟨rfl, rfl, fun _ => rfl⟩
  | nop | rleEnc | rleDec | freq | treeBuild | codeQuery | pack | unpack | xor | encode => exact ⟨rfl, rfl, rfl⟩

theorem flagsAfter_exec {i : Instr} {s t : State} (h : exec i s = .next t) : FlagsAfter s t i := by
  by_cases hi : i = .clear
  · subst hi
    rw [exec_clear] at h
    exact Host.Outcome.next.inj h ▸ ⟨rfl, rfl, rfl⟩
  · obtain ⟨e, rfl, -⟩ | ⟨x, r, -, -, hb, rfl⟩ := exec_next h
    · exact flagsAfter_completeErr hi s _ e
    · exact flagsAfter_completeOk (isSuccessOf_of_execBody hb)

/-- Settles O42: a command ends in an error completion or in one of its successes, and each leaves the flags of its row. -/
theorem flagsAfterEachCommand : Obligations.FlagsAfterEachCommand := by
  intro i s t h
  have hf := flagsAfter_exec h
  refine ⟨?_, ?_, ?_, ?_, ?_⟩
  · rintro (rfl | rfl | rfl | rfl | rfl | rfl | rfl | rfl) <;> exact hf
  · rintro rfl; exact hf
  · rintro rfl; exact hf
  · rintro (⟨prot, rfl⟩ | rfl) <;> exact hf
  · rintro rfl; exact hf

end Sys2Proof.Machine
end

section
/-! The invariant of the state (20_memory.md R70, 44_control.md R350, 10_state.md R46, R49) at reset, under the accesses of the
host, under the completion of a command and under reset. -/

namespace Sys2Proof.Machine

/-! ### MEM -/

/-- A byte string written inside MEM keeps MEM canonical and inside MEM_SIZE. -/
theorem State.MemInv.writeBytes {s t : State} (h : s.MemInv) {a : Nat} {bs : Bytes}
    (hin : bs = [] ∨ a + bs.length ≤ s.cfg.memSize.val) (hmem : t.mem = s.mem.writeBytes a bs) (hcfg : t.cfg = s.cfg) :
    t.MemInv := by
  obtain ⟨hwf, hlt⟩ := h
  rw [State.MemInv, hmem, hcfg]
  refine ⟨Memory.wf_writeBytes hwf a bs, fun c hc => ?_⟩
  obtain hc | ⟨ha, hc⟩ := Memory.mem_writeBytes hc
  · exact hlt c hc
  · obtain rfl | hin := hin
    · rw [List.length_nil] at hc; omega
    · omega

/-- An error completion writes the destination range or nothing (60_exceptions.md R403). -/
theorem State.MemInv.completeErr {s : State} (h : s.MemInv) {d : Bool} {e : Err} (f : ErrFlags)
    (hdst : d = true → e.spoilsDst = true → s.latch.ops.dst + s.latch.ops.cap ≤ s.cfg.memSize.val) :
    (s.completeErr d e f).MemInv := by
  have hmem := s.completeErr_mem d e f
  split at hmem
  · next hc =>
    rw [Bool.and_eq_true] at hc
    exact h.writeBytes (.inr (by rw [length_freeBytes]; exact hdst hc.1 hc.2)) hmem (s.completeErr_cfg d e f)
  · exact h.writeBytes (a := 0) (bs := []) (.inl rfl) hmem (s.completeErr_cfg d e f)

/-- The output of a command whose ranges are acceptable lies inside MEM (20_memory.md R81). -/
theorem State.MemInv.completeOk {s : State} (h : s.MemInv) {i : Instr} {x : Bytes} {r : Success} (hr : s.RangesOk i)
    (hb : execBody i s x = .ok r) : (s.completeOk r).MemInv := by
  obtain ⟨-, hdst, -⟩ := hr
  obtain ⟨hout, hnone⟩ := execBody_out hb
  refine h.writeBytes ?_ (s.completeOk_mem r) (s.completeOk_cfg r)
  cases hd : hasDst i with
  | false => exact .inl (hnone hd)
  | true => exact .inr ((Nat.add_le_add_left (hout hd).1 _).trans (hdst hd))

/-! ### TREE and CT -/

/-- Where TREE and CT stay, TV does not rise and CV falls or stays with TV, they are as 10_state.md R46 and R49 say. -/
theorem State.Inv.tables_of_flags {s t : State} (h : s.Inv) (hcfg : t.cfg = s.cfg) (htree : t.tree = s.tree) (hct : t.ct = s.ct)
    (htv : t.status.tv = true → s.status.tv = true)
    (hcv : t.status.cv = false ∨ t.status.cv = s.status.cv ∧ t.status.tv = s.status.tv) : t.TreeInv ∧ t.TableInv := by
  refine ⟨fun ht => htree ▸ h.tree (htv ht), fun hc => ?_⟩
  obtain hcv | ⟨hcv, htv'⟩ := hcv
  · rw [hcv] at hc; cases hc
  · rw [htv', hct, htree, hcfg]
    exact h.table (hcv ▸ hc)

/-! ### Reset and the host -/

/-- Settles O58: MEM is empty, and no flag is set. -/
theorem resetMeetsTheInvariant : Obligations.ResetMeetsTheInvariant :=
  fun _ => ⟨⟨Memory.wf_nil, nofun⟩, nofun, nofun, nofun⟩

theorem State.Inv.resetEvent (s : State) : s.resetEvent.Inv :=
  have h := resetMeetsTheInvariant s.cfg
  ⟨h.mem, h.flight, h.tree, h.table⟩

/-- A register write touches neither MEM nor the tables, and leaves the flight fields as 44_control.md R350 and R353 say. -/
theorem State.Inv.writeOffset {s : State} (h : s.Inv) (off : Nat) (v : Word) : (s.writeOffset off v).Inv := by
  obtain ⟨ie, ops, hw⟩ | hw | ⟨-, hw⟩ | ⟨-, hw⟩ := writeOffset_cases s off v
  · exact hw ▸ ⟨h.mem, h.flight, h.tree, h.table⟩
  · refine hw ▸ ⟨h.mem, fun hb => ?_, h.tree, h.table⟩
    obtain ⟨hdone, hrest⟩ := h.flight hb
    exact ⟨by simp [Status.write, hdone], hrest⟩
  · exact hw ▸ ⟨h.mem, fun _ => ⟨rfl, rfl, rfl, rfl⟩, h.tree, h.table⟩
  · exact hw ▸ ⟨h.mem, h.flight, h.tree, h.table⟩

theorem State.Inv.hostAccess {s t : State} (h : s.Inv) {op : HostOp} (hacc : hostAccess op s = .next t) : t.Inv := by
  obtain ⟨r, draws, host, rfl⟩ | ⟨off, v, -, -, rfl⟩ | ⟨a, b, -, ha, -, -, rfl⟩ := hostAccess_next hacc
  · exact ⟨h.mem, h.flight, h.tree, h.table⟩
  · exact h.writeOffset off v
  · exact ⟨h.mem.writeBytes (bs := [b]) (.inr ha) rfl rfl, h.flight, h.tree, h.table⟩

/-! ### The completion of a command -/

/-- An error's flags: TV kept or cleared, CV cleared or both kept (10_state.md R43). -/
theorem execOnErr_flags (i : Instr) (s : State) (e : Err) :
    ((execOnErr i s e).tv = true → s.status.tv = true) ∧
      ((execOnErr i s e).cv = false ∨ (execOnErr i s e).cv = s.status.cv ∧ (execOnErr i s e).tv = s.status.tv) := by
  cases i with
  | treeBuild | encode | decode => exact ⟨nofun, .inl rfl⟩
  | codeGen =>
    refine ⟨id, ?_⟩
    by_cases he : e = .alloc
    · exact .inl (if_pos he)
    · exact .inr ⟨if_neg he, rfl⟩
  | nop | rleEnc | rleDec | freq | codeQuery | pack | unpack | xor | clear => exact ⟨id, .inr ⟨rfl, rfl⟩⟩

theorem State.Inv.completeErr {s : State} (h : s.Inv) {d : Bool} {e : Err} {f : ErrFlags}
    (hdst : d = true → e.spoilsDst = true → s.latch.ops.dst + s.latch.ops.cap ≤ s.cfg.memSize.val)
    (htv : f.tv = true → s.status.tv = true) (hcv : f.cv = false ∨ f.cv = s.status.cv ∧ f.tv = s.status.tv) :
    (s.completeErr d e f).Inv := by
  obtain ⟨htree, htable⟩ := h.tables_of_flags (t := s.completeErr d e f) (by simp) (by simp) (by simp) htv hcv
  exact ⟨h.mem.completeErr f hdst, nofun, htree, htable⟩

theorem State.Inv.completeOk {s : State} (h : s.Inv) {i : Instr} {x : Bytes} {r : Success} (hr : s.RangesOk i)
    (hs : StateOk i s.status) (hb : execBody i s x = .ok r) : (s.completeOk r).Inv := by
  have htables : (s.completeOk r).TreeInv ∧ (s.completeOk r).TableInv := by
    have hsucc := isSuccessOf_of_execBody hb
    cases i with
    | treeBuild =>
      obtain ⟨es, total, res, hn, hv, rfl⟩ := hsucc
      exact ⟨fun _ => ⟨es, total, hn, hv, rfl⟩, nofun⟩
    | codeGen =>
      obtain ⟨res, hn, rfl⟩ := hsucc
      exact ⟨h.tree, fun _ => ⟨hs.1 (.inl rfl), rfl, hn⟩⟩
    | decode =>
      obtain ⟨out, res, mis, rfl⟩ := hsucc
      exact ⟨nofun, nofun⟩
    | encode | clear =>
      obtain ⟨out, res, rfl⟩ := hsucc
      exact ⟨nofun, nofun⟩
    | nop | rleEnc | rleDec | freq | codeQuery | pack | unpack | xor =>
      obtain ⟨out, res, rfl⟩ := hsucc
      exact ⟨h.tree, h.table⟩
  exact ⟨h.mem.completeOk hr hb, nofun, htables.1, htables.2⟩

/-- An error that spoils the destination is raised behind the range check (60_exceptions.md R406). -/
theorem rangesOk_of_spoils {i : Instr} {s : State} {e : Err} (he : e.spoilsDst = true)
    (h : s.checks i (execPre i s) = .error e ∨ s.checks i (execPre i s) = .ok () ∧
      ∃ x, s.source (portsOf i) = some x ∧ execBody i s x = .error e) : s.RangesOk i := by
  obtain h | ⟨h, -⟩ := h
  · obtain ⟨rfl, -⟩ | ⟨hr, -⟩ | ⟨hr, -⟩ := checks_error h
    · cases he
    · exact hr
    · exact hr
  · exact (checks_ok_iff.1 h).1

theorem State.Inv.exec {i : Instr} {s t : State} (h : s.Inv) (hexec : exec i s = .next t) : t.Inv := by
  obtain ⟨e, rfl, hcause⟩ | ⟨x, r, hchecks, -, hb, rfl⟩ := exec_next hexec
  · obtain ⟨htv, hcv⟩ := execOnErr_flags i s e
    refine h.completeErr (fun hd he => ?_) htv hcv
    obtain ⟨-, hdst, -⟩ := rangesOk_of_spoils he hcause
    exact hdst (hasDst_eq i ▸ hd)
  · obtain ⟨hr, hs, -⟩ := checks_ok_iff.1 hchecks
    exact h.completeOk hr hs hb

/-- An illegal word's completion writes no MEM and keeps the tables (60_exceptions.md R401). -/
theorem State.Inv.completeIllegal {s : State} (h : s.Inv) : s.completeIllegal.Inv :=
  h.completeErr nofun id (.inr ⟨rfl, rfl⟩)

/-- Settles O59: each of the six things a step can do keeps the invariant. -/
theorem stepKeepsTheInvariant : Obligations.StepKeepsTheInvariant := by
  intro s t h hstep
  have hturn (ts : List Agent) (ops : List HostOp) : State.Inv { s with turns := ts, host := ops } :=
    ⟨h.mem, h.flight, h.tree, h.table⟩
  obtain ⟨-, -, rfl⟩ | ⟨op, rest, -, -, hacc⟩ | ⟨i, -, -, -, hexec⟩ | ⟨-, -, -, rfl⟩ | ⟨-, -, rfl⟩ | ⟨-, rfl⟩ := step_next hstep
  · exact hturn _ s.host
  · exact (hturn _ rest).hostAccess hacc
  · exact (hturn _ s.host).exec hexec
  · exact (hturn _ s.host).completeIllegal
  · exact hturn _ s.host
  · exact State.Inv.resetEvent _

end Sys2Proof.Machine
end

section
/-! The register map (10_state.md R33..R42): a register stands at its offset, every other offset holds none, and what the words of
STATUS and CTRL hold bit by bit. -/

namespace Sys2Proof.Machine

/-! ### Offsets -/

theorem regAt_regOffset (r : RegName) : regAt (regOffset r) = some r := by cases r <;> rfl

theorem regOffset_of_regAt {off : Nat} {r : RegName} (h : regAt off = some r) : regOffset r = off :=
  by simpa using List.find?_some h

/-- CLMAX is the last register. -/
theorem regOffset_le (r : RegName) : regOffset r ≤ 0x40 := by cases r <;> decide

/-- No register stands at a reserved word (10_state.md R42). -/
theorem regAt_of_reserved {off : Nat} (h : 0x44 ≤ off) : regAt off = none := by
  cases hr : regAt off with
  | none => rfl
  | some r =>
    have := regOffset_le r
    rw [regOffset_of_regAt hr] at this
    omega

theorem readOffset_regOffset (s : State) (r : RegName) : s.readOffset (regOffset r) = s.readReg r := by
  rw [State.readOffset, regAt_regOffset]

theorem writeOffset_regOffset (s : State) (r : RegName) (v : Word) : s.writeOffset (regOffset r) v = s.writeReg r v := by
  rw [State.writeOffset, regAt_regOffset]

/-! ### The words of STATUS and CTRL -/

/-- A flag's word has the flag at its bit and 0 elsewhere. -/
theorem getLsbD_flagBit (b : Bool) {n : Nat} (hn : n < 32) (k : Nat) : (flagBit b n).getLsbD k = (decide (k = n) && b) := by
  rw [flagBit, BitVec.getLsbD_shiftLeft, BitVec.getLsbD_ofNat]
  cases b with
  | false => simp
  | true =>
    obtain hlt | rfl | hgt := lt_trichotomy k n
    · simp [hlt, hlt.ne]
    · simp [hn]
    · have : 1 < 2 ^ (k - n) := Nat.one_lt_two_pow (by omega)
      simp [hgt.ne', Nat.testBit_lt_two_pow this]

/-- Bit `k` of a STATUS read (10_state.md R37). -/
theorem Status.getLsbD_word (st : Status) (k : Nat) :
    st.word.getLsbD k = (decide (k = 8) && st.tv || decide (k = 9) && st.cv ||
      decide (4 ≤ k) && (errField st.err).getLsbD (k - 4) || decide (k = 3) && st.szmis || decide (k = 2) && st.drop ||
      decide (k = 1) && st.done || decide (k = 0) && st.busy) := by
  have herr : ((errField st.err).setWidth 32 <<< 4).getLsbD k = (decide (4 ≤ k) && (errField st.err).getLsbD (k - 4)) := by
    rw [BitVec.getLsbD_shiftLeft, BitVec.getLsbD_setWidth]
    by_cases hk : k < 8
    · simp [show k < 32 by omega, show k - 4 < 32 by omega, ← decide_not]
    · simp [BitVec.getLsbD_of_ge (errField st.err) (k - 4) (by omega)]
  simp (disch := decide) only [Status.word, BitVec.getLsbD_or, getLsbD_flagBit, herr]

/-- STATUS bits 10 and above are reserved (10_state.md R36, R42). -/
theorem Status.getLsbD_word_reserved (st : Status) {k : Nat} (hk : 10 ≤ k) : st.word.getLsbD k = false := by
  rw [Status.getLsbD_word, BitVec.getLsbD_of_ge (errField st.err) (k - 4) (by omega)]
  simp; omega

/-- STATUS bits 7..4 are the error code (10_state.md R36). -/
theorem Status.extractLsb'_word (st : Status) : st.word.extractLsb' 4 4 = errField st.err := by
  refine BitVec.eq_of_getLsbD_eq fun j hj => ?_
  rw [BitVec.getLsbD_extractLsb', Status.getLsbD_word, Nat.add_sub_cancel_left]
  have hflag (n : Nat) (hn : n < 4 ∨ 8 ≤ n) : 4 + j ≠ n := by omega
  simp [hj, hflag]

/-- CTRL bits 1 and above are reserved (10_state.md R34, R42). -/
theorem getLsbD_ctrlWord_reserved (ie : Bool) {k : Nat} (hk : 1 ≤ k) : (ctrlWord ie).getLsbD k = false := by
  rw [ctrlWord, getLsbD_flagBit ie (by omega), decide_eq_false (by omega), Bool.false_and]

/-- MEM_SIZE and CODE_LEN_MAX fit their registers (00_scope.md R6, 10_state.md R41). -/
theorem memsz_toNat (s : State) : (s.readReg .memsz).toNat = s.cfg.memSize.val :=
  BitVec.toNat_ofNat .. |>.trans (Nat.mod_eq_of_lt (by have := s.cfg.memSize.property; omega))

theorem clmax_toNat (s : State) : (s.readReg .clmax).toNat = s.cfg.codeLenMax.val :=
  BitVec.toNat_ofNat .. |>.trans (Nat.mod_eq_of_lt (by have := s.cfg.codeLenMax.property; omega))

/-! ### The statements about the register map -/

/-- Settles O49: every offset of the map is a register's, and a read or write there is that register's. -/
theorem registerMap : Obligations.RegisterMap := by
  intro s v
  have hread := readOffset_regOffset s
  have hwrite (r : RegName) := writeOffset_regOffset s r v
  refine ⟨⟨hread .cmd, hread .srcAddr, hread .srcLen, hread .dstAddr, hread .dstCap, hread .arg0, hread .arg1, hread .arg2,
      hread .resLen, hread .res0, hread .res1, hread .res2, hread .res3, hread .memsz ▸ memsz_toNat s,
      hread .clmax ▸ clmax_toNat s⟩,
    ⟨hwrite .srcAddr, hwrite .srcLen, hwrite .dstAddr, hwrite .dstCap, hwrite .arg0, hwrite .arg1, hwrite .arg2⟩, ?_⟩
  simp only [List.forall_mem_cons, List.not_mem_nil, false_imp_iff, implies_true, and_true]
  exact ⟨hwrite .resLen, hwrite .res0, hwrite .res1, hwrite .res2, hwrite .res3, hwrite .memsz, hwrite .clmax⟩

/-- Settles O50: no register stands at a reserved word, and CTRL and STATUS are read and written through their defined bits alone. -/
theorem reservedReadZeroIgnoreWrites : Obligations.ReservedReadZeroIgnoreWrites := by
  refine ⟨fun s off v hlo _ _ => ?_, fun s k hk => ?_, fun s k hk => ?_, fun s v v' h => ?_, fun s v v' h₁ h₂ => ?_⟩
  · rw [State.readOffset, State.writeOffset, regAt_of_reserved hlo]
    exact ⟨rfl, rfl⟩
  · exact getLsbD_ctrlWord_reserved s.ie hk
  · exact s.status.getLsbD_word_reserved hk
  · exact congrArg (fun b => { s with ie := b }) h
  · change { s with status := s.status.write v } = { s with status := s.status.write v' }
    rw [Status.write, Status.write, h₁, h₂]

/-- Settles O51: a STATUS read is the word of its fields, a write the write-1-to-clear of DONE and DROP. -/
theorem statusReadAndWrite : Obligations.StatusReadAndWrite := by
  refine ⟨fun s => ?_, fun s k hk => s.status.getLsbD_word_reserved hk, fun s v => writeOffset_regOffset s .status v⟩
  have hw : s.readOffset 0x08 = s.status.word := readOffset_regOffset s .status
  simp only [hw, Status.extractLsb'_word]
  have hbit := s.status.getLsbD_word
  refine ⟨(hbit 0).trans (by simp), (hbit 1).trans (by simp), (hbit 2).trans (by simp), (hbit 3).trans (by simp),
    (hbit 8).trans (by simp), (hbit 9).trans (by simp), ?_⟩
  cases s.status.err with
  | none => rfl
  | some e => cases e <;> rfl

/-- Settles O53: a read adds a reply, a MEM write changes MEM alone, and a register write reaches L and CMD only while BUSY = 0. -/
theorem hostAccessesKeepResults : Obligations.HostAccessesKeepResults := by
  intro s t op h
  obtain ⟨r, draws, host, rfl⟩ | ⟨off, v, -, -, rfl⟩ | ⟨a, b, -, -, -, -, rfl⟩ := hostAccess_next h
  · exact ⟨rfl, rfl, rfl, rfl, rfl, rfl, fun hb => ⟨hb, rfl, rfl⟩⟩
  · obtain ⟨ie, ops, hw⟩ | hw | ⟨hidle, hw⟩ | ⟨-, hw⟩ := writeOffset_cases s off v
    · exact hw ▸ ⟨rfl, rfl, rfl, rfl, rfl, rfl, fun hb => ⟨hb, rfl, rfl⟩⟩
    · exact hw ▸ ⟨rfl, rfl, rfl, rfl, rfl, rfl, fun hb => ⟨hb, rfl, rfl⟩⟩
    · exact hw ▸ ⟨rfl, rfl, rfl, rfl, rfl, rfl, fun hb => absurd hb (by simp [hidle])⟩
    · exact hw ▸ ⟨rfl, rfl, rfl, rfl, rfl, rfl, fun hb => ⟨hb, rfl, rfl⟩⟩
  · exact ⟨rfl, rfl, rfl, rfl, rfl, rfl, fun hb => ⟨hb, rfl, rfl⟩⟩

/-- After reset every register below MEMSZ reads as 0 (10_state.md R51). -/
theorem readReg_resetWith (p : Params) {r : RegName} (h : regOffset r < 0x3C) : (State.resetWith p).readReg r = 0 := by
  cases r with
  | memsz | clmax => exact absurd h (by decide)
  | status => exact (by decide : Status.reset.word = 0)
  | _ => rfl

/-- Settles O56: an offset below MEMSZ is a register that reset clears, or holds none. -/
theorem resetValues : Obligations.ResetValues := by
  refine ⟨fun p => ⟨fun off hoff => ?_, memsz_toNat _, clmax_toNat _, Memory.read_nil, rfl, rfl⟩, Config.params, rfl⟩
  cases hr : regAt off with
  | none => rw [State.readOffset, hr]
  | some r =>
    obtain rfl := regOffset_of_regAt hr
    rw [readOffset_regOffset, readReg_resetWith p hoff]

end Sys2Proof.Machine
end

section
/-! Commands and MEM (20_memory.md R72, R81): what a command writes, what it reads, and what stops it. -/

namespace Sys2Proof.Machine

/-! ### Writes -/

/-- RES_LEN of a success is the length of its output: DST_CAP bounds it, so 32 bits hold it (20_memory.md R81). -/
theorem toNat_resLen_of_execBody {i : Instr} {s : State} {x : Bytes} {r : Success} (h : execBody i s x = .ok r)
    (hd : hasDst i = true) : r.res.resLen.toNat = r.out.length := by
  obtain ⟨hcap, hlen⟩ := (execBody_out h).1 hd
  rw [hlen, BitVec.toNat_ofNat]
  exact Nat.mod_eq_of_lt (hcap.trans_lt s.latch.ops.dstCap.isLt)

/-- A success changes MEM in its output's bytes alone (44_control.md R352). -/
theorem Succeeds.read_outside {s t : State} {out : Bytes} {res : ResultRegs} {mis : Bool} (h : Succeeds s t out res mis)
    {a : Nat} (ha : ¬ (s.latch.ops.dstAddr.toNat ≤ a ∧ a < s.latch.ops.dstAddr.toNat + out.length)) :
    t.mem.read a = s.mem.read a :=
  (h.mem a).trans (if_neg ha)

/-- The output of a success stands at DST_ADDR, each byte of it written. -/
theorem Succeeds.isSome_read {s t : State} {out : Bytes} {res : ResultRegs} {mis : Bool} (h : Succeeds s t out res mis)
    {k : Nat} (hk : k < out.length) : (t.mem.read (s.latch.ops.dstAddr.toNat + k)).isSome = true := by
  rw [h.mem, if_pos (by omega), Nat.add_sub_cancel_left, List.getElem?_eq_getElem hk]
  rfl

/-- Settles O43: an error spoils at most the destination range, and a success writes its output, RES_LEN bytes that fit
DST_CAP. -/
theorem commandsWriteOnlyTheirDestination : Obligations.CommandsWriteOnlyTheirDestination := by
  intro i s t h
  obtain ⟨e, rfl, -⟩ | ⟨x, r, -, -, hb, rfl⟩ := exec_next h
  · rw [← hasDst_eq]
    refine ⟨(completeErr_fails s i e _).outside, fun hd => ?_, nofun⟩
    rw [hd]
    exact s.completeErr_mem false e _
  · have hs := completeOk_succeeds s r
    obtain ⟨hdst, hnone⟩ := execBody_out hb
    refine ⟨fun a ha => hs.read_outside fun ⟨hlo, hhi⟩ => ?_, fun hd => ?_, fun _ hd => ?_⟩
    · cases hd : hasDst i with
      | false => rw [hnone hd, List.length_nil] at hhi; omega
      | true => exact ha ⟨hd, hlo, hhi.trans_le (Nat.add_le_add_left (hdst hd).1 _)⟩
    · rw [State.completeOk_mem, hnone hd, Memory.writeBytes_nil]
    · rw [State.completeOk_res, toNat_resLen_of_execBody hb hd]
      exact ⟨(hdst hd).1, fun k hk => hs.isSome_read hk, fun a ha => hs.read_outside ha⟩

/-! ### Reads -/

/-- A completion that answers `t` from `s` answers `t'` from `s` with MEM `m`: some bytes written at DST_ADDR are all that `t` has
over the MEM of `s`, and `t'` has the same bytes over `m` and every other field as `t`. -/
def SameWrites (s : State) (m : Memory) (t t' : State) : Prop :=
  ∃ out, t.mem = s.mem.writeBytes s.latch.ops.dstAddr.toNat out ∧
    t' = { t with mem := m.writeBytes s.latch.ops.dstAddr.toNat out }

theorem completeErr_sameWrites (s : State) (m : Memory) (d : Bool) (e : Err) (f : ErrFlags) :
    SameWrites s m (s.completeErr d e f) (State.completeErr { s with mem := m } d e f) := by
  unfold State.completeErr
  cases d && e.spoilsDst with
  | false => exact ⟨[], rfl, rfl⟩
  | true => exact ⟨freeBytes s.draws s.latch.ops.cap, rfl, rfl⟩

theorem complete_sameWrites (s : State) (m : Memory) (d : Bool) (onErr : Err → ErrFlags) (x : Except Err Success) :
    SameWrites s m (s.complete d onErr x) (State.complete { s with mem := m } d onErr x) := by
  cases x with
  | error e => exact completeErr_sameWrites s m d e (onErr e)
  | ok r => exact ⟨r.out, rfl, rfl⟩

/-- A command's checks, error flags and pseudocode are functions of the operands, the tables and the source bytes: none reads
MEM (00_scope.md R14). -/
theorem checks_withMem (i : Instr) (s : State) (m : Memory) :
    State.checks { s with mem := m } i (execPre i { s with mem := m }) = s.checks i (execPre i s) := by
  cases i <;> rfl

theorem execOnErr_withMem (i : Instr) (s : State) (m : Memory) : execOnErr i { s with mem := m } = execOnErr i s := by
  cases i <;> rfl

theorem execBody_withMem (i : Instr) (s : State) (m : Memory) : execBody i { s with mem := m } = execBody i s := by
  cases i <;> rfl

/-- A command's MemRead reads the source range alone. -/
theorem source_withMem {i : Instr} {s : State} {m : Memory}
    (h : hasSrc i = true → ∀ a, s.latch.ops.srcAddr.toNat ≤ a →
      a < s.latch.ops.srcAddr.toNat + s.latch.ops.srcLen.toNat → m.read a = s.mem.read a) :
    State.source { s with mem := m } (portsOf i) = s.source (portsOf i) := by
  cases hsrc : hasSrc i with
  | false => rw [source_noSrc hsrc, source_noSrc hsrc]
  | true =>
    rw [State.source, State.source, ← hasSrc_eq, hsrc, if_pos rfl, if_pos rfl]
    exact Memory.readBytes_congr fun k hk => h hsrc _ (Nat.le_add_right _ k) (Nat.add_lt_add_left hk _)

/-- Settles O44: memories that agree on the source range give the same checks and the same source bytes, so the same
completion. -/
theorem commandsReadOnlyTheirSource : Obligations.CommandsReadOnlyTheirSource := by
  intro i s m hagree
  have hrun (u : State) := exec_eq_run i u |>.trans (u.run_eq i (execOnErr i u) (execPre i u) (execBody i u))
  rw [hrun s, hrun { s with mem := m }, checks_withMem i s m, source_withMem hagree, execOnErr_withMem i s m,
    execBody_withMem i s m]
  cases s.checks i (execPre i s) with
  | error e =>
    obtain ⟨out, hmem, heq⟩ := completeErr_sameWrites s m (portsOf i).dst e (execOnErr i s e)
    exact .inr ⟨_, out, rfl, hmem, congrArg _ heq⟩
  | ok _ =>
    cases s.source (portsOf i) with
    | none => exact .inl ⟨_, rfl, rfl⟩
    | some x =>
      obtain ⟨out, hmem, heq⟩ := complete_sameWrites s m (portsOf i).dst (execOnErr i s) (execBody i s x)
      exact .inr ⟨_, out, rfl, hmem, congrArg _ heq⟩

/-! ### Stops -/

/-- Behind its checks a command faults on an unwritten source byte (20_memory.md R72). -/
theorem exec_of_unwritten {i : Instr} {s : State} (hr : s.RangesOk i) (hs : StateOk i s.status) (hp : execPre i s = .ok ())
    (hx : s.source (portsOf i) = none) : exec i s = .fault .readUnwritten := by
  rw [exec_eq_run, State.run_eq, checks_ok_iff.2 ⟨hr, hs, hp⟩, hx]

/-- UNPACK alone checks operands before its MemRead (42_bitpack.md R260). -/
theorem execPre_ok_of_unpackChecks {i : Instr} {s : State}
    (h : i = .unpack → unpackChecks s.tree s.latch.ops.symbolCount s.latch.ops.validBitsArg = .ok ()) :
    execPre i s = .ok () := by
  cases i with
  | unpack => exact h rfl
  | _ => rfl

/-- Settles O45: a command completes or faults on an unwritten source byte, and behind its checks such a byte does stop it. -/
theorem onlyUnwrittenSourcesStopACommand : Obligations.OnlyUnwrittenSourcesStopACommand := by
  refine fun i s => ⟨exec_continues, fun hx hr hs hp => ?_, fun f hf => ?_, fun r => ?_⟩
  · exact exec_of_unwritten hr hs (execPre_ok_of_unpackChecks hp) (Option.not_isSome_iff_eq_none.1 hx)
  · obtain ⟨t, h⟩ | ⟨h, -⟩ := exec_stop i s
    · cases h.symm.trans hf
    · cases h.symm.trans hf; rfl
  · rw [exec_eq_run]
    exact s.run_not_refused i _ _ _ r

end Sys2Proof.Machine
end

section
/-! The host's accesses to MEM and REG (20_memory.md R73, R74, R82): which bytes and words answer, which accesses are refused, and
which are a fault. -/

namespace Sys2Proof.Machine

/-! ### MEM -/

theorem hostMemRead_outside {s : State} {a : Nat} (ha : s.cfg.memSize.val ≤ a) :
    hostMemRead a s = .refused .memOutside := if_neg ha.not_gt

theorem hostMemRead_dstInFlight {s : State} {a : Nat} (ha : a < s.cfg.memSize.val) (hd : s.DstInFlight a) :
    hostMemRead a s = .next { s.reply (.byte (Config.freeByte s.draws)) with draws := s.draws + 1 } := by
  rw [hostMemRead, if_pos ha, if_pos ((inFlightDst_iff s a).2 hd)]

theorem hostMemRead_settled {s : State} {a : Nat} (ha : a < s.cfg.memSize.val) (hd : ¬ s.DstInFlight a) :
    hostMemRead a s = .next (s.reply (.byte (s.hostByte a))) := by
  rw [hostMemRead, if_pos ha, if_neg (mt (inFlightDst_iff s a).1 hd)]

/-- A written byte reads as its value. -/
theorem hostByte_of_read {s : State} {a : Nat} {b : Byte} (h : s.mem.read a = some b) : s.hostByte a = b := by
  rw [State.hostByte, h, Option.getD_some]

theorem hostMemWrite_outside {s : State} {a : Nat} (b : Byte) (ha : s.cfg.memSize.val ≤ a) :
    hostMemWrite a b s = .refused .memOutside := if_neg ha.not_gt

theorem hostMemWrite_settled {s : State} {a : Nat} (b : Byte) (ha : a < s.cfg.memSize.val) (hs : ¬ s.SrcInFlight a)
    (hd : ¬ s.DstInFlight a) : hostMemWrite a b s = .next { s with mem := s.mem.write a b } := by
  rw [hostMemWrite, if_pos ha, if_neg]
  rw [Bool.or_eq_true, inFlightSrc_iff, inFlightDst_iff]
  exact not_or.2 ⟨hs, hd⟩

/-- A MEM write is a fault exactly on a byte in flight, and then it is a host race (20_memory.md R82 (b)). -/
theorem hostMemWrite_eq_fault {s : State} {a : Nat} {b : Byte} {f : Fault} :
    hostMemWrite a b s = .fault f ↔
      f = .hostRace ∧ a < s.cfg.memSize.val ∧ (s.inFlightSrc a || s.inFlightDst a) = true := by
  unfold hostMemWrite
  split
  · next ha =>
    split
    · next hr => simp [ha, hr, eq_comm]
    · next hr => simp [hr]
  · next ha => simp [ha]

/-- Settles O46: an address is outside MEM, in a range in flight or in none, and each access answers by that. -/
theorem hostMemAccess : Obligations.HostMemAccess := by
  refine fun s a b => ⟨fun ha => ⟨hostMemRead_outside ha, hostMemWrite_outside b ha⟩, fun ha hd => ?_, fun ha hd => ?_,
    fun ha hs hd => ?_, fun _ => rfl⟩
  · exact ⟨_, hostMemRead_settled ha hd, fun w => hostByte_of_read⟩
  · exact ⟨_, hostMemRead_dstInFlight ha hd⟩
  · exact ⟨_, hostMemWrite_settled b ha hs hd, fun a' => s.mem.read_write a a' b⟩

/-- The only access of the host that is a fault is a MEM write. -/
theorem eq_memWrite_of_hostAccess_fault {s : State} {op : HostOp} {f : Fault} (h : hostAccess op s = .fault f) :
    ∃ a b, op = .memWrite a b := by
  cases op with
  | memWrite a b => exact ⟨a, b, rfl⟩
  | regRead off | regWrite off v =>
    simp only [hostAccess, hostRegRead, hostRegWrite] at h
    split at h <;> cases h
  | memRead a =>
    simp only [hostAccess, hostMemRead] at h
    split at h
    · split at h <;> cases h
    · cases h
  | wait | regOtherWidth | memWide => cases h

/-- Settles O47: only a MEM write can be a fault, and it is one exactly on a byte in flight. -/
theorem hostRaceIsAFault : Obligations.HostRaceIsAFault := by
  intro s op f
  constructor
  · intro h
    obtain ⟨a, b, rfl⟩ := eq_memWrite_of_hostAccess_fault h
    obtain ⟨rfl, ha, hflight⟩ := hostMemWrite_eq_fault.1 h
    obtain ⟨hbusy, i, hi, hrange⟩ := (inFlight_iff s a).1 hflight
    exact ⟨rfl, hbusy, i, a, b, rfl, hi, ha, hrange⟩
  · rintro ⟨rfl, hbusy, i, a, b, rfl, hi, ha, hrange⟩
    exact hostMemWrite_eq_fault.2 ⟨rfl, ha, (inFlight_iff s a).2 ⟨hbusy, i, hi, hrange⟩⟩

/-! ### REG -/

theorem regOffsetOk_iff {off : Nat} : regOffsetOk off = true ↔ off % 4 = 0 ∧ off < 0x100 := by
  simp [regOffsetOk]

/-- Settles O48: the two REG accesses test the offset, and no other width is an access. -/
theorem regAccessIsAlignedWords : Obligations.RegAccessIsAlignedWords := by
  refine fun s off v => ⟨fun h => ?_, fun h => ?_, fun _ => rfl⟩
  · rw [← regOffsetOk_iff] at h
    exact ⟨if_pos h, if_pos h⟩
  · rw [← regOffsetOk_iff] at h
    exact ⟨if_neg h, if_neg h⟩

end Sys2Proof.Machine
end

section
/-! Command words (30_encoding.md R101..R103): a word is its three fields, and the decoder and the opcode map read one another's
words back. -/

namespace Sys2Proof

/-! ### The fields of a word -/

/-- A word is made of OPC, P and RSV (30_encoding.md R101). -/
theorem word_toNat (w : Word) :
    w.toNat = (opcodeOf w).toNat + 256 * (protectOf w).toNat + 512 * (reservedOf w).toNat := by
  have hw := w.isLt
  have hp : (protectOf w).toNat = w.toNat / 256 % 2 := Nat.toNat_testBit w.toNat 8
  rw [hp, opcodeOf, reservedOf, BitVec.extractLsb'_toNat, BitVec.extractLsb'_toNat, Nat.shiftRight_eq_div_pow,
    Nat.shiftRight_eq_div_pow]
  omega

/-! ### The opcode map -/

/-- The opcodes behind CLEAR's are reserved (30_encoding.md R103). -/
theorem instrOfOpcode_reserved (k : Nat) (p : Bool) : instrOfOpcode (k + 0x0D) p = none := rfl

/-- The map holds exactly the opcodes up to CLEAR's. -/
theorem isSome_instrOfOpcode {opc : Nat} {p : Bool} : (instrOfOpcode opc p).isSome = true ↔ opc ≤ 0x0C := by
  obtain hlt | hge := Nat.lt_or_ge opc 0x0D
  · refine iff_of_true ?_ (Nat.le_of_lt_succ hlt)
    interval_cases opc <;> rfl
  · obtain ⟨k, rfl⟩ := Nat.exists_eq_add_of_le' hge
    rw [instrOfOpcode_reserved]
    exact iff_of_false nofun (by omega)

/-- The command of an opcode has that opcode in its word, and P where the opcode is ENCODE's (30_encoding.md R103). -/
theorem encodeWord_toNat_of_instrOfOpcode {opc : Nat} {p : Bool} {i : Instr} (h : instrOfOpcode opc p = some i)
    (hp : p = false ∨ opc = 0x0A) : (encodeWord i).toNat = opc + 256 * p.toNat := by
  obtain rfl | rfl := hp
  · unfold instrOfOpcode at h
    split at h <;> cases h <;> rfl
  · cases h
    cases p <;> rfl

/-! ### The decoder -/

/-- What a word decodes to, in the three conditions of 30_encoding.md R103. -/
theorem decodeWord_eq_ok {w : Word} {i : Instr} :
    decodeWord w = .ok i ↔
      reservedOf w = 0 ∧ instrOfOpcode (opcodeOf w).toNat (protectOf w) = some i ∧
        (protectOf w = false ∨ opcodeOf w = encodeOpcode) := by
  have hmisplaced : (protectOf w && opcodeOf w != encodeOpcode) = true ↔
      ¬ (protectOf w = false ∨ opcodeOf w = encodeOpcode) := by simp
  simp only [decodeWord, hmisplaced]
  split
  · next hr => exact iff_of_false nofun fun h => hr h.1
  · next hr =>
    split
    · next hi => simp [hi]
    · next hi =>
      split
      · next hp => exact iff_of_false nofun fun h => hp h.2.2
      · next hp => simp only [not_not] at hr hp; simp [hr, hi, hp]

/-- A word is a command exactly when it meets the three conditions of 30_encoding.md R103. -/
theorem exists_decodeWord_eq_ok {w : Word} :
    (∃ i, decodeWord w = .ok i) ↔
      reservedOf w = 0 ∧ (opcodeOf w).toNat ≤ 0x0C ∧ (protectOf w = false ∨ opcodeOf w = encodeOpcode) := by
  simp only [decodeWord_eq_ok, exists_and_left, exists_and_right, ← Option.isSome_iff_exists, isSome_instrOfOpcode]

/-- A command has one word (30_encoding.md R103). -/
theorem encodeWord_of_decodeWord {w : Word} {i : Instr} (h : decodeWord w = .ok i) : encodeWord i = w := by
  obtain ⟨hr, hi, hp⟩ := decodeWord_eq_ok.1 h
  apply BitVec.eq_of_toNat_eq
  rw [encodeWord_toNat_of_instrOfOpcode hi (hp.imp_right (congrArg BitVec.toNat)), word_toNat w, hr]
  rfl

@[simp] theorem decodeWord_encodeWord (i : Instr) : decodeWord (encodeWord i) = .ok i := by
  cases i with
  | encode p => cases p <;> rfl
  | _ => rfl

/-! ### The statements about command words -/

/-- Settles O2: a word decodes on the three conditions, and its fields make it the word of its command. -/
theorem legalWordsAreTheOpcodeMap : Obligations.LegalWordsAreTheOpcodeMap :=
  fun _ => ⟨exists_decodeWord_eq_ok, fun _ => encodeWord_of_decodeWord⟩

/-- Settles O1: for ENCODE with either P bit, and for every other command, the word of the map decodes back. -/
theorem decodeWordOfEncodeWord : Obligations.DecodeWordOfEncodeWord := decodeWord_encodeWord

/-- Settles O3: each legal word is the word of its command, and each illegal word fails its own condition. -/
theorem wordsOfTheMapDecode : Obligations.WordsOfTheMapDecode :=
  have h := decodeWord_encodeWord
  ⟨h .nop, h .rleEnc, h .rleDec, h .freq, h .treeBuild, h .codeGen, h .codeQuery, h .pack, h .unpack, h .xor,
    h (.encode false), h (.encode true), h .decode, h .clear, rfl, rfl, rfl⟩

end Sys2Proof
end

section
/-! The packed payload and the stream decoder (30_encoding.md R107..R109, 42_bitpack.md R261..R263): packed bits read back, the
limit is the number of bits, and the decoder answers what `Decodes` says. -/

namespace Sys2Proof.Machine

/-! ### Packed bits and the bit limit -/

/-- Past the end of a payload every stream bit is 0. -/
theorem bitAt_of_length_le {pl : Bytes} {k : Nat} (h : pl.length ≤ k / 8) : bitAt pl k = false := by
  rw [bitAt, List.getD_eq_default _ _ h]
  exact BitVec.getLsbD_zero

/-- Stream bit `k` of a payload is bit `k` of what was packed, and 0 behind it (30_encoding.md R107, R108). -/
theorem bitAt_packed (bits : BitString) (k : Nat) : bitAt (packed bits) k = bits.getD k false := by
  obtain hk | hk := lt_or_ge (k / 8) (ceilDiv8 bits.length)
  · have hbyte : (packed bits).getD (k / 8) 0 = packedByte bits (k / 8) := by simp [packed, List.getD, hk]
    rw [bitAt, hbyte, packedByte_bit bits (k / 8) (Nat.mod_lt k (by omega)), Nat.div_add_mod]
  · rw [bitAt_of_length_le (by rwa [length_packed]), List.getD_eq_default]
    rw [ceilDiv8] at hk
    omega

/-- The last byte of a payload holds 1 to 8 valid bits (30_encoding.md R109). -/
theorem validBits_bounds (n : Nat) : 1 ≤ validBits n ∧ validBits n ≤ 8 := by
  unfold validBits
  split <;> omega

theorem validBits_of_mod_ne_zero {n : Nat} (h : n % 8 ≠ 0) : validBits n = n % 8 := by
  rw [validBits, if_neg (by omega)]
  omega

/-- No bits at all count as eight valid ones too. -/
theorem validBits_of_mod_eq_zero {n : Nat} (h : n % 8 = 0) : validBits n = 8 := by
  unfold validBits
  split <;> omega

/-- The bit limit of the payload of `n` bits is `n` (30_encoding.md R109). -/
theorem bitLimit_validBits (n : Nat) : bitLimit (ceilDiv8 n) (validBits n) = n := by
  unfold bitLimit validBits ceilDiv8
  obtain rfl | hn := Nat.eq_zero_or_pos n
  · rfl
  · rw [if_neg (by omega), if_neg (by omega)]
    omega

/-- Settles O26: the payload has the bytes of its length, and every stream bit is the bit that was packed. -/
theorem packedBitsReadBack : Obligations.PackedBitsReadBack :=
  fun bits => ⟨length_packed bits, fun k => (bitAt_eq _ k).symm.trans (bitAt_packed bits k)⟩

/-- Settles O27: the valid bits of the last byte, on top of the full bytes before it, are all the bits. -/
theorem bitLimitOfPackedBits : Obligations.BitLimitOfPackedBits := by
  intro n
  obtain ⟨hlo, hhi⟩ := validBits_bounds n
  exact ⟨hlo, hhi, bitLimit_validBits n, validBits_of_mod_ne_zero, validBits_of_mod_eq_zero⟩

/-! ### The stream decoder -/

theorem ReadsSymbols.concat {pl : Bytes} {lim : Nat} {t : HuffTree} {pos pos' pos'' : Nat} {ss : List Symbol} {s : Symbol}
    (h : ReadsSymbols pl lim t pos ss pos') (hs : ReadsSymbol pl lim t pos' s pos'') :
    ReadsSymbols pl lim t pos (ss ++ [s]) pos'' := by
  induction h with
  | done pos => exact .more _ _ _ _ _ hs (.done _)
  | more pos p q s' ss' hs' _ ih => exact .more _ _ _ _ _ hs' (ih hs)

/-- Reading `cnt` symbols always has an answer: that of reading one symbol less, if it is an error, else what the last symbol
gives. -/
theorem exists_decodes (pl : Bytes) (lim : Nat) (t : HuffTree) (add : Symbol → Bytes) (cap cnt : Nat) :
    ∃ r, Decodes pl lim t add cap cnt r := by
  induction cnt with
  | zero => exact ⟨_, .all [] 0 rfl (.done 0) (Nat.zero_le _)⟩
  | succ cnt ih =>
    have hstep {n : Nat} (h : n < cnt) : n < cnt + 1 := h.trans (Nat.lt_succ_self cnt)
    obtain ⟨_, hr⟩ := ih
    cases hr with
    | all ss pos hcnt hss hfit =>
      have hlt : ss.length < cnt + 1 := hcnt ▸ Nat.lt_succ_self _
      by_cases hnext : ∃ s pos', ReadsSymbol pl lim t pos s pos'
      · obtain ⟨s, pos', hs⟩ := hnext
        obtain hle | hover := le_or_gt ((ss.flatMap add).length + (add s).length) cap
        · exact ⟨_, .all (ss ++ [s]) pos' (by simpa using hcnt) (hss.concat hs) (by simpa using hle)⟩
        · exact ⟨_, .alloc ss pos s pos' hlt hss hfit hs hover⟩
      · exact ⟨_, .trunc ss pos hlt hss hfit fun s pos' hs => hnext ⟨s, pos', hs⟩⟩
    | trunc ss pos hlt hss hfit hnone => exact ⟨_, .trunc ss pos (hstep hlt) hss hfit hnone⟩
    | alloc ss pos s pos' hlt hss hfit hs hover => exact ⟨_, .alloc ss pos s pos' (hstep hlt) hss hfit hs hover⟩

section Emit

variable {pl : Bytes} {lim cap : Nat} {t : HuffTree} {add : Symbol → Bytes} {emit : Bytes → Symbol → Except Err Bytes}
  (hemit : ∀ out s, emit out s = if out.length + (add s).length ≤ cap then .ok (out ++ add s) else .error .alloc)

include hemit

/-- On symbols that the payload holds and whose bytes fit, the decoder adds their bytes and goes on behind them. -/
theorem decodeStream_of_readsSymbols {pos pos' : Nat} {ss : List Symbol} (h : ReadsSymbols pl lim t pos ss pos') (n : Nat)
    {out : Bytes} (hfit : out.length + (ss.flatMap add).length ≤ cap) :
    decodeStream t pl lim emit (ss.length + n) pos out = decodeStream t pl lim emit n pos' (out ++ ss.flatMap add) := by
  induction h generalizing out with
  | done pos => simp
  | more pos p q s ss hs _ ih =>
    rw [List.flatMap_cons, List.length_append] at hfit
    have hs' : emit out s = .ok (out ++ add s) := (hemit out s).trans (if_pos (by omega))
    rw [List.length_cons, Nat.succ_add]
    simp only [decodeStream, decodeSymbol_eq_ok.2 hs, hs']
    rw [ih (by rw [List.length_append]; omega), List.flatMap_cons, List.append_assoc]

/-- What `Decodes` says is what the decoder answers (42_bitpack.md R263). -/
theorem decodeStream_of_decodes {cnt : Nat} {r : Except Err (Bytes × Nat)} (h : Decodes pl lim t add cap cnt r) :
    decodeStream t pl lim emit cnt 0 [] = r := by
  have hread {ss : List Symbol} {pos : Nat} (hss : ReadsSymbols pl lim t 0 ss pos) (hfit : (ss.flatMap add).length ≤ cap)
      (n : Nat) : decodeStream t pl lim emit (ss.length + n) 0 [] = decodeStream t pl lim emit n pos (ss.flatMap add) :=
    decodeStream_of_readsSymbols hemit hss n (by simpa using hfit)
  cases h with
  | all ss pos hlen hss hfit => exact hlen ▸ hread hss hfit 0
  | trunc ss pos hlt hss hfit hnone =>
    obtain ⟨n, rfl⟩ := Nat.exists_eq_add_of_lt hlt
    rw [Nat.add_assoc, hread hss hfit, decodeStream, decodeSymbol_eq_error.2 ⟨rfl, hnone⟩]
  | alloc ss pos s pos' hlt hss hfit hs hover =>
    obtain ⟨n, rfl⟩ := Nat.exists_eq_add_of_lt hlt
    have hs' := (hemit (ss.flatMap add) s).trans (if_neg (Nat.not_le.2 hover))
    rw [Nat.add_assoc, hread hss hfit]
    simp only [decodeStream, decodeSymbol_eq_ok.2 hs, hs']

/-- The decoder answers exactly what `Decodes` says: `Decodes` has an answer, and the decoder gives it. -/
theorem decodeStream_eq_iff {cnt : Nat} {r : Except Err (Bytes × Nat)} :
    decodeStream t pl lim emit cnt 0 [] = r ↔ Decodes pl lim t add cap cnt r := by
  refine ⟨?_, decodeStream_of_decodes hemit⟩
  rintro rfl
  obtain ⟨r, hr⟩ := exists_decodes pl lim t add cap cnt
  rwa [decodeStream_of_decodes hemit hr]

end Emit

theorem decodeStream_emitPair_iff {pl : Bytes} {lim cap cnt : Nat} {t : HuffTree} {r : Except Err (Bytes × Nat)} :
    decodeStream t pl lim (emitPair cap) cnt 0 [] = r ↔ Decodes pl lim t pairField cap cnt r :=
  decodeStream_eq_iff (emitPair_eq cap)

theorem decodeStream_emitRun_iff {pl : Bytes} {lim cap cnt : Nat} {t : HuffTree} {r : Except Err (Bytes × Nat)} :
    decodeStream t pl lim (emitRun cap) cnt 0 [] = r ↔ Decodes pl lim t runField cap cnt r :=
  decodeStream_eq_iff (emitRun_eq cap)

/-- Every symbol of a table has a code in the table's tree (41_huffman.md R211). -/
theorem isSome_code_of_mem_table {es : List Entry} {t : HuffTree} (ht : treeBuild es = some t) {s : Symbol}
    (hs : s ∈ es.map Entry.sym) : ((codeGen (some t)).code s).isSome = true := by
  rw [code_isSome, map_fst_codeGen]
  exact ((leaves_treeBuild ht).map Entry.sym).mem_iff.2 hs

/-- On the payload of pairs, UNPACK's decoder gives the pairs back and stands at the last valid bit (42_bitpack.md R251, R263). -/
theorem decodeStream_packed {t : HuffTree} {ps : List Pair} {cap : Nat}
    (hall : ∀ p ∈ ps, ((codeGen (some t)).code p.sym).isSome = true) (hcap : 2 * ps.length ≤ cap) (n : Nat) :
    let bits := payloadBits (codeGen (some t)) ps
    decodeStream t (packed bits) bits.length (emitPair cap) (ps.length + n) 0 [] =
      decodeStream t (packed bits) bits.length (emitPair cap) n bits.length (pairBytes ps) := by
  intro bits
  rw [decodeStream_codes hall (holdsBits_packed bits) (Nat.zero_add _).le, foldlM_emitPair (by simpa using hcap), ok_bind,
    Nat.zero_add, List.nil_append]

/-- Settles O30: the decoder is `Decodes`, and on a payload that was packed it reads the codes back up to the limit, where no
further symbol ends. -/
theorem decodeStreamInvertsPackPayload : Obligations.DecodeStreamInvertsPackPayload := by
  refine ⟨fun tr pl lim cap cnt r => ⟨decodeStream_emitPair_iff, decodeStream_emitRun_iff⟩, ?_⟩
  intro es tr ps cap _ ht hsyms hcap bits pl lim
  have hlim : lim = bits.length := by
    rw [← bitLimit_validBits bits.length, ← length_packed]; rfl
  have hread := decodeStream_packed (fun p hp => isSome_code_of_mem_table ht (hsyms p hp)) hcap
  rw [hlim, ← pairBytes_eq, ← decodeStream_emitPair_iff, ← decodeStream_emitPair_iff]
  refine ⟨hread 0, (hread 1).trans ?_⟩
  rw [decodeStream, decodeSymbol_at_limit]

end Sys2Proof.Machine
end

section
/-! Host programs (30_encoding.md R116, R117): what a poll reads, and how a `cmd` line issues and runs its command. -/

namespace Sys2Proof.Machine

/-- Bit 0 of a STATUS read is BUSY (10_state.md R37). -/
theorem busy_eq_getLsbD_status (s : State) : (s.readOffset 0x08).getLsbD 0 = s.status.busy :=
  (s.status.getLsbD_word 0).trans (by simp)

/-- A write to CMD while BUSY = 0 is the issue (44_control.md R350). -/
theorem hostAccess_cmd_of_idle {s : State} (h : s.status.busy = false) (v : Word) :
    hostAccess (wrOp .cmd v) s = .next (s.issue v) := by
  have hw : s.writeOffset (regOffset .cmd) v = s.issue v := by
    rw [writeOffset_regOffset, State.writeReg, State.writeCmd, h]; rfl
  rw [← hw]; rfl

/-! ### A step by whose turn it is -/

/-- On the host's turn a step is its next access (20_memory.md R80). -/
theorem step_of_host {s : State} {op : HostOp} {rest : List HostOp} (ha : s.nextAgent = .host) (hh : s.host = op :: rest) :
    step s = hostAccess op { s with host := rest, turns := s.turns.tail } := by
  simp only [step, ha, hostStep, hh]

/-- On the engine's turn a step completes the legal command in flight (44_control.md R352). -/
theorem step_of_engine {s : State} {i : Instr} (ha : s.nextAgent = .engine) (hb : s.status.busy = true)
    (hd : decodeWord s.latch.cmd = .ok i) : step s = exec i { s with turns := s.turns.tail } := by
  simp only [step, ha, engineStep, completeLatched, hb, hd, if_true]

/-- With the turns used up, the engine moves while BUSY = 1 and the host otherwise (notes/assumptions/2.md). -/
theorem nextAgent_of_turns_nil {s : State} (h : s.turns = []) :
    s.nextAgent = if s.status.busy then .engine else .host := by
  rw [State.nextAgent, h]

/-- With the turns used up, an idle block's step is the host's next access. -/
theorem step_of_idle {s : State} {op : HostOp} {rest : List HostOp} (ht : s.turns = []) (hb : s.status.busy = false)
    (hh : s.host = op :: rest) : step s = hostAccess op { s with host := rest } := by
  rw [step_of_host (by rw [nextAgent_of_turns_nil ht, hb]; rfl) hh, ht, List.tail_nil, ← ht]

/-- With the turns used up, a busy block's step completes the legal command in flight. -/
theorem step_of_busy {s : State} {i : Instr} (ht : s.turns = []) (hb : s.status.busy = true)
    (hd : decodeWord s.latch.cmd = .ok i) : step s = exec i s := by
  rw [step_of_engine (by rw [nextAgent_of_turns_nil ht, hb]; rfl) hb hd, ht, List.tail_nil, ← ht]

/-! ### The statements about host programs -/

/-- Settles O54: each pseudo-operation is its expansion, and a poll goes on by the bit of STATUS that is BUSY. -/
theorem pseudoLinesExpand : Obligations.PseudoLinesExpand := by
  refine ⟨fun _ => rfl, rfl, rfl, fun _ _ => rfl, fun _ _ => rfl, rfl, fun s => ?_⟩
  rw [busy_eq_getLsbD_status, hostAccess, hostPoll]
  cases s.status.busy <;> rfl

/-- Settles O55: the host's turn is the CMD write, which issues the command, and the engine's turn after it runs it. -/
theorem cmdLineIssuesAndRuns : Obligations.CmdLineIssuesAndRuns := by
  intro s i rest hidle hturns hhost
  have hissue : step s = .next { s.issue (encodeWord i) with host := rest } :=
    (step_of_idle hturns hidle hhost).trans (hostAccess_cmd_of_idle (s := { s with host := rest }) hidle _)
  exact ⟨_, hissue, rfl, step_of_busy hturns rfl (decodeWord_encodeWord i)⟩

end Sys2Proof.Machine
end

section
/-! The run scan and the frequency table (40_rle.md R150, R151, R170, R171): each pair is a maximal run capped at 255, and the table
has the distinct symbols with their counts in strict order. -/

namespace Sys2Proof.Machine

/-! ### The run scan -/

/-- Inside a run of `b` of which `r` bytes are counted, the scan counts on to the end of the run or to 255 and starts again behind
it (40_rle.md R150). -/
theorem rleScan_eq (b : Byte) (r : Nat) (xs : Bytes) :
    rleScan b r xs =
      let k := min (255 - r) (xs.takeWhile (· == b)).length
      ⟨BitVec.ofNat 8 (r + k), b⟩ :: rleForward (xs.drop k) := by
  induction xs generalizing r with
  | nil => simp [rleScan, rleForward]
  | cons x xs ih =>
    rw [rleScan]
    split
    · next h =>
      obtain ⟨rfl, hr⟩ := h
      have hk : min (255 - r) ((xs.takeWhile (· == x)).length + 1) =
          min (255 - (r + 1)) (xs.takeWhile (· == x)).length + 1 := by omega
      simp [ih, hk, Nat.add_comm 1, Nat.add_assoc]
    · next h =>
      have hk : min (255 - r) ((x :: xs).takeWhile (· == b)).length = 0 := by
        obtain hx | hr := not_and_or.1 h
        · simp [hx]
        · omega
      rw [hk]
      rfl

/-- RleForward is inverted by its expansion (40_rle.md R153). -/
theorem rleInverse_rleForward (x : Bytes) : rleInverse (rleForward x) = x := by
  cases x with
  | nil => rfl
  | cons b xs => exact rleInverse_rleScan b 1 xs (by decide)

/-- A pair for every byte is a source without two equal neighbours: a byte that joins a run takes no pair of its own. -/
theorem length_rleScan_one_eq_iff (b : Byte) (xs : Bytes) :
    (rleScan b 1 xs).length = xs.length + 1 ↔ (b :: xs).IsChain (· ≠ ·) := by
  induction xs generalizing b with
  | nil => simp [rleScan]
  | cons x xs ih =>
    rw [List.isChain_cons_cons, rleScan]
    split
    · next h =>
      have hle := length_rleScan b (1 + 1) xs
      exact iff_of_false (by rw [List.length_cons]; omega) fun hne => hne.1 h.1.symm
    · next h =>
      have hne : b ≠ x := fun hb => h ⟨hb.symm, by decide⟩
      simp [hne, ih]

theorem length_rleForward_eq_iff (x : Bytes) : (rleForward x).length = x.length ↔ x.IsChain (· ≠ ·) := by
  cases x with
  | nil => simp [rleForward]
  | cons b xs => exact length_rleScan_one_eq_iff b xs

/-- Neighbouring pairs have different bytes, but where the first is a run cut at 255. -/
theorem isChain_rleScan (b : Byte) {r : Nat} (hr : r ≤ 255) (xs : Bytes) :
    (rleScan b r xs).IsChain fun p q => p.val = q.val → p.run.toNat = 255 := by
  induction xs generalizing b r with
  | nil => exact .singleton _
  | cons x xs ih =>
    rw [rleScan]
    split
    · next h => exact ih b h.2
    · next h =>
      have hrest := ih x (r := 1) (by decide)
      rw [rleScan_eq] at hrest ⊢
      refine .cons_cons (fun hb => ?_) hrest
      have hcut : r = 255 := by
        by_contra hne
        exact h ⟨hb.symm, by omega⟩
      rw [hcut]
      rfl

theorem isChain_rleForward (x : Bytes) : (rleForward x).IsChain fun p q => p.val = q.val → p.run.toNat = 255 := by
  cases x with
  | nil => exact .nil
  | cons b xs => exact isChain_rleScan b (by decide) xs

/-- Settles O10: the scan of a byte starts with one byte counted. -/
theorem rleForwardTakesMaximalRuns : Obligations.RleForwardTakesMaximalRuns := by
  refine ⟨rfl, fun b xs => ?_⟩
  have hr : min 255 ((xs.takeWhile (· == b)).length + 1) = 1 + min (255 - 1) (xs.takeWhile (· == b)).length := by omega
  simp only [hr, Nat.add_sub_cancel_left]
  exact rleScan_eq b 1 xs

/-- Settles O11: a run length is a byte, so (a) asks only that it is not 0; the other properties are the scan's. -/
theorem rleForwardProperties : Obligations.RleForwardProperties :=
  ⟨fun _ p hp => ⟨run_of_mem_rleForward hp, Nat.le_of_lt_succ p.run.isLt⟩, rleInverse_rleForward,
    fun x => ⟨length_rleForward x, length_rleForward_eq_iff x⟩, isChain_rleForward, rfl⟩

/-! ### The frequency table -/

/-- No symbol stands twice in the table, so its order is strict (40_rle.md R170). -/
theorem freqTable_sorted_lt (ps : List Pair) : (freqTable ps).Pairwise Entry.lt := by
  have hne : (freqTable ps).Pairwise fun a b => a.sym ≠ b.sym := List.pairwise_map.1 (freqTable_nodup ps)
  refine ((freqTable_sorted_le ps).and hne).imp fun {a b} ⟨hle, hne⟩ => ?_
  exact hle.imp_right fun ⟨hcnt, hsym⟩ => ⟨hcnt, BitVec.lt_of_le_ne hsym hne⟩

/-- A symbol of the pairs occurs at most as often as there are pairs, so its count fits 64 bits. -/
theorem toNat_ofNat_count {ps : List Pair} (h : ps.length < 2 ^ 64) (s : Symbol) :
    (BitVec.ofNat 64 ((ps.map Pair.sym).count s)).toNat = (ps.map Pair.sym).count s := by
  have hle : (ps.map Pair.sym).count s ≤ ps.length := by simpa using List.count_le_length (l := ps.map Pair.sym) (a := s)
  rw [BitVec.toNat_ofNat, Nat.mod_eq_of_lt (hle.trans_lt h)]

/-- The entries of the table, with their counts as numbers. -/
theorem mem_freqTable_iff_count {ps : List Pair} (h : ps.length < 2 ^ 64) {e : Entry} :
    e ∈ freqTable ps ↔ e.cnt.toNat = (ps.map Pair.sym).count e.sym ∧ 1 ≤ e.cnt.toNat := by
  rw [mem_freqTable, ← List.one_le_count_iff, ← BitVec.toNat_inj, toNat_ofNat_count h, and_comm]
  exact and_congr_right fun hcnt => by rw [hcnt]

theorem tableTotal_freqTable {ps : List Pair} (h : ps.length < 2 ^ 64) : tableTotal (freqTable ps) = ps.length := by
  let syms := ps.map Pair.sym
  calc tableTotal (freqTable ps)
      = tableTotal (countTable syms) := ((freqTable_perm ps).map _).sum_eq
    _ = (syms.dedup.map fun s => syms.count s).sum := by
      rw [tableTotal, countTable, List.map_map]
      exact congrArg List.sum (List.map_congr_left fun s _ => toNat_ofNat_count h s)
    _ = syms.length := List.sum_map_count_dedup_eq_length syms
    _ = ps.length := List.length_map _

/-- Settles O12: entries and total are the counts of the distinct symbols, and sorting makes the order strict. -/
theorem freqTableCountsAndSorts : Obligations.FreqTableCountsAndSorts :=
  fun ps h => ⟨fun _ _ => mem_freqTable_iff_count h, freqTable_nodup ps, freqTable_sorted_lt ps, tableTotal_freqTable h, rfl⟩

/-- Settles O13: the symbols of the table are distinct, and a run length of at least 1 puts each at 256 or above. -/
theorem freqTableHasAtMost65280Entries : Obligations.FreqTableHasAtMost65280Entries := by
  intro ps hruns
  rw [← List.length_map (f := Entry.sym)]
  refine length_le_of_nodup_runs (freqTable_nodup ps) fun s hs => ?_
  obtain ⟨p, hp, rfl⟩ := mem_freqTable_syms.1 hs
  rw [← runOf_pos_iff, runOf_sym]
  exact hruns p hp

end Sys2Proof.Machine
end

section
/-! The commands RLE_ENC (40_rle.md R155), RLE_DEC (R162) and FREQ (R172): what their pseudocode answers on a pair stream, and the
completion it gives. -/

namespace Sys2Proof.Machine

/-! ### A command that reaches its pseudocode -/

/-- Command `i` reaches its pseudocode with the source bytes `x`: its checks pass, and its MemRead meets no unwritten byte
(60_exceptions.md R406). -/
structure State.Reads (s : State) (i : Instr) (x : Bytes) : Prop where
  ranges : s.RangesOk i
  needs : StateOk i s.status
  pre : execPre i s = .ok ()
  source : s.source (portsOf i) = some x

/-- Where the pseudocode succeeds and touches no table, the command writes its output and results and keeps the tables. -/
theorem State.Reads.succeeds {s : State} {i : Instr} {x out : Bytes} {res : ResultRegs} (h : s.Reads i x)
    (hb : execBody i s x = .ok (s.plainSuccess out res)) :
    ∃ t, exec i s = .next t ∧ KeepsTables s t ∧ Succeeds s t out res false :=
  ⟨_, exec_of_body_ok h.ranges h.needs h.pre h.source hb, ⟨rfl, rfl, rfl, rfl⟩, completeOk_succeeds s _⟩

/-- Where the pseudocode of a command whose errors keep the flags raises `e`, the command fails with `e` and keeps the tables. -/
theorem State.Reads.fails {s : State} {i : Instr} {x : Bytes} {e : Err} (h : s.Reads i x) (hf : execOnErr i s e = s.keptFlags)
    (hb : execBody i s x = .error e) : ∃ t, exec i s = .next t ∧ KeepsTables s t ∧ FailsWith i s t e := by
  refine ⟨_, exec_of_body_error h.ranges h.needs h.pre h.source hb, ?_, completeErr_fails s i e _⟩
  rw [hf]
  exact ⟨State.completeErr_tree .., State.completeErr_ct .., rfl, rfl⟩

/-! ### The pseudocode -/

theorem need_bind {α : Type} (c : Bool) (e : Err) (f : Unit → Except Err α) :
    (need c e >>= f) = if c then f () else .error e := by
  cases c <;> rfl

theorem rleEncBody_eq (cap : Nat) (x : Bytes) :
    rleEncBody cap x =
      if 2 * (rleForward x).length ≤ cap then .ok (pairBytes (rleForward x),
        ⟨BitVec.ofNat 32 (2 * (rleForward x).length), BitVec.ofNat 32 (rleForward x).length, 0, 0, 0⟩)
      else .error .alloc := by
  simp only [rleEncBody, length_pairBytes, need_bind, decide_eq_true_eq]
  rfl

theorem rleDecBody_of_odd {x : Bytes} (h : x.length % 2 = 1) (cap : Nat) : rleDecBody cap x = .error .trunc := by
  rw [rleDecBody, h]
  rfl

/-- On a pair stream RLE_DEC answers what its loop does. -/
theorem rleDecBody_pairBytes (cap : Nat) (ps : List Pair) :
    rleDecBody cap (pairBytes ps) = (rleDecLoop cap ps []).map fun out =>
      (out, ⟨BitVec.ofNat 32 out.length, BitVec.ofNat 32 ps.length, 0, 0, 0⟩) := by
  rw [rleDecBody, length_pairBytes, pairsOf_pairBytes, Nat.mul_mod_right, Nat.mul_div_cancel_left _ two_pos]
  rfl

/-- Behind runs that fit, the loop of RLE_DEC stands at the next pair with their expansion put out. -/
theorem rleDecLoop_of_fits {cap : Nat} {ps : List Pair} (hruns : ∀ p ∈ ps, 1 ≤ p.run.toNat)
    (hfit : (rleInverse ps).length ≤ cap) (qs : List Pair) :
    rleDecLoop cap (ps ++ qs) [] = rleDecLoop cap qs (rleInverse ps) :=
  rleDecLoop_append hruns (by simpa using hfit)

theorem rleDecLoop_of_zero {p : Pair} (h : p.run = 0) (cap : Nat) (qs : List Pair) (out : Bytes) :
    rleDecLoop cap (p :: qs) out = .error .format := by
  rw [rleDecLoop, h]
  rfl

theorem rleDecLoop_of_overflow {cap : Nat} {p : Pair} {out : Bytes} (hrun : 1 ≤ p.run.toNat)
    (h : cap < out.length + p.run.toNat) (qs : List Pair) : rleDecLoop cap (p :: qs) out = .error .alloc := by
  rw [rleDecLoop, need_of_true (decide_eq_true hrun), ok_bind, need_of_false (decide_eq_false h.not_ge)]
  rfl

theorem freqBody_of_odd {x : Bytes} (h : x.length % 2 = 1) (cap : Nat) : freqBody cap x = .error .trunc := by
  rw [freqBody, h]
  rfl

/-- On a pair stream FREQ checks the run lengths, then the room for the table. -/
theorem freqBody_pairBytes (cap : Nat) (ps : List Pair) :
    freqBody cap (pairBytes ps) =
      if ∀ p ∈ ps, 1 ≤ p.run.toNat then
        if 10 * (freqTable ps).length ≤ cap then .ok (tableBytes (freqTable ps),
          ⟨BitVec.ofNat 32 (10 * (freqTable ps).length), BitVec.ofNat 32 (freqTable ps).length, BitVec.ofNat 32 ps.length, 0, 0⟩)
        else .error .alloc
      else .error .format := by
  simp only [freqBody, length_pairBytes, pairsOf_pairBytes, Nat.mul_mod_right, length_tableBytes, need_bind, List.all_eq_true,
    decide_eq_true_eq]
  rfl

/-! ### The commands -/

/-- Settles O14: the pair stream is two bytes a pair, and the room for it is the only check. -/
theorem rleEncWritesThePairStream : Obligations.RleEncWritesThePairStream := by
  intro s x hr hx ps
  have h : s.Reads .rleEnc x := ⟨hr, stateCheck_ok_iff.1 rfl, rfl, (source_eq rfl).2 hx⟩
  have hbody := rleEncBody_eq s.latch.ops.cap x
  rw [← pairBytes_eq]
  refine ⟨fun hfit => ?_, fun hover => ?_⟩
  · exact h.succeeds (congrArg s.plainOf (hbody.trans (if_pos hfit)))
  · exact h.fails rfl (congrArg s.plainOf (hbody.trans (if_neg (Nat.not_le.2 hover))))

/-- Settles O15: the loop goes past the runs that fit, to the end of the stream or to the first pair that stops it. -/
theorem rleDecExpandsThePairStream : Obligations.RleDecExpandsThePairStream := by
  intro s x hr hx cap expand
  have h : s.Reads .rleDec x := ⟨hr, stateCheck_ok_iff.1 rfl, rfl, (source_eq rfl).2 hx⟩
  have hbody {ps : List Pair} (hps : x = ps.flatMap fun p => [p.val, p.run]) {r : Except Err Bytes}
      (hloop : rleDecLoop cap ps [] = r) :
      execBody .rleDec s x = s.plainOf (r.map fun out =>
        (out, ⟨BitVec.ofNat 32 out.length, BitVec.ofNat 32 ps.length, 0, 0, 0⟩)) := by
    rw [hps, ← pairBytes_eq, ← hloop, ← rleDecBody_pairBytes]
    rfl
  refine ⟨fun hodd => h.fails rfl (congrArg s.plainOf (rleDecBody_of_odd hodd cap)), fun ps hps hruns hfit => ?_,
    fun ps qs p hps hruns hfit => ⟨fun hzero => ?_, fun hrun hover => ?_⟩⟩
  · have hloop := rleDecLoop_of_fits hruns hfit []
    rw [List.append_nil] at hloop
    exact h.succeeds (hbody hps hloop)
  · exact h.fails rfl (hbody hps ((rleDecLoop_of_fits hruns hfit _).trans (rleDecLoop_of_zero hzero ..)))
  · exact h.fails rfl (hbody hps ((rleDecLoop_of_fits hruns hfit _).trans (rleDecLoop_of_overflow hrun hover qs)))

/-- Settles O16: the run lengths are checked before the room for the table. -/
theorem freqWritesTheFrequencyTable : Obligations.FreqWritesTheFrequencyTable := by
  intro s x hr hx cap
  have h : s.Reads .freq x := ⟨hr, stateCheck_ok_iff.1 rfl, rfl, (source_eq rfl).2 hx⟩
  refine ⟨fun hodd => h.fails rfl (congrArg s.plainOf (freqBody_of_odd hodd cap)), fun ps hps => ?_⟩
  have hbody := freqBody_pairBytes cap ps
  rw [pairBytes_eq, ← hps] at hbody
  refine ⟨?_, fun hruns hfit => ?_, fun hruns hover => ?_⟩
  · rintro ⟨p, hp, hzero⟩
    have hbad : ¬ ∀ p ∈ ps, 1 ≤ p.run.toNat := fun hruns => absurd (hruns p hp) (by rw [hzero]; decide)
    exact h.fails rfl (congrArg s.plainOf (hbody.trans (if_neg hbad)))
  · rw [if_pos hruns, if_pos hfit, ← tableField_eq] at hbody
    exact h.succeeds (congrArg s.plainOf hbody)
  · rw [if_pos hruns, if_neg (Nat.not_le.2 hover)] at hbody
    exact h.fails rfl (congrArg s.plainOf hbody)

end Sys2Proof.Machine
end

section
/-! Table validation (41_huffman.md R205) and the tree builder (R202..R204): which tables pass, what the pool gives up, and the tree
that the merge loop ends in. -/

namespace Sys2Proof.Machine

/-! ### The pool -/

/-- Where the creation numbers are distinct, so are the keys, and the extracted element's is the least (41_huffman.md R203). -/
theorem extractMin_lt {pool rest : List PoolNode} {m : PoolNode} (hn : (pool.map PoolNode.seq).Nodup)
    (h : extractMin pool = some (m, rest)) : ∀ x ∈ rest, m.key < x.key := by
  intro x hx
  have hm : m.seq ∉ rest.map PoolNode.seq :=
    (List.nodup_cons.1 (((extractMin_perm h).map PoolNode.seq).nodup_iff.1 hn)).1
  refine lt_of_le_of_ne (extractMin_le h x hx) fun hkey => hm ?_
  exact PoolNode.seq_of_key hkey ▸ List.mem_map_of_mem hx

/-- Settles O17: a pool that is not empty has an element to extract. -/
theorem extractMinTakesTheLeastKey : Obligations.ExtractMinTakesTheLeastKey := by
  intro pool hne hn
  obtain ⟨⟨m, rest⟩, h⟩ := Option.ne_none_iff_exists'.1 (mt extractMin_eq_none.1 hne)
  exact ⟨m, rest, h, extractMin_perm h, extractMin_lt hn h⟩

/-! ### Table validation -/

/-- The loop of 41_huffman.md R205 accepts exactly the valid tables, with their total. -/
theorem validateEntries_eq_ok {es : List Entry} {n : Nat} :
    validateEntries es = .ok n ↔ ValidTable es ∧ n = tableTotal es := by
  rw [validateEntries, validateFrom_eq_ok (Nat.zero_le _), Nat.zero_add]
  constructor
  · rintro ⟨hentry, hsorted, -, hunique, -, htotal, rfl⟩
    exact ⟨⟨fun e he => (hentry e he).1, fun e he => (hentry e he).2, hsorted, hunique, htotal⟩, rfl⟩
  · rintro ⟨⟨hruns, hcounts, hsorted, hunique, htotal⟩, rfl⟩
    exact ⟨fun e he => ⟨hruns e he, hcounts e he⟩, hsorted, nofun, hunique, fun _ _ => List.not_mem_nil, htotal, rfl⟩

theorem validateEntries_of_valid {es : List Entry} (h : ValidTable es) : validateEntries es = .ok (tableTotal es) :=
  validateEntries_eq_ok.2 ⟨h, rfl⟩

theorem validateEntries_of_not_valid {es : List Entry} (h : ¬ ValidTable es) : validateEntries es = .error .format := by
  cases hv : validateEntries es with
  | ok n => exact absurd (validateEntries_eq_ok.1 hv).1 h
  | error e => rw [validateFrom_error hv]

/-- Settles O18: the loop accepts the valid tables, and its only error is FORMAT. -/
theorem validateEntriesChecksTheTable : Obligations.ValidateEntriesChecksTheTable :=
  fun _ => ⟨validateEntries_of_valid, validateEntries_of_not_valid⟩

/-- Settles O19: each symbol is one of the pairs', each count is at least 1, and the total is the number of pairs. -/
theorem freqTablesAreValid : Obligations.FreqTablesAreValid := by
  intro ps hlen hruns
  refine ⟨fun e he => ?_, fun e he => ((mem_freqTable_iff_count hlen).1 he).2, freqTable_sorted_lt ps, freqTable_nodup ps, ?_⟩
  · obtain ⟨p, hp, hsym⟩ := mem_freqTable_syms.1 (List.mem_map_of_mem (f := Entry.sym) he)
    rw [← hsym, runOf_sym]
    exact hruns p hp
  · rw [tableTotal_freqTable hlen]
    omega

/-! ### The keys of a table's leaves -/

/-- Leaves in the order of the table have rising keys, whatever their creation numbers (41_huffman.md R203). -/
theorem leaf_key_lt {a b : Entry} (h : a.lt b) (i j : Nat) :
    PoolNode.key ⟨.leaf a.sym a.cnt, i⟩ < PoolNode.key ⟨.leaf b.sym b.cnt, j⟩ := by
  simp only [PoolNode.key, Prod.Lex.toLex_lt_toLex, ← BitVec.lt_def]
  exact h.imp_right fun ⟨hcnt, hsym⟩ => ⟨congrArg BitVec.toNat hcnt, .inl hsym⟩

/-- Leaf i of the table has creation number i (41_huffman.md R202). -/
theorem map_seq_leafPool (es : List Entry) : (leafPool es).map PoolNode.seq = List.range es.length :=
  List.ext_getElem (by simp) fun i _ _ => by simp [leafPool]

theorem seq_lt_of_mem_leafPool {es : List Entry} {x : PoolNode} (h : x ∈ leafPool es) : x.seq < es.length :=
  List.mem_range.1 (map_seq_leafPool es ▸ List.mem_map_of_mem h)

theorem leafPool_sorted {es : List Entry} (h : es.Pairwise Entry.lt) :
    (leafPool es).Pairwise fun x y => x.key < y.key := by
  have htrees : ((leafPool es).map PoolNode.tree).Pairwise fun t u => ∀ i j, PoolNode.key ⟨t, i⟩ < PoolNode.key ⟨u, j⟩ := by
    rw [map_leaf_leafPool]
    exact List.pairwise_map.2 (h.imp leaf_key_lt)
  exact (List.pairwise_map.1 htrees).imp fun {x y} hlt => hlt x.seq y.seq

theorem map_key_nodup {p : List PoolNode} (h : p.Pairwise fun x y => x.key < y.key) : (p.map PoolNode.key).Nodup :=
  List.pairwise_map.2 (h.imp ne_of_lt)

/-- The order of the keys does not rest on the leaves' creation numbers. -/
theorem forget_leafPool_sorted {es : List Entry} (h : es.Pairwise Entry.lt) :
    ((leafPool es).map PoolNode.forget).Pairwise fun x y => x.key < y.key := by
  rw [map_forget_leafPool]
  exact List.pairwise_map.2 (h.imp fun hlt => leaf_key_lt hlt 0 0)

/-! ### The tree -/

theorem mergesTo_treeBuild {es : List Entry} {t : HuffTree} (h : treeBuild es = some t) :
    MergesTo es.length (leafPool es) t := by
  have hne : es ≠ [] := by rintro rfl; cases h
  have hpos := List.length_pos_iff.2 hne
  obtain ⟨n, hn, hm⟩ := mergesTo_mergeLoop (es.length - 1) es.length (leafPool es)
    (by rw [length_leafPool]; omega) (map_seq_leafPool es ▸ List.nodup_range)
    (fun _ => seq_lt_of_mem_leafPool)
  rw [treeBuild, hn] at h
  exact Option.some.inj h ▸ hm

/-- The tree does not depend on the order of the entries: only the leaves' creation numbers do, and they break no tie. -/
theorem treeBuild_perm {es es' : List Entry} (hs : es.Pairwise Entry.lt) (hp : es'.Perm es) : treeBuild es' = treeBuild es := by
  obtain rfl | hne := eq_or_ne es []
  · rw [hp.eq_nil]
  · have hne' : es' ≠ [] := fun hnil => hne (hnil ▸ hp).nil_eq.symm
    obtain ⟨n, hn, ht⟩ := treeBuild_eq_some hne
    obtain ⟨n', hn', ht'⟩ := treeBuild_eq_some hne'
    have hmerge := mergeLoop_congr (es.length - 1) es.length (leafPool es) (leafPool es')
      (by rw [map_forget_leafPool, map_forget_leafPool]; exact hp.symm.map _) (map_key_nodup (forget_leafPool_sorted hs))
      fun _ hx _ => seq_lt_of_mem_leafPool hx
    rw [hn, ← hp.length_eq, hn', List.map_singleton, List.map_singleton, List.singleton_perm_singleton] at hmerge
    rw [ht, ht', ← PoolNode.forget_tree n, ← PoolNode.forget_tree n', hmerge]

/-- The root's weight is the table's total, which a valid table keeps below 2^64 (41_huffman.md R200, R205). -/
theorem weight_toNat_eq_tableTotal {es : List Entry} {t : HuffTree} (hw : t.weight = (es.map Entry.cnt).sum)
    (htotal : tableTotal es ≤ 2 ^ 64 - 1) : t.weight.toNat = tableTotal es := by
  have hmap : (es.map Entry.cnt).map BitVec.toNat = es.map fun e => e.cnt.toNat := List.map_map
  rw [tableTotal, ← hmap] at htotal ⊢
  rw [hw, sum_toNat _ (by omega)]

theorem mergesTo_singleton {next : Nat} {n : PoolNode} {t : HuffTree} (h : MergesTo next [n] t) : t = n.tree := by
  cases h with
  | root => rfl
  | join _ _ rest a b _ hp => simpa using hp.length_eq

/-- The first round joins the first two of a pool in the order of the keys. -/
theorem mergesTo_joins_least {next : Nat} {a b : PoolNode} {rest : List PoolNode} {t : HuffTree}
    (h : MergesTo next (a :: b :: rest) t) (hs : (a :: b :: rest).Pairwise fun x y => x.key < y.key) :
    ∃ rest', rest'.Perm rest ∧ MergesTo (next + 1) (⟨a.tree.join b.tree, next⟩ :: rest') t := by
  cases h with
  | join _ _ rest' a' b' _ hp ha' hb' hm =>
    obtain ⟨ha, hs'⟩ := List.pairwise_cons.1 hs
    have hleast {m : PoolNode} {l : List PoolNode} (h : ∀ x ∈ l, m.key < x.key) : ∀ x ∈ m :: l, m.key ≤ x.key :=
      List.forall_mem_cons.2 ⟨le_rfl, fun x hx => (h x hx).le⟩
    obtain rfl : a = a' := least_unique hp (map_key_nodup hs) (by simp) (by simp) (hleast ha) (hleast ha')
    have hp' := hp.cons_inv
    obtain rfl : b = b' :=
      least_unique hp' (map_key_nodup hs') (by simp) (by simp) (hleast (List.pairwise_cons.1 hs').1) (hleast hb')
    exact ⟨rest', hp'.cons_inv.symm, hm⟩

/-- The first round on a table joins its first two entries, the first on the left. -/
theorem mergesTo_of_treeBuild_cons {e₀ e₁ : Entry} {rest : List Entry} {t : HuffTree}
    (hs : (e₀ :: e₁ :: rest).Pairwise Entry.lt) (h : treeBuild (e₀ :: e₁ :: rest) = some t) :
    ∃ next next' pool, pool.length = rest.length ∧
      MergesTo next (⟨.node (e₀.cnt + e₁.cnt) (.leaf e₀.sym e₀.cnt) (.leaf e₁.sym e₁.cnt), next'⟩ :: pool) t := by
  have hm := mergesTo_treeBuild h
  have hk := leafPool_sorted hs
  rw [leafPool, List.mapIdx_cons, List.mapIdx_cons] at hm hk
  obtain ⟨pool, hp, hm'⟩ := mergesTo_joins_least hm hk
  exact ⟨_, _, pool, by rw [hp.length_eq, List.length_mapIdx], hm'⟩

theorem treeBuild_pair {e₀ e₁ : Entry} (hs : [e₀, e₁].Pairwise Entry.lt) :
    treeBuild [e₀, e₁] = some (.node (e₀.cnt + e₁.cnt) (.leaf e₀.sym e₀.cnt) (.leaf e₁.sym e₁.cnt)) := by
  obtain ⟨t, ht, -⟩ := treeBuild_shape (List.cons_ne_nil e₀ [e₁])
  obtain ⟨next, next', pool, hlen, hm⟩ := mergesTo_of_treeBuild_cons hs ht
  rw [List.length_eq_zero_iff.1 hlen] at hm
  rw [ht, mergesTo_singleton hm]

/-- Settles O20: leaves, nodes and weights are sums the loop keeps, creation numbers of leaves break no tie, and the first round
takes the first two entries, whose node stays in the tree. -/
theorem treeBuildHasTheEntriesAsLeaves : Obligations.TreeBuildHasTheEntriesAsLeaves := by
  refine ⟨fun es hv hne => ?_, fun e₀ e₁ hv => treeBuild_pair hv.sorted, by decide⟩
  obtain ⟨t, ht, hnodes, hweighted, hweight⟩ := treeBuild_shape hne
  refine ⟨t, ht, leaves_treeBuild ht, hnodes, hweighted, weight_toNat_eq_tableTotal hweight hv.total,
    fun es' hp => (treeBuild_perm hv.sorted hp).trans ht, mergesTo_treeBuild ht, ?_⟩
  rintro e₀ e₁ rest rfl
  obtain ⟨next, next', pool, -, hm⟩ := mergesTo_of_treeBuild_cons hv.sorted ht
  exact follow_of_mergesTo hm _ (List.mem_cons_self ..)

end Sys2Proof.Machine
end

section
/-! The codes of a table's tree (41_huffman.md R210, R211): none begins another, they fill the code space, they are the
paths of the leaves, and their lengths are bounded (R213, R214). -/

namespace Sys2Proof.Machine

/-- The codes of a tree of more than one leaf are the paths from its root (41_huffman.md R211). -/
theorem codeGen_node (w : Count) (l r : HuffTree) : codeGen (some (.node w l r)) = (HuffTree.node w l r).paths [] := rfl

/-- No path to a leaf is a beginning of the path to another: they part where one goes left and the other right. -/
theorem paths_not_begins (t : HuffTree) (p : BitString) :
    (t.paths p).Pairwise fun a b => ¬ a.2 <+: b.2 ∧ ¬ b.2 <+: a.2 := by
  induction t generalizing p with
  | leaf s w => exact List.pairwise_singleton _ _
  | node w l r ihl ihr =>
    refine List.pairwise_append.2 ⟨ihl _, ihr _, fun a ha b hb => ?_⟩
    have hl := begins_of_mem_paths ha
    have hr := begins_of_mem_paths hb
    exact ⟨not_begins hl hr, not_begins hr hl⟩

theorem codeGen_not_begins (t : HuffTree) :
    (codeGen (some t)).Pairwise fun a b => ¬ a.2 <+: b.2 ∧ ¬ b.2 <+: a.2 := by
  cases t with
  | leaf s w => exact List.pairwise_singleton _ _
  | node w l r => exact codeGen_node w l r ▸ paths_not_begins _ []

/-- A code has at least one bit, and no more than there are internal nodes, but for the lone leaf's. -/
theorem length_of_mem_codeGen {t : HuffTree} {e : Symbol × BitString} (h : e ∈ codeGen (some t)) :
    1 ≤ e.2.length ∧ e.2.length ≤ max 1 t.nodes := by
  cases t with
  | leaf s w => obtain rfl := List.mem_singleton.1 h; exact ⟨le_rfl, le_max_left ..⟩
  | node w l r =>
    rw [HuffTree.nodes]
    obtain h | h := List.mem_append.1 h
    all_goals
      have hlen := length_of_mem_paths h
      rw [List.length_singleton] at hlen
      omega

section Table

variable {es : List Entry} {t : HuffTree} (ht : treeBuild es = some t)

include ht

theorem table_length_eq_nodes_add_one : es.length = t.nodes + 1 :=
  (leaves_treeBuild ht).length_eq.symm.trans t.length_leaves

theorem exists_node_of_two_le (hlen : 2 ≤ es.length) : ∃ w l r, t = .node w l r := by
  cases t with
  | leaf s w => rw [table_length_eq_nodes_add_one ht, HuffTree.nodes] at hlen; omega
  | node w l r => exact ⟨w, l, r, rfl⟩

/-- The symbols that have a code are the table's, each once (41_huffman.md R213). -/
theorem map_fst_codeGen_perm : ((codeGen (some t)).map Prod.fst).Perm (es.map Entry.sym) :=
  map_fst_codeGen t ▸ (leaves_treeBuild ht).map Entry.sym

theorem code_isSome_iff_mem_table (s : Symbol) : ((codeGen (some t)).code s).isSome = true ↔ s ∈ es.map Entry.sym := by
  rw [code_isSome, (map_fst_codeGen_perm ht).mem_iff]

/-- In a tree of more than one leaf the code of an entry leads to the leaf of that entry, which no other entry's symbol names. -/
theorem code_follows_to_leaf (hunique : (es.map Entry.sym).Nodup) (hlen : 2 ≤ es.length) {e : Entry} (he : e ∈ es) :
    ∃ p, (codeGen (some t)).code e.sym = some p ∧ t.follow p = some (.leaf e.sym e.cnt) := by
  obtain ⟨p, hp⟩ := Option.isSome_iff_exists.1 (isSome_code_of_mem_table ht (List.mem_map_of_mem he))
  refine ⟨p, hp, ?_⟩
  obtain ⟨w, l, r, rfl⟩ := exists_node_of_two_le ht hlen
  obtain ⟨q, c, hpq, hq, hleaf⟩ := mem_paths (codeGen_node w l r ▸ mem_of_code hp)
  have hentry : ⟨e.sym, c⟩ = e := List.inj_on_of_nodup_map hunique ((leaves_treeBuild ht).mem_iff.1 hleaf) he rfl
  obtain rfl : p = q := hpq
  rw [hq, ← hentry]

/-- The codes of more than one symbol fill the whole code space (41_huffman.md R213). -/
theorem codeGen_complete (hlen : 2 ≤ es.length) : ((codeGen (some t)).map fun e => ((1 : ℚ) / 2) ^ e.2.length).sum = 1 := by
  obtain ⟨w, l, r, rfl⟩ := exists_node_of_two_le ht hlen
  rw [codeGen_node, sum_paths]
  exact pow_zero _

end Table

/-- A lone symbol has the code "0" (41_huffman.md R211). -/
theorem codeGen_of_lone {e : Entry} {t : HuffTree} (ht : treeBuild [e] = some t) : codeGen (some t) = [(e.sym, [false])] := by
  rw [← ht]
  rfl

/-- Settles O21: the codes are the paths to the leaves, and the leaves are the entries. -/
theorem codesArePrefixFreeAndComplete : Obligations.CodesArePrefixFreeAndComplete := by
  refine ⟨rfl, rfl, fun es t hv ht => ⟨map_fst_codeGen_perm ht, code_isSome_iff_mem_table ht, codeGen_not_begins t,
    fun hlen => ⟨codeGen_complete ht hlen, fun e he => code_follows_to_leaf ht hv.unique hlen he⟩, fun hlen => ?_, ?_⟩⟩
  · obtain ⟨e, rfl⟩ := List.length_eq_one_iff.1 hlen
    rw [codeGen_of_lone ht]
    norm_num
  · rintro e rfl
    exact codeGen_of_lone ht

/-- Settles O22: a code is no longer than the number of internal nodes, which is N - 1. -/
theorem codeLengthsAreBounded : Obligations.CodeLengthsAreBounded := by
  intro es t _ hmax ht e he
  have hnodes := table_length_eq_nodes_add_one ht
  obtain ⟨hlo, hhi⟩ := length_of_mem_codeGen he
  exact ⟨hlo, by omega, by omega, by omega⟩

end Sys2Proof.Machine
end

section
/-! The commands TREE_BUILD (41_huffman.md R206), CODE_GEN (R212) and CODE_QUERY (R220): what their pseudocode answers, and the
completion it gives. -/

namespace Sys2Proof.Machine

/-! ### The pseudocode -/

theorem treeBuildBody_of_cut {x : Bytes} (h : x.length % 10 ≠ 0) : treeBuildBody x = .error .trunc := by
  rw [treeBuildBody, need_of_false (decide_eq_false h)]
  rfl

/-- On the bytes of a table TREE_BUILD checks the number of entries, then the entries. -/
theorem treeBuildBody_tableBytes (es : List Entry) :
    treeBuildBody (tableBytes es) =
      if es.length ≤ 65280 then (validateEntries es).map fun total => (treeBuild es,
        ⟨0, BitVec.ofNat 32 es.length, BitVec.ofNat 32 total, BitVec.ofNat 32 (total / 2 ^ 32), 0⟩)
      else .error .format := by
  have hdiv : 10 * es.length / 10 = es.length := Nat.mul_div_cancel_left _ (by decide)
  simp only [treeBuildBody, length_tableBytes, Nat.mul_mod_right, hdiv, entriesOf_tableBytes, need_bind, decide_eq_true_eq,
    Nat.shiftRight_eq_div_pow]
  rfl

theorem codeGenBody_eq (n : Nat) (t : Option HuffTree) :
    codeGenBody n t =
      if maxCodeLen (codeGen t) ≤ n then .ok (codeGen t, ⟨0, BitVec.ofNat 32 (codeGen t).length,
        BitVec.ofNat 32 (maxCodeLen (codeGen t)), BitVec.ofNat 32 (minCodeLen (codeGen t)), 0⟩)
      else .error .alloc := by
  simp only [codeGenBody, need_bind, decide_eq_true_eq]
  rfl

/-- Bit 31 - k of the window is the code's bit `off + k` (41_huffman.md R220). -/
theorem getLsbD_codeWindow (c : BitString) (off : Nat) {k : Nat} (hk : k < 32) :
    (codeWindow c off).getLsbD (31 - k) = c.getD (off + k) false := by
  rw [codeWindow, BitVec.getLsbD_ofNat, decide_eq_true (by omega : 31 - k < 32), Bool.true_and]
  exact testBit_sum_bits (fun t => c.getD (off + t) false) 32 k hk

/-! ### The commands -/

/-- A command without ranges whose state check passes reaches its pseudocode. -/
theorem State.Reads.of_noRanges {s : State} {i : Instr} (hsrc : hasSrc i = false) (hdst : hasDst i = false)
    (hs : StateOk i s.status) (hpre : execPre i s = .ok ()) : s.Reads i [] where
  ranges := ⟨by simp [hsrc], by simp [hdst], by simp [hsrc]⟩
  needs := hs
  pre := hpre
  source := source_noSrc hsrc

/-- An error of TREE_BUILD leaves TV = CV = 0 (41_huffman.md R206). -/
theorem treeBuild_fails {s : State} {x : Bytes} {e : Err} (h : s.Reads .treeBuild x) (hb : treeBuildBody x = .error e) :
    ∃ t, exec .treeBuild s = .next t ∧ FailsWith .treeBuild s t e ∧ ClearsFlags s t :=
  ⟨_, exec_of_body_error h.ranges h.needs h.pre h.source (map_eq_error.2 hb), completeErr_fails s _ e _,
    State.completeErr_tree .., State.completeErr_ct .., rfl, rfl⟩

/-- Settles O23: a length that is a multiple of 10 is a table's, whose size is checked before its entries. -/
theorem treeBuildBuildsTheTree : Obligations.TreeBuildBuildsTheTree := by
  intro s x hr hx
  have h : s.Reads .treeBuild x := ⟨hr, stateCheck_ok_iff.1 rfl, rfl, (source_eq rfl).2 hx⟩
  refine ⟨fun hcut => treeBuild_fails h (treeBuildBody_of_cut hcut), fun es hes => ?_⟩
  have hbody := treeBuildBody_tableBytes es
  rw [← tableField_eq, ← hes] at hbody
  refine ⟨fun hlen hv => ?_, fun hbad => treeBuild_fails h ?_⟩
  · rw [if_pos hlen, validateEntries_of_valid hv] at hbody
    exact ⟨_, exec_of_body_ok h.ranges h.needs h.pre h.source (map_eq_ok.2 ⟨_, hbody, rfl⟩), completeOk_succeeds s _,
      rfl, rfl, rfl, rfl⟩
  · rw [hbody]
    split
    · next hlen =>
      rw [validateEntries_of_not_valid (hbad.resolve_left (Nat.not_lt.2 hlen))]
      rfl
    · rfl

/-- Settles O24: the one check is on the longest code. -/
theorem codeGenMakesTheCodeTable : Obligations.CodeGenMakesTheCodeTable := by
  intro s htv c
  have h : s.Reads .codeGen [] := .of_noRanges rfl rfl (stateCheck_ok_iff.1 (need_of_true htv)) rfl
  have hbody := codeGenBody_eq s.cfg.codeLenMax.val s.tree
  refine ⟨fun hfit => ?_, fun ⟨e, he, hlong⟩ => ?_⟩
  · rw [if_pos (maxCodeLen_le.2 hfit)] at hbody
    refine ⟨_, maxCodeLen c, minCodeLen c,
      exec_of_body_ok h.ranges h.needs h.pre h.source (map_eq_ok.2 ⟨_, hbody, rfl⟩), completeOk_succeeds s _, ?_, fun hne => ?_,
      rfl, rfl, htv, rfl⟩
    · intro hnil
      rw [hnil]
      exact ⟨rfl, rfl⟩
    · obtain ⟨hmin, hle⟩ := minCodeLen_spec hne
      exact ⟨maxCodeLen_mem hne, hmin, fun e he => ⟨hle e he, maxCodeLen_le.1 le_rfl e he⟩⟩
  · rw [if_neg fun hmax => absurd (maxCodeLen_le.1 hmax e he) (Nat.not_le.2 hlong)] at hbody
    exact ⟨_, exec_of_body_error h.ranges h.needs h.pre h.source (map_eq_error.2 hbody), completeErr_fails s _ _ _,
      State.completeErr_tree .., State.completeErr_ct .., htv, rfl⟩

/-- Settles O25: the results are those of the symbol's code, if it has one. -/
theorem codeQueryReadsTheCode : Obligations.CodeQueryReadsTheCode := by
  intro s hcv sym
  have h : s.Reads .codeQuery [] := .of_noRanges rfl rfl (stateCheck_ok_iff.1 (need_of_true hcv)) rfl
  have hexec {len win : Word} (hres : codeQueryResult s.ct sym s.latch.ops.queryOffset = ⟨0, len, win, 0, 0⟩) :
      ∃ t, exec .codeQuery s = .next t ∧ KeepsTables s t ∧ Succeeds s t [] ⟨0, len, win, 0, 0⟩ false :=
    h.succeeds (congrArg (fun r => Except.ok (s.plainSuccess [] r)) hres)
  cases hcode : CodeTable.code s.ct sym with
  | none =>
    obtain ⟨t, ht, hkeeps, hsucc⟩ := hexec (len := 0) (win := 0) (by rw [codeQueryResult, hcode]; rfl)
    exact ⟨t, 0, 0, ht, hkeeps, hsucc, fun _ => ⟨rfl, rfl⟩, nofun⟩
  | some c =>
    obtain ⟨t, ht, hkeeps, hsucc⟩ := hexec (by rw [codeQueryResult, hcode]; rfl)
    refine ⟨t, BitVec.ofNat 32 c.length, codeWindow c s.latch.ops.queryOffset, ht, hkeeps, hsucc, nofun, ?_⟩
    rintro _ ⟨⟩
    exact ⟨rfl, fun k hk => getLsbD_codeWindow c _ hk⟩

end Sys2Proof.Machine
end

section
/-! The commands PACK (42_bitpack.md R250), UNPACK (R260) and XOR (R270): what their pseudocode answers, the completion it gives,
and that XOR in place undoes itself. -/

namespace Sys2Proof.Machine

/-! ### The pseudocode -/

/-- Behind pairs that all have a code, the loop of PACK stands at the next pair with their codes packed, if the full bytes fit. -/
theorem packLoop_of_codes {c : CodeTable} {ps : List Pair} (hall : ∀ p ∈ ps, (c.code p.sym).isSome = true) (cap : Nat)
    (qs : List Pair) :
    packLoop c cap (ps ++ qs) [] =
      if (payloadBits c ps).length / 8 ≤ cap then packLoop c cap qs (payloadBits c ps) else .error .alloc := by
  split
  · next hfit => exact packLoop_append hall (by simpa using hfit)
  · next hover => exact packLoop_full hall (Nat.zero_le _) (by simpa using hover)

theorem packBody_of_odd {x : Bytes} (h : x.length % 2 = 1) (c : CodeTable) (cap : Nat) : packBody c cap x = .error .trunc := by
  rw [packBody, h]
  rfl

/-- On a pair stream PACK answers what its loop does, then checks the room for the last byte. -/
theorem packBody_pairBytes (c : CodeTable) (cap : Nat) (ps : List Pair) :
    packBody c cap (pairBytes ps) = packLoop c cap ps [] >>= fun bits =>
      if ceilDiv8 bits.length ≤ cap then .ok (packed bits,
        ⟨BitVec.ofNat 32 (ceilDiv8 bits.length), BitVec.ofNat 32 (validBits bits.length), BitVec.ofNat 32 ps.length,
          BitVec.ofNat 32 bits.length, BitVec.ofNat 32 (bits.length / 2 ^ 32)⟩)
      else .error .alloc := by
  simp only [packBody, length_pairBytes, pairsOf_pairBytes, Nat.mul_mod_right, Nat.mul_div_cancel_left _ two_pos, length_packed,
    Nat.shiftRight_eq_div_pow, need_bind, decide_eq_true_eq]
  rfl

/-- Where every pair has a code, the room for the whole payload is the only check: the full bytes fit where all of them do. -/
theorem packBody_of_codes {c : CodeTable} {ps : List Pair} (hall : ∀ p ∈ ps, (c.code p.sym).isSome = true) (cap : Nat) :
    packBody c cap (pairBytes ps) =
      if ceilDiv8 (payloadBits c ps).length ≤ cap then .ok (packed (payloadBits c ps),
        ⟨BitVec.ofNat 32 (ceilDiv8 (payloadBits c ps).length), BitVec.ofNat 32 (validBits (payloadBits c ps).length),
          BitVec.ofNat 32 ps.length, BitVec.ofNat 32 (payloadBits c ps).length,
          BitVec.ofNat 32 ((payloadBits c ps).length / 2 ^ 32)⟩)
      else .error .alloc := by
  have hloop := packLoop_of_codes hall cap []
  rw [List.append_nil] at hloop
  rw [packBody_pairBytes, hloop]
  by_cases hfull : (payloadBits c ps).length / 8 ≤ cap
  · rw [if_pos hfull]
    rfl
  · rw [if_neg hfull, if_neg (by rw [ceilDiv8]; omega)]
    rfl

/-- At the first pair without a code PACK ends, with ALLOC if the codes before it had filled the room already. -/
theorem packBody_of_noCode {c : CodeTable} {ps : List Pair} {p : Pair} (hall : ∀ q ∈ ps, (c.code q.sym).isSome = true)
    (hp : c.code p.sym = none) (cap : Nat) (qs : List Pair) :
    packBody c cap (pairBytes (ps ++ p :: qs)) =
      if (payloadBits c ps).length / 8 ≤ cap then .error .nocode else .error .alloc := by
  rw [packBody_pairBytes, packLoop_of_codes hall, packLoop, hp]
  split <;> rfl

/-- The count of UNPACK is ARG1 over ARG0 (30_encoding.md R115). -/
theorem symbolCount_eq (o : OperandRegs) : o.symbolCount = o.arg1.toNat * 2 ^ 32 + o.arg0.toNat := by
  rw [OperandRegs.symbolCount, BitVec.toNat_append, Nat.shiftLeft_eq, Nat.mul_comm, ← Nat.two_pow_add_eq_or_of_lt o.arg0.isLt]

/-- The checks of UNPACK before its MemRead (42_bitpack.md R260). -/
theorem unpackChecks_of_bad {t : Option HuffTree} {cnt vb : Nat} (h : vb < 1 ∨ 8 < vb ∨ (t = none ∧ 0 < cnt)) :
    unpackChecks t cnt vb = .error .format := by
  rw [unpackChecks, need_bind]
  split
  · next hvb =>
    rw [Bool.and_eq_true, decide_eq_true_eq, decide_eq_true_eq] at hvb
    obtain hlo | hhi | ⟨rfl, hcnt⟩ := h
    · omega
    · omega
    · exact need_of_false (decide_eq_false hcnt.ne')
  · rfl

theorem unpackChecks_of_ok {t : Option HuffTree} {cnt vb : Nat} (hlo : 1 ≤ vb) (hhi : vb ≤ 8) (h : t = none → cnt = 0) :
    unpackChecks t cnt vb = .ok () := by
  rw [unpackChecks, decide_eq_true hlo, decide_eq_true hhi]
  cases t with
  | none => exact need_of_true (decide_eq_true (h rfl))
  | some t => rfl

/-- With a tree UNPACK answers what reading the payload gives (42_bitpack.md R261..R263). -/
theorem unpackBody_of_decodes {t : HuffTree} {cap cnt vb : Nat} {pl : Bytes} {r : Except Err (Bytes × Nat)}
    (h : Decodes pl (streamLimit pl.length vb) t pairField cap cnt r) :
    unpackBody (some t) cap cnt vb pl = r.map fun p =>
      (p.1, ⟨BitVec.ofNat 32 p.1.length, BitVec.ofNat 32 p.2, BitVec.ofNat 32 (p.2 / 2 ^ 32), 0, 0⟩) := by
  rw [← decodeStream_emitPair_iff.2 h]
  simp only [unpackBody, Nat.shiftRight_eq_div_pow]
  rfl

/-- A count of 0 gives empty output, whatever the tree. -/
theorem unpackBody_of_noCount (t : Option HuffTree) (cap vb : Nat) (pl : Bytes) :
    unpackBody t cap 0 vb pl = .ok ([], ResultRegs.zero) := by
  cases t <;> rfl

theorem xorBody_eq (cap : Nat) (key : Byte) (x : Bytes) :
    xorBody cap key x =
      if x.length ≤ cap then .ok (xorBytes x key, ⟨BitVec.ofNat 32 x.length, 0, 0, 0, 0⟩) else .error .alloc := by
  simp only [xorBody, need_bind, decide_eq_true_eq, xorBytes, List.length_map]
  rfl

/-! ### The commands -/

/-- Where a check before the MemRead raises `e` in a command whose errors keep the flags, the command fails with `e` and keeps
the tables. -/
theorem fails_of_execPre {s : State} {i : Instr} {e : Err} (hr : s.RangesOk i) (hs : StateOk i s.status)
    (hf : execOnErr i s e = s.keptFlags) (hp : execPre i s = .error e) :
    ∃ t, exec i s = .next t ∧ KeepsTables s t ∧ FailsWith i s t e := by
  have hchecks : s.checks i (execPre i s) = .error e := by
    rw [State.checks, rangeCheck_ok_iff.2 hr, ok_bind, stateCheck_ok_iff.2 hs, ok_bind, hp]
  refine ⟨_, exec_of_checks_error hchecks, ?_, completeErr_fails s i e _⟩
  rw [hf]
  exact ⟨State.completeErr_tree .., State.completeErr_ct .., rfl, rfl⟩

/-- Settles O28: the loop goes past the pairs that have a code, to the end of the stream or to the first pair that has none. -/
theorem packWritesThePayload : Obligations.PackWritesThePayload := by
  intro s x hr hcv hx cap bitsOf
  have h : s.Reads .pack x := ⟨hr, stateCheck_ok_iff.1 (need_of_true hcv), rfl, (source_eq rfl).2 hx⟩
  refine ⟨fun hodd => h.fails rfl (congrArg s.plainOf (packBody_of_odd hodd s.ct cap)), fun ps hps hall => ?_,
    fun ps qs p hps hall hnone => ?_⟩
  · have hbody := packBody_of_codes hall cap
    rw [pairBytes_eq, ← hps] at hbody
    refine ⟨fun hfit => ?_, fun hover => ?_⟩
    · exact h.succeeds (congrArg s.plainOf (hbody.trans (if_pos hfit)))
    · exact h.fails rfl (congrArg s.plainOf (hbody.trans (if_neg (Nat.not_le.2 hover))))
  · have hbody := packBody_of_noCode hall hnone cap qs
    rw [pairBytes_eq, ← hps] at hbody
    refine ⟨fun hfit => ?_, fun hover => ?_⟩
    · exact h.fails rfl (congrArg s.plainOf (hbody.trans (if_pos hfit)))
    · exact h.fails rfl (congrArg s.plainOf (hbody.trans (if_neg (Nat.not_le.2 hover))))

/-- Settles O29: behind the checks on its operands UNPACK answers what the stream decoder does, which is what `Decodes` says. -/
theorem unpackDecodesThePayload : Obligations.UnpackDecodesThePayload := by
  intro s hr htv o cnt vb
  have hs : StateOk .unpack s.status := stateCheck_ok_iff.1 (need_of_true htv)
  have hcnt : o.symbolCount = cnt := symbolCount_eq o
  have hpre : execPre .unpack s = unpackChecks s.tree cnt vb := by rw [← hcnt]; rfl
  have hbody (pl : Bytes) : execBody .unpack s pl = s.plainOf (unpackBody s.tree o.cap cnt vb pl) := by rw [← hcnt]; rfl
  refine ⟨fun hbad => fails_of_execPre hr hs rfl (hpre.trans (unpackChecks_of_bad hbad)), fun pl hx hlo hhi => ?_⟩
  have hreads (htree : s.tree = none → cnt = 0) : s.Reads .unpack pl :=
    ⟨hr, hs, hpre.trans (unpackChecks_of_ok hlo hhi htree), (source_eq rfl).2 hx⟩
  refine ⟨fun hzero => (hreads fun _ => hzero).succeeds ?_, fun tr htr => ?_⟩
  · rw [hbody, hzero, unpackBody_of_noCount]
    rfl
  · have h := hreads (by rw [htr]; nofun)
    rw [htr] at hbody
    refine ⟨fun out pos hd => h.succeeds ?_, fun e hd => h.fails rfl ?_⟩
    · exact (hbody pl).trans (congrArg s.plainOf (unpackBody_of_decodes hd))
    · exact (hbody pl).trans (congrArg s.plainOf (unpackBody_of_decodes hd))

/-- XOR has no check before its pseudocode but that of its ranges (42_bitpack.md R270). -/
theorem State.Reads.of_xor {s : State} {x : Bytes} (hr : s.RangesOk .xor) (hx : s.SourceIs x) : s.Reads .xor x :=
  ⟨hr, stateCheck_ok_iff.1 rfl, rfl, (source_eq rfl).2 hx⟩

theorem xor_succeeds {s : State} {x : Bytes} (hr : s.RangesOk .xor) (hx : s.SourceIs x)
    (hfit : x.length ≤ s.latch.ops.dstCap.toNat) :
    ∃ t, exec .xor s = .next t ∧ KeepsTables s t ∧
      Succeeds s t (xorBytes x s.latch.ops.xorKey) ⟨BitVec.ofNat 32 x.length, 0, 0, 0, 0⟩ false :=
  (State.Reads.of_xor hr hx).succeeds (congrArg s.plainOf ((xorBody_eq ..).trans (if_pos hfit)))

/-- Settles O31: the room for the output is the only check. -/
theorem xorWritesTheScrambledBytes : Obligations.XorWritesTheScrambledBytes := fun s _ hr hx =>
  ⟨xor_succeeds hr hx, fun hover =>
    (State.Reads.of_xor hr hx).fails rfl (congrArg s.plainOf ((xorBody_eq ..).trans (if_neg (Nat.not_le.2 hover))))⟩

/-- After a success that fills the source range in place, the source range holds the output. -/
theorem Succeeds.sourceIs_of_inPlace {s t : State} {x out : Bytes} {res : ResultRegs} {mis : Bool}
    (h : Succeeds s t out res mis) (hx : s.SourceIs x) (heq : s.latch.ops.srcAddr = s.latch.ops.dstAddr)
    (hlen : out.length = x.length) : t.SourceIs out := by
  obtain ⟨hxlen, -⟩ := Memory.readBytes_eq_some.1 hx
  rw [State.SourceIs, h.frame.latch, heq, Memory.readBytes_eq_some]
  refine ⟨hlen.trans hxlen, fun k hk => ?_⟩
  rw [h.mem, if_pos (by omega), Nat.add_sub_cancel_left]

/-- Settles O32: the second XOR reads what the first one wrote and writes the first one's source over it. -/
theorem xorTwiceInPlaceRestoresMemory : Obligations.XorTwiceInPlaceRestoresMemory := by
  intro s x hr hx heq hfit
  obtain ⟨hxlen, hread⟩ := Memory.readBytes_eq_some.1 hx
  have hlen : (xorBytes x s.latch.ops.xorKey).length = x.length := List.length_map _
  obtain ⟨t, ht, -, hst⟩ := xor_succeeds hr hx hfit
  have hlatch := hst.frame.latch
  have hrt : t.RangesOk .xor := by rwa [State.RangesOk, hlatch, hst.frame.cfg]
  obtain ⟨u, hu, -, htu⟩ := xor_succeeds hrt (hst.sourceIs_of_inPlace hx heq hlen) (by rwa [hlatch, hlen])
  rw [hlatch, xorBytes_xorBytes] at htu
  refine ⟨t, u, ht, hu, fun a => ?_⟩
  rw [htu.mem, hlatch]
  split
  · next ha =>
    rw [← hread _ (by omega), heq, Nat.add_sub_cancel' ha.1]
  · next ha => exact hst.read_outside (by rwa [hlen])

end Sys2Proof.Machine
end

section
/-! The container parser (43_container.md R311): its fields in layout order, and that it accepts exactly the layouts of valid fields
and rejects every other byte string as its first bad field says. -/

namespace Sys2Proof.Machine

/-! ### Fields of stored data -/

@[simp] theorem length_leField (k v : Nat) : (leField k v).length = k := by rw [leField_eq, length_leBytes]

theorem fromLe_leField_of_lt {k v : Nat} (h : v < 256 ^ k) : fromLe (leField k v) = v := by
  rw [leField_eq, fromLe_leBytes_of_lt h]

theorem exists_eq_append_of_le_length {k : Nat} {s : Bytes} (h : k ≤ s.length) : ∃ a r, s = a ++ r ∧ a.length = k :=
  ⟨s.take k, s.drop k, (List.take_append_drop k s).symm, List.length_take_of_le h⟩

/-- `k` bytes or more begin with a field. -/
theorem exists_eq_leField_append {k : Nat} {s : Bytes} (h : k ≤ s.length) : ∃ v r, v < 256 ^ k ∧ s = leField k v ++ r := by
  obtain ⟨a, r, rfl, rfl⟩ := exists_eq_append_of_le_length h
  exact ⟨fromLe a, r, fromLe_lt a, by rw [leField_eq, leBytes_fromLe]⟩

/-- The fields before the valid bits are the model's header. -/
theorem tableHead_eq (p : Params) (prot : Bool) (orig : Nat) (es : List Entry) :
    tableHead p prot orig es = containerHeader p prot orig es := by
  have hprot : BitVec.ofNat 8 prot.toNat = if prot then 1 else 0 := by cases prot <;> rfl
  simp [tableHead, sizeHead, containerHeader, constantFields, leField_eq, sle32_natCast, tableField_eq, hprot]

/-! ### The parser, field by field -/

/-- ParseContainer from the count of entries on (43_container.md R311). -/
def parseTable (prot : Bool) (orig : Nat) (s : Bytes) : Except Err Parsed := do
  let (cnt, s) ← takeBytes 4 s
  need (decide (0 ≤ fromSle32 cnt) && decide (fromSle32 cnt ≤ maxEntries)) .format
  let (es, total, s) ← parseEntries none [] 0 (fromSle32 cnt).toNat s
  parseTrailer prot orig es total s

/-- ParseContainer from the protection id on. -/
def parseSize (s : Bytes) : Except Err Parsed := do
  let (prot, s) ← takeBytes 1 s
  need (prot == [0] || prot == [1]) .format
  let (orig, s) ← takeBytes 8 s
  parseTable (prot == [1]) (fromLe orig) s

/-- ParseContainer from the constants `fs` on. -/
def parseConstants : List Bytes → Bytes → Except Err Parsed
  | [], s => parseSize s
  | f :: fs, s => do
    let (b, s) ← takeBytes f.length s
    need (b == f) .format
    parseConstants fs s

theorem parseContainer_eq_parseConstants (p : Params) (s : Bytes) : parseContainer p s = parseConstants (constantFields p) s := rfl

theorem parseConstants_append (good rest : List Bytes) (s : Bytes) :
    parseConstants (good ++ rest) (good.flatten ++ s) = parseConstants rest s := by
  induction good with
  | nil => rfl
  | cons f fs ih =>
    rw [List.cons_append, List.flatten_cons, List.append_assoc, parseConstants, takeBytes_append rfl]
    simpa using ih

theorem parseContainer_constants (p : Params) (s : Bytes) : parseContainer p ((constantFields p).flatten ++ s) = parseSize s := by
  have h := parseConstants_append (constantFields p) [] s
  rwa [List.append_nil] at h

/-- A good protection id is passed. -/
theorem parseSize_prot (prot : Bool) (s : Bytes) :
    parseSize ([if prot then 1 else 0] ++ s) = takeBytes 8 s >>= fun r => parseTable prot (fromLe r.1) r.2 := by
  rw [parseSize, takeBytes_append (k := 1) rfl]
  cases prot <;> rfl

theorem parseContainer_sizeHead (p : Params) (prot : Bool) (orig : Nat) (s : Bytes) :
    parseContainer p (sizeHead p prot orig ++ s) = parseTable prot (orig % 256 ^ 8) s := by
  rw [sizeHead, List.append_assoc, List.append_assoc, parseContainer_constants, parseSize_prot,
    takeBytes_append (length_leField 8 orig), ok_bind, leField_eq, fromLe_leBytes]

/-- A count is at most 65280 exactly where its field, read as a signed number, is neither negative nor above that. -/
theorem fromSle32_leField_iff {n : Nat} (h : n < 2 ^ 32) :
    0 ≤ fromSle32 (leField 4 n) ∧ fromSle32 (leField 4 n) ≤ maxEntries ↔ n ≤ 65280 := by
  rw [fromSle32, fromLe_leField_of_lt h, maxEntries]
  split <;> omega

/-- The count of entries is checked before the entries are taken; from 2^31 on it is negative. -/
theorem parseTable_count {prot : Bool} {orig n : Nat} (h : n < 2 ^ 32) (s : Bytes) :
    parseTable prot orig (leField 4 n ++ s) =
      if n ≤ 65280 then parseEntries none [] 0 n s >>= fun r => parseTrailer prot orig r.1 r.2.1 r.2.2
      else .error .format := by
  rw [parseTable, takeBytes_append (length_leField 4 n), ok_bind]
  simp only [need_bind, Bool.and_eq_true, decide_eq_true_eq, fromSle32_leField_iff h]
  split
  · next hn => rw [leField_eq, fromSle32_leBytes (by omega), Int.toNat_natCast]
  · rfl

theorem parseContainer_count (p : Params) (prot : Bool) (orig : Nat) {n : Nat} (h : n ≤ 65280) (s : Bytes) :
    parseContainer p (sizeHead p prot orig ++ leField 4 n ++ s) =
      parseEntries none [] 0 n s >>= fun r => parseTrailer prot (orig % 256 ^ 8) r.1 r.2.1 r.2.2 := by
  rw [List.append_assoc, parseContainer_sizeHead, parseTable_count (by omega), if_pos h]

theorem parseContainer_tableHead (p : Params) (prot : Bool) (orig : Nat) {es : List Entry} (hlen : es.length ≤ 65280)
    (hv : ValidTable es) (s : Bytes) :
    parseContainer p (tableHead p prot orig es ++ s) = parseTrailer prot (orig % 256 ^ 8) es (tableTotal es) s := by
  have hentries : parseEntries none [] 0 es.length (tableField es ++ s) = .ok (es, tableTotal es, s) :=
    parseEntries_eq_ok.2 ⟨by rw [tableField_eq], rfl, validateEntries_of_valid hv⟩
  rw [tableHead, List.append_assoc, parseContainer_count p prot orig hlen, hentries, ok_bind]

/-- The valid bits are checked before the payload length is taken. -/
theorem parseTrailer_cons (prot : Bool) (orig total : Nat) (es : List Entry) (vb : Byte) (s : Bytes) :
    parseTrailer prot orig es total (vb :: s) =
      if 1 ≤ vb.toNat ∧ vb.toNat ≤ 8 then do
        let (plen, s) ← takeBytes 4 s
        let (pl, s) ← takeBytes (fromLe plen) s
        need s.isEmpty .format
        .ok ⟨prot, orig, es, total, vb.toNat, pl⟩
      else .error .format := by
  have hval : fromLe [vb] = vb.toNat := rfl
  rw [parseTrailer, ← List.singleton_append, takeBytes_append (k := 1) rfl, ok_bind]
  dsimp only
  rw [hval, need_bind]
  simp only [Bool.and_eq_true, decide_eq_true_eq]

/-- The payload is taken before it is asked whether bytes are left behind it. -/
theorem parseTrailer_length {prot : Bool} {orig total n : Nat} {es : List Entry} {vb : Byte} (hlo : 1 ≤ vb.toNat)
    (hhi : vb.toNat ≤ 8) (h : n < 2 ^ 32) (s : Bytes) :
    parseTrailer prot orig es total (vb :: leField 4 n ++ s) = takeBytes n s >>= fun r =>
      if r.2 = [] then .ok ⟨prot, orig, es, total, vb.toNat, r.1⟩ else .error .format := by
  rw [List.cons_append, parseTrailer_cons, if_pos ⟨hlo, hhi⟩, takeBytes_append (length_leField 4 n), ok_bind]
  simp only [fromLe_leField_of_lt (k := 4) h, need_bind, List.isEmpty_iff]

/-! ### The layout -/

/-- The bytes of a container with these fields (30_encoding.md R110). -/
def Parsed.layout (p : Params) (c : Parsed) : Bytes :=
  tableHead p c.prot c.orig c.entries ++ BitVec.ofNat 8 c.validBits :: leField 4 c.payload.length ++ c.payload

/-- The fields are as 43_container.md R311 wants them. -/
structure Parsed.Valid (c : Parsed) : Prop where
  orig : c.orig < 2 ^ 64
  entries : c.entries.length ≤ 65280
  table : ValidTable c.entries
  total : c.total = tableTotal c.entries
  validBits : 1 ≤ c.validBits ∧ c.validBits ≤ 8
  payload : c.payload.length < 2 ^ 32

theorem parseContainer_layout {c : Parsed} (h : c.Valid) (p : Params) : parseContainer p (c.layout p) = .ok c := by
  obtain ⟨horig, hlen, hv, htotal, ⟨hlo, hhi⟩, hpl⟩ := h
  rw [Parsed.layout, tableHead_eq, leField_eq, List.append_assoc,
    parseContainer_header horig hlen (validateEntries_of_valid hv), ← htotal]
  exact parseTrailer_ok hlo hhi hpl

/-- A rejected byte string does not parse: the fields before the one that fails are passed (43_container.md R311). -/
theorem parseContainer_of_rejectedAs {p : Params} {x : Bytes} {e : Err} (h : RejectedAs p x e) :
    parseContainer p x = .error e := by
  cases h with
  | constantShort good rest f s hp hshort =>
    rw [parseContainer_eq_parseConstants, hp, parseConstants_append, parseConstants, takeBytes_short hshort]
    rfl
  | constantWrong good rest f b s hp hlen hne =>
    rw [parseContainer_eq_parseConstants, hp, List.append_assoc, parseConstants_append, parseConstants, takeBytes_append hlen,
      ok_bind]
    dsimp only
    rw [need_of_false (by simpa using hne), error_bind]
  | protShort =>
    have h := parseContainer_constants p []
    rw [List.append_nil] at h
    exact h
  | protWrong b s h0 h1 =>
    rw [parseContainer_constants, ← List.singleton_append, parseSize, takeBytes_append (k := 1) rfl, ok_bind]
    dsimp only
    rw [need_of_false (by simpa using And.intro h0 h1), error_bind]
  | origShort prot s hshort =>
    rw [List.append_assoc, parseContainer_constants, parseSize_prot, takeBytes_short hshort]
    rfl
  | countShort prot orig s hshort =>
    rw [parseContainer_sizeHead, parseTable, takeBytes_short hshort]
    rfl
  | countWrong prot orig n s hmany hlt =>
    rw [List.append_assoc, parseContainer_sizeHead, parseTable_count hlt, if_neg (by omega)]
  | entryShort prot orig n es s hn hlt hv hshort =>
    have hentries : parseEntries none [] 0 n (tableField es ++ s) = .error .trunc :=
      parseEntries_eq_error.2 ⟨es, _, hlt, validateEntries_of_valid hv, .inl ⟨s, by rw [tableField_eq], hshort, rfl⟩⟩
    rw [List.append_assoc, parseContainer_count p prot orig hn, hentries]
    rfl
  | entryWrong prot orig n es e s hn hlt hv hbad =>
    have hentries : parseEntries none [] 0 n (tableField es ++ entryField e ++ s) = .error .format :=
      parseEntries_eq_error.2 ⟨es, _, hlt, validateEntries_of_valid hv,
        .inr ⟨e, s, by rw [tableField_eq, entryField_eq], validateEntries_of_not_valid hbad⟩⟩
    rw [List.append_assoc, List.append_assoc, ← List.append_assoc (tableField es), parseContainer_count p prot orig hn, hentries]
    rfl
  | validBitsShort prot orig es hlen hv =>
    have h := parseContainer_tableHead p prot orig hlen hv []
    rw [List.append_nil] at h
    exact h
  | validBitsWrong prot orig es vb s hlen hv hbad =>
    rw [parseContainer_tableHead p prot orig hlen hv, parseTrailer_cons, if_neg (by omega)]
  | lengthShort prot orig es vb s hlen hv hlo hhi hshort =>
    rw [parseContainer_tableHead p prot orig hlen hv, parseTrailer_cons, if_pos ⟨hlo, hhi⟩, takeBytes_short hshort]
    rfl
  | payloadShort prot orig n es vb pl hlen hv hlo hhi hn hshort =>
    rw [List.append_assoc, parseContainer_tableHead p prot orig hlen hv, parseTrailer_length hlo hhi hn, takeBytes_short hshort]
    rfl
  | bytesBehind prot orig es vb pl s hlen hv hlo hhi hn hne =>
    rw [List.append_assoc, List.append_assoc, ← List.append_assoc _ pl, parseContainer_tableHead p prot orig hlen hv,
      List.append_assoc, parseTrailer_length hlo hhi hn, takeBytes_append rfl, ok_bind, if_neg hne]

/-! ### Every byte string is a layout or is rejected -/

/-- The byte string is the layout of valid fields or is rejected. -/
def LayoutOrRejected (p : Params) (x : Bytes) : Prop := (∃ c : Parsed, c.Valid ∧ x = c.layout p) ∨ ∃ e, RejectedAs p x e

theorem layoutOrRejected_tableHead (p : Params) (prot : Bool) {orig : Nat} {es : List Entry} (horig : orig < 2 ^ 64)
    (hlen : es.length ≤ 65280) (hv : ValidTable es) (s : Bytes) : LayoutOrRejected p (tableHead p prot orig es ++ s) := by
  cases s with
  | nil => exact .inr ⟨_, by simpa using RejectedAs.validBitsShort prot orig es hlen hv⟩
  | cons vb s =>
    by_cases hvb : vb.toNat < 1 ∨ 8 < vb.toNat
    · exact .inr ⟨_, .validBitsWrong prot orig es vb s hlen hv hvb⟩
    have hlo : 1 ≤ vb.toNat := by omega
    have hhi : vb.toNat ≤ 8 := by omega
    obtain hshort | hlong := Nat.lt_or_ge s.length 4
    · exact .inr ⟨_, .lengthShort prot orig es vb s hlen hv hlo hhi hshort⟩
    obtain ⟨n, s, hn, rfl⟩ := exists_eq_leField_append hlong
    obtain hshort | hle := Nat.lt_or_ge s.length n
    · exact .inr ⟨_, by simpa using RejectedAs.payloadShort prot orig n es vb s hlen hv hlo hhi hn hshort⟩
    obtain ⟨pl, r, rfl, rfl⟩ := exists_eq_append_of_le_length hle
    by_cases hr : r = []
    · exact .inl ⟨⟨prot, orig, es, tableTotal es, vb.toNat, pl⟩, ⟨horig, hlen, hv, rfl, ⟨hlo, hhi⟩, hn⟩, by
        simp [Parsed.layout, hr]⟩
    · exact .inr ⟨_, by simpa using RejectedAs.bytesBehind prot orig es vb pl r hlen hv hlo hhi hn hr⟩

theorem layoutOrRejected_sizeHead (p : Params) (prot : Bool) {orig : Nat} (horig : orig < 2 ^ 64) (s : Bytes) :
    LayoutOrRejected p (sizeHead p prot orig ++ s) := by
  obtain hshort | hlong := Nat.lt_or_ge s.length 4
  · exact .inr ⟨_, .countShort prot orig s hshort⟩
  obtain ⟨n, s, hn, rfl⟩ := exists_eq_leField_append hlong
  obtain hmany | hle := Nat.lt_or_ge 65280 n
  · exact .inr ⟨_, by simpa using RejectedAs.countWrong prot orig n s hmany hn⟩
  cases hentries : parseEntries none [] 0 n s with
  | ok r =>
    obtain ⟨hs, hlen, hv⟩ := parseEntries_eq_ok.1 hentries
    have h := layoutOrRejected_tableHead p prot horig (hlen.trans_le hle) (validateEntries_eq_ok.1 hv).1 r.2.2
    rwa [tableHead, hlen, List.append_assoc, List.append_assoc, tableField_eq, ← hs] at h
  | error e =>
    obtain ⟨es, total, hlt, hv, ⟨r, rfl, hshort, -⟩ | ⟨e', r, rfl, hbad⟩⟩ := parseEntries_eq_error.1 hentries
    · have hvalid := (validateEntries_eq_ok.1 hv).1
      exact .inr ⟨_, by simpa [tableField_eq] using RejectedAs.entryShort prot orig n es r hle hlt hvalid hshort⟩
    · have hvalid := (validateEntries_eq_ok.1 hv).1
      have hinvalid : ¬ ValidTable (es ++ [e']) := fun h => by
        rw [show validateFrom none [] 0 _ = _ from validateEntries_of_valid h] at hbad
        cases hbad
      exact .inr ⟨_, by
        simpa [tableField_eq, entryField_eq] using RejectedAs.entryWrong prot orig n es e' r hle hlt hvalid hinvalid⟩

theorem layoutOrRejected_constants (p : Params) (s : Bytes) : LayoutOrRejected p ((constantFields p).flatten ++ s) := by
  cases s with
  | nil => exact .inr ⟨_, by simpa using RejectedAs.protShort (p := p)⟩
  | cons b s =>
    by_cases hb : b = 0 ∨ b = 1
    · obtain ⟨prot, rfl⟩ : ∃ prot : Bool, b = if prot then 1 else 0 := by
        obtain rfl | rfl := hb
        exacts [⟨false, rfl⟩, ⟨true, rfl⟩]
      obtain hshort | hlong := Nat.lt_or_ge s.length 8
      · exact .inr ⟨_, by simpa using RejectedAs.origShort (p := p) prot s hshort⟩
      obtain ⟨orig, s, horig, rfl⟩ := exists_eq_leField_append hlong
      simpa [sizeHead] using layoutOrRejected_sizeHead p prot horig s
    · exact .inr ⟨_, .protWrong b s (fun h => hb (.inl h)) fun h => hb (.inr h)⟩

/-- Behind the constants `good` the next constant is there, is cut short or is wrong. -/
theorem layoutOrRejected_of_constantFields {p : Params} {good rest : List Bytes} (hp : constantFields p = good ++ rest)
    (s : Bytes) : LayoutOrRejected p (good.flatten ++ s) := by
  induction rest generalizing good s with
  | nil =>
    rw [List.append_nil] at hp
    exact hp ▸ layoutOrRejected_constants p s
  | cons f rest ih =>
    obtain hshort | hle := Nat.lt_or_ge s.length f.length
    · exact .inr ⟨_, .constantShort good rest f s hp hshort⟩
    obtain ⟨b, s, rfl, hlen⟩ := exists_eq_append_of_le_length hle
    by_cases hb : b = f
    · subst hb
      simpa using ih (good := good ++ [b]) (by simpa using hp) s
    · exact .inr ⟨_, by simpa using RejectedAs.constantWrong good rest f b s hp hlen hb⟩

theorem layoutOrRejected (p : Params) (x : Bytes) : LayoutOrRejected p x := layoutOrRejected_of_constantFields (good := []) rfl x

/-- A container parses exactly when it is the layout of its fields (43_container.md R311). -/
theorem parseContainer_eq_ok {p : Params} {x : Bytes} {c : Parsed} : parseContainer p x = .ok c ↔ c.Valid ∧ x = c.layout p := by
  refine ⟨fun h => ?_, fun ⟨hc, hx⟩ => hx ▸ parseContainer_layout hc p⟩
  obtain ⟨c', hc', rfl⟩ | ⟨e, he⟩ := layoutOrRejected p x
  · rw [parseContainer_layout hc'] at h
    cases h
    exact ⟨hc', rfl⟩
  · rw [parseContainer_of_rejectedAs he] at h
    cases h

theorem parseContainer_eq_error {p : Params} {x : Bytes} {e : Err} : parseContainer p x = .error e ↔ RejectedAs p x e := by
  refine ⟨fun h => ?_, parseContainer_of_rejectedAs⟩
  obtain ⟨c, hc, rfl⟩ | ⟨e', he'⟩ := layoutOrRejected p x
  · rw [parseContainer_layout hc] at h
    cases h
  · rw [parseContainer_of_rejectedAs he'] at h
    cases h
    exact he'

theorem Parsed.layout_eq (p : Params) (c : Parsed) :
    c.layout p = p.signature.toBytes ++ p.version.toBytes ++ [p.algIdRle] ++ [p.algIdHuf] ++ [if c.prot then 1 else 0] ++
      leField 8 c.orig ++ leField 4 c.entries.length ++ tableField c.entries ++ [BitVec.ofNat 8 c.validBits] ++
      leField 4 c.payload.length ++ c.payload := by
  simp [Parsed.layout, tableHead, sizeHead, constantFields]

/-- Settles O35: every byte string is the layout of valid fields or is rejected, and the parser answers each as it is. -/
theorem parseContainerAcceptsTheLayout : Obligations.ParseContainerAcceptsTheLayout := by
  refine ⟨fun p x c => ?_, fun p x e => parseContainer_eq_error⟩
  rw [parseContainer_eq_ok, Parsed.layout_eq]
  constructor
  · rintro ⟨⟨horig, hlen, hv, htotal, ⟨hlo, hhi⟩, hpl⟩, hx⟩
    exact ⟨horig, hlen, hv, htotal, hlo, hhi, hpl, hx⟩
  · rintro ⟨horig, hlen, hv, htotal, hlo, hhi, hpl, hx⟩
    exact ⟨⟨horig, hlen, hv, htotal, ⟨hlo, hhi⟩, hpl⟩, hx⟩

end Sys2Proof.Machine
end

section
/-! The commands ENCODE (43_container.md R300, R301) and DECODE (R310, R312, R317): what their pseudocode answers, the completion it
gives, that DECODE reads back what ENCODE wrote (R320), and that a container cut by its last byte is TRUNC (R321). -/

namespace Sys2Proof.Machine

/-! ### What ENCODE makes -/

/-- The bits of the payload of source bytes `x` (43_container.md R301). -/
def encodedBits (x : Bytes) : BitString := payloadBits (codeGen (treeBuild (freqTable (rleForward x)))) (rleForward x)

/-- The fields of the container of source bytes `x` (43_container.md R301). -/
def encodedFields (p : Params) (prot : Bool) (x : Bytes) : Parsed where
  prot := prot
  orig := x.length
  entries := freqTable (rleForward x)
  total := (rleForward x).length
  validBits := validBits (encodedBits x).length
  payload := protect p prot (packed (encodedBits x))

theorem length_encodedFields_payload (p : Params) (prot : Bool) (x : Bytes) :
    (encodedFields p prot x).payload.length = ceilDiv8 (encodedBits x).length := by
  rw [encodedFields, length_protect, length_packed]

theorem Parsed.length_layout (p : Params) (c : Parsed) :
    (c.layout p).length = 28 + 10 * c.entries.length + c.payload.length := by
  rw [Parsed.layout, tableHead_eq, List.length_append, List.length_append, length_containerHeader, List.length_cons,
    length_leField]
  omega

/-- The payload of a layout that fits DST_CAP fits its length field. -/
theorem Parsed.payload_length_lt_of_layout {p : Params} {c : Parsed} {n : Nat} (h : (c.layout p).length ≤ n) (hn : n < 2 ^ 32) :
    c.payload.length < 2 ^ 32 := by
  rw [Parsed.length_layout] at h
  omega

theorem length_encodedFields_layout (p : Params) (prot : Bool) (x : Bytes) :
    ((encodedFields p prot x).layout p).length =
      28 + 10 * (freqTable (rleForward x)).length + ((encodedBits x).length + 7) / 8 := by
  rw [Parsed.length_layout, length_encodedFields_payload]
  rfl

/-- The fields of a container that ENCODE makes are as the parser wants them. -/
theorem encodedFields_valid (p : Params) (prot : Bool) {x : Bytes} (hx : x.length < 2 ^ 64)
    (hpl : (encodedFields p prot x).payload.length < 2 ^ 32) : (encodedFields p prot x).Valid where
  orig := hx
  entries := freqTableHasAtMost65280Entries _ fun _ => run_of_mem_rleForward
  table := freqTablesAreValid _ ((length_rleForward x).trans_lt hx) fun _ => run_of_mem_rleForward
  total := (tableTotal_freqTable ((length_rleForward x).trans_lt hx)).symm
  validBits := validBits_bounds _
  payload := hpl

/-- EncodeContainer lays the fields out, where the codes and the payload are not too long. -/
theorem encodeContainer_eq (p : Params) (x : Bytes) (prot : Bool) :
    encodeContainer p x prot =
      if maxCodeLen (codeGen (treeBuild (freqTable (rleForward x)))) ≤ p.codeLenMax.val then
        if (encodedFields p prot x).payload.length < 2 ^ 32 then
          .ok ⟨(encodedFields p prot x).layout p, (freqTable (rleForward x)).length, validBits (encodedBits x).length,
            ceilDiv8 (encodedBits x).length, (rleForward x).length⟩
        else .error .alloc
      else .error .alloc := by
  have hbytes : (encodedFields p prot x).layout p =
      containerHeader p prot x.length (freqTable (rleForward x)) ++ [BitVec.ofNat 8 (validBits (encodedBits x).length)] ++
        leBytes 4 (packed (encodedBits x)).length ++ protect p prot (packed (encodedBits x)) := by
    rw [Parsed.layout, tableHead_eq, length_encodedFields_payload, leField_eq, length_packed, List.append_assoc _ [_]]
    rfl
  rw [hbytes, length_encodedFields_payload, ← length_packed]
  simp only [encodeContainer, need_bind, decide_eq_true_eq, Nat.le_sub_one_iff_lt (Nat.two_pow_pos 32)]
  rfl

/-- ENCODE fails with ALLOC alone: the payload fits its length field where the container fits DST_CAP. -/
theorem encodeBody_eq {p : Params} {cap : Nat} (hcap : cap < 2 ^ 32) (prot : Bool) (x : Bytes) :
    encodeBody p cap prot x =
      if maxCodeLen (codeGen (treeBuild (freqTable (rleForward x)))) ≤ p.codeLenMax.val ∧
          ((encodedFields p prot x).layout p).length ≤ cap then
        .ok ((encodedFields p prot x).layout p,
          ⟨BitVec.ofNat 32 ((encodedFields p prot x).layout p).length, BitVec.ofNat 32 (freqTable (rleForward x)).length,
            BitVec.ofNat 32 (validBits (encodedBits x).length), BitVec.ofNat 32 (encodedFields p prot x).payload.length,
            BitVec.ofNat 32 (rleForward x).length⟩)
      else .error .alloc := by
  rw [encodeBody, encodeContainer_eq]
  by_cases hcodes : maxCodeLen (codeGen (treeBuild (freqTable (rleForward x)))) ≤ p.codeLenMax.val
  · by_cases hfit : ((encodedFields p prot x).layout p).length ≤ cap
    · have hpl := Parsed.payload_length_lt_of_layout hfit hcap
      rw [if_pos hcodes, if_pos hpl, if_pos ⟨hcodes, hfit⟩, ok_bind, need_of_true (decide_eq_true hfit),
        length_encodedFields_payload]
      rfl
    · rw [if_pos hcodes, if_neg (not_and_of_not_right _ hfit)]
      split
      · rw [ok_bind, need_of_false (decide_eq_false hfit)]
        rfl
      · rfl
  · rw [if_neg hcodes, if_neg (not_and_of_not_left _ hcodes)]
    rfl

/-! ### What DECODE reads -/

theorem decodeContents_of_total_zero {c : Parsed} (h : c.total = 0) (p : Params) (cap : Nat) : decodeContents p cap c = .ok [] := by
  rw [decodeContents, if_pos h]

/-- With a tree the contents are what the stream decoder puts out (43_container.md R312). -/
theorem decodeContents_of_tree {c : Parsed} {t : HuffTree} (ht : treeBuild c.entries = some t) (p : Params) (cap : Nat) :
    decodeContents p cap c =
      (decodeStream t (protect p c.prot c.payload) (bitLimit (protect p c.prot c.payload).length c.validBits) (emitRun cap)
        c.total 0 []).map Prod.fst := by
  rw [decodeContents, ht]
  split
  · next h => rw [h]; rfl
  · dsimp only
    split
    · next h => rw [h]; rfl
    · next h => rw [h]; rfl

theorem decodeBody_of_parse {p : Params} {x : Bytes} {c : Parsed} (h : parseContainer p x = .ok c) (cap : Nat) :
    decodeBody p cap x = (decodeContents p cap c).map fun out =>
      (out, ⟨BitVec.ofNat 32 out.length, BitVec.ofNat 32 c.orig, BitVec.ofNat 32 (c.orig / 2 ^ 32),
        BitVec.ofNat 32 c.entries.length, if c.prot then 1 else 0⟩, decide (out.length ≠ c.orig)) := by
  have hprot : BitVec.ofNat 32 c.prot.toNat = if c.prot then 1 else 0 := by cases c.prot <;> rfl
  rw [decodeBody, h, ok_bind, ← hprot, ← Nat.shiftRight_eq_div_pow]
  rfl

theorem decodeBody_of_parse_error {p : Params} {x : Bytes} {e : Err} (h : parseContainer p x = .error e) (cap : Nat) :
    decodeBody p cap x = .error e := by
  rw [decodeBody, h]
  rfl

/-- The codes of a table's pairs, packed, decode to the expansion of the pairs (42_bitpack.md R263, 43_container.md R313). -/
theorem decodeStream_emitRun_packed {t : HuffTree} {ps : List Pair} {cap : Nat}
    (hall : ∀ p ∈ ps, ((codeGen (some t)).code p.sym).isSome = true) (hcap : (rleInverse ps).length ≤ cap) :
    decodeStream t (packed (payloadBits (codeGen (some t)) ps)) (payloadBits (codeGen (some t)) ps).length (emitRun cap) ps.length
      0 [] = .ok (rleInverse ps, (payloadBits (codeGen (some t)) ps).length) := by
  have h := decodeStream_codes (emit := emitRun cap) (n := 0) (out := []) hall (holdsBits_packed _) (Nat.zero_add _).le
  rw [foldlM_emitRun (by simpa using hcap), ok_bind, Nat.zero_add] at h
  exact h

/-- DECODE of the fields that ENCODE makes puts the source bytes out again (43_container.md R320). -/
theorem decodeContents_encodedFields (p : Params) (prot : Bool) {x : Bytes} {cap : Nat} (hcap : x.length ≤ cap) :
    decodeContents p cap (encodedFields p prot x) = .ok x := by
  have hback := rleInverse_rleForward x
  obtain hnil | hne := eq_or_ne (rleForward x) []
  · have htotal : (encodedFields p prot x).total = 0 := congrArg List.length hnil
    rw [decodeContents_of_total_zero htotal, ← hback, hnil]
    rfl
  · obtain ⟨q, hq⟩ := List.exists_mem_of_ne_nil _ hne
    have hsym {r : Pair} (hr : r ∈ rleForward x) : r.sym ∈ (freqTable (rleForward x)).map Entry.sym :=
      mem_freqTable_syms.2 ⟨r, hr, rfl⟩
    have htable : freqTable (rleForward x) ≠ [] := fun hes => by simpa [hes] using hsym hq
    obtain ⟨n, -, ht⟩ := treeBuild_eq_some htable
    have hbits : encodedBits x = payloadBits (codeGen (some n.tree)) (rleForward x) := by rw [encodedBits, ht]
    have hread := decodeStream_emitRun_packed (fun r hr => isSome_code_of_mem_table ht (hsym hr)) (hback.symm ▸ hcap)
    rw [decodeContents_of_tree ht]
    simp only [encodedFields, protect_protect, length_packed, bitLimit_validBits, hbits, hread, hback]
    rfl

/-! ### The commands -/

theorem State.Reads.of_encode {s : State} {x : Bytes} {prot : Bool} (hr : s.RangesOk (.encode prot)) (hx : s.SourceIs x) :
    s.Reads (.encode prot) x :=
  ⟨hr, stateCheck_ok_iff.1 rfl, rfl, (source_eq rfl).2 hx⟩

theorem State.Reads.of_decode {s : State} {x : Bytes} (hr : s.RangesOk .decode) (hx : s.SourceIs x) : s.Reads .decode x :=
  ⟨hr, stateCheck_ok_iff.1 rfl, rfl, (source_eq rfl).2 hx⟩

/-- Where the pseudocode succeeds and clears the flags, the command writes its output and results, with TV = CV = 0. -/
theorem State.Reads.succeedsCleared {s : State} {i : Instr} {x out : Bytes} {res : ResultRegs} {mis : Bool} (h : s.Reads i x)
    (hb : execBody i s x = .ok (s.clearingSuccess out res mis)) :
    ∃ t, exec i s = .next t ∧ Succeeds s t out res mis ∧ ClearsFlags s t :=
  ⟨_, exec_of_body_ok h.ranges h.needs h.pre h.source hb, completeOk_succeeds s _, rfl, rfl, rfl, rfl⟩

/-- Where the pseudocode of a command whose errors clear the flags raises `e`, the command fails with `e` and TV = CV = 0. -/
theorem State.Reads.failsCleared {s : State} {i : Instr} {x : Bytes} {e : Err} (h : s.Reads i x)
    (hf : execOnErr i s e = ErrFlags.cleared) (hb : execBody i s x = .error e) :
    ∃ t, exec i s = .next t ∧ FailsWith i s t e ∧ ClearsFlags s t := by
  refine ⟨_, exec_of_body_error h.ranges h.needs h.pre h.source hb, completeErr_fails s i e _, ?_⟩
  rw [hf]
  exact ⟨State.completeErr_tree .., State.completeErr_ct .., rfl, rfl⟩

/-- DECODE of a container with these fields whose contents decode writes the contents. -/
theorem decode_succeeds {s : State} {x out : Bytes} {c : Parsed} (h : s.Reads .decode x) (hc : parseContainer s.cfg x = .ok c)
    (hout : decodeContents s.cfg s.latch.ops.cap c = .ok out) :
    ∃ t, exec .decode s = .next t ∧
      Succeeds s t out
        ⟨BitVec.ofNat 32 out.length, BitVec.ofNat 32 c.orig, BitVec.ofNat 32 (c.orig / 2 ^ 32), BitVec.ofNat 32 c.entries.length,
          if c.prot then 1 else 0⟩ (decide (out.length ≠ c.orig)) ∧
      ClearsFlags s t := by
  have hbody := decodeBody_of_parse hc s.latch.ops.cap
  rw [hout] at hbody
  exact h.succeedsCleared (map_eq_ok.2 ⟨_, hbody, rfl⟩)

theorem decode_fails {s : State} {x : Bytes} {e : Err} (h : s.Reads .decode x)
    (hb : decodeBody s.cfg s.latch.ops.cap x = .error e) :
    ∃ t, exec .decode s = .next t ∧ FailsWith .decode s t e ∧ ClearsFlags s t :=
  h.failsCleared rfl (map_eq_error.2 hb)

/-- ENCODE writes the container where its codes are not too long and it fits DST_CAP. -/
theorem encode_succeeds {s : State} {x : Bytes} {prot : Bool} (h : s.Reads (.encode prot) x)
    (hcodes : ∀ e ∈ codeGen (treeBuild (freqTable (rleForward x))), e.2.length ≤ s.cfg.codeLenMax.val)
    (hfit : ((encodedFields s.cfg prot x).layout s.cfg).length ≤ s.latch.ops.dstCap.toNat) :
    ∃ t, exec (.encode prot) s = .next t ∧
      Succeeds s t ((encodedFields s.cfg prot x).layout s.cfg)
        ⟨BitVec.ofNat 32 ((encodedFields s.cfg prot x).layout s.cfg).length, BitVec.ofNat 32 (freqTable (rleForward x)).length,
          BitVec.ofNat 32 (validBits (encodedBits x).length), BitVec.ofNat 32 (encodedFields s.cfg prot x).payload.length,
          BitVec.ofNat 32 (rleForward x).length⟩ false ∧
      ClearsFlags s t :=
  h.succeedsCleared (map_eq_ok.2
    ⟨_, (encodeBody_eq s.latch.ops.dstCap.isLt ..).trans (if_pos ⟨maxCodeLen_le.2 hcodes, hfit⟩), rfl⟩)

/-- Settles O33: the codes and the room for the container are the two checks. -/
theorem encodeWritesTheContainer : Obligations.EncodeWritesTheContainer := by
  intro s x prot hr hx ps es c bits plain pl vb out
  have h : s.Reads (.encode prot) x := .of_encode hr hx
  have hout : out = (encodedFields s.cfg prot x).layout s.cfg := by
    rw [Parsed.layout_eq]
    rfl
  have hpl : pl = (encodedFields s.cfg prot x).payload := rfl
  rw [hout, hpl]
  refine ⟨length_encodedFields_layout .., encode_succeeds h, fun hbad => ?_⟩
  refine h.failsCleared rfl (map_eq_error.2 ((encodeBody_eq s.latch.ops.dstCap.isLt ..).trans (if_neg ?_)))
  rintro ⟨hmax, hfit⟩
  obtain ⟨e, he, hlong⟩ | hover := hbad
  · exact absurd (maxCodeLen_le.1 hmax e he) (Nat.not_le.2 hlong)
  · exact absurd hfit (Nat.not_le.2 hover)

/-- Settles O34: behind the parser DECODE answers what the stream decoder does, which is what `Decodes` says. -/
theorem decodeWritesTheContents : Obligations.DecodeWritesTheContents := by
  intro s x hr hx
  have h : s.Reads .decode x := .of_decode hr hx
  refine ⟨fun e he => decode_fails h (decodeBody_of_parse_error he _), ?_⟩
  intro c hc total pl writes
  have htotal : c.total = total := (parseContainer_eq_ok.1 hc).1.total
  refine ⟨fun hzero => decode_succeeds h hc (decodeContents_of_total_zero (htotal.trans hzero) ..), fun tr htr => ?_⟩
  have hcontents := decodeContents_of_tree htr s.cfg s.latch.ops.cap
  rw [htotal] at hcontents
  refine ⟨fun out pos hd => decode_succeeds h hc ?_, fun e hd => decode_fails h ?_⟩
  · exact hcontents.trans (congrArg (Except.map Prod.fst) (decodeStream_emitRun_iff.2 hd))
  · rw [decodeBody_of_parse hc, hcontents]
    exact congrArg _ (congrArg (Except.map Prod.fst) (decodeStream_emitRun_iff.2 hd))

/-! ### DECODE behind ENCODE -/

/-- Behind a success the bytes from DST_ADDR on, as many as RES_LEN says, are its output. -/
theorem Succeeds.readBytes_dst {s t : State} {out : Bytes} {res : ResultRegs} {mis : Bool} (h : Succeeds s t out res mis) :
    t.mem.readBytes s.latch.ops.dstAddr.toNat out.length = some out := by
  refine Memory.readBytes_eq_some.2 ⟨rfl, fun k hk => ?_⟩
  rw [h.mem, if_pos (by omega), Nat.add_sub_cancel_left]

theorem State.SourceIs.length_lt {s : State} {x : Bytes} (h : s.SourceIs x) : x.length < 2 ^ 32 :=
  (Memory.readBytes_eq_some.1 h).1 ▸ s.latch.ops.srcLen.isLt

/-- Settles O36: ENCODE writes the layout of its fields, the parser reads the fields back, and their contents are the input. -/
theorem decodeOfEncodeIsTheInput : Obligations.DecodeOfEncodeIsTheInput := by
  intro s x prot hr hx hcodes hfit
  have hcap := s.latch.ops.dstCap.isLt
  let c := encodedFields s.cfg prot x
  have hlen : (c.layout s.cfg).length ≤ s.latch.ops.dstCap.toNat := (length_encodedFields_layout ..).trans_le hfit
  obtain ⟨t, ht, hsucc, -⟩ := encode_succeeds (.of_encode hr hx) hcodes hlen
  have hresLen : t.res.resLen.toNat = (c.layout s.cfg).length := by
    rw [hsucc.res, BitVec.toNat_ofNat, Nat.mod_eq_of_lt (hlen.trans_lt hcap)]
  have hc : c.Valid := encodedFields_valid _ _ (hx.length_lt.trans (by decide)) (Parsed.payload_length_lt_of_layout hlen hcap)
  refine ⟨t, ht, hsucc.err, c.layout s.cfg, hresLen ▸ hsucc.readBytes_dst, fun u hcfg hru hy hroom => ?_⟩
  have hparse : parseContainer u.cfg (c.layout s.cfg) = .ok c := hcfg ▸ parseContainer_layout hc s.cfg
  have hcontents : decodeContents u.cfg u.latch.ops.cap c = .ok x := by
    rw [hcfg]
    exact decodeContents_encodedFields s.cfg prot hroom
  obtain ⟨v, hv, hdone, -⟩ := decode_succeeds (.of_decode hru hy) hparse hcontents
  refine ⟨v, hv, hdone.err, hdone.szmis.trans (decide_eq_false (not_not.2 rfl)), ?_, hdone.readBytes_dst⟩
  rw [hdone.res, BitVec.toNat_ofNat, Nat.mod_eq_of_lt hx.length_lt]

/-! ### A container cut by its last byte -/

/-- The layout of valid fields without its last byte is cut short in the payload or, where that is empty, in its length. -/
theorem rejectedAs_dropLast_layout {c : Parsed} (h : c.Valid) (p : Params) : RejectedAs p (c.layout p).dropLast .trunc := by
  obtain ⟨hlo, hhi⟩ : 1 ≤ (BitVec.ofNat 8 c.validBits).toNat ∧ (BitVec.ofNat 8 c.validBits).toNat ≤ 8 := by
    obtain ⟨hlo, hhi⟩ := h.validBits
    rw [BitVec.toNat_ofNat]
    omega
  rw [Parsed.layout]
  obtain hnil | hne := eq_or_ne c.payload []
  · rw [hnil, List.append_nil, List.dropLast_append_of_ne_nil (List.cons_ne_nil _ _)]
    exact .lengthShort c.prot c.orig c.entries _ (leField 4 0).dropLast h.entries h.table hlo hhi (by decide)
  · rw [List.dropLast_append_of_ne_nil hne]
    have hlt : c.payload.dropLast.length < c.payload.length := by
      rw [List.length_dropLast]
      exact Nat.pred_lt_self (List.length_pos_iff.2 hne)
    exact .payloadShort c.prot c.orig c.payload.length c.entries _ _ h.entries h.table hlo hhi h.payload hlt

theorem encodeContainer_eq_ok {p : Params} {x : Bytes} {prot : Bool} {c : Encoded} (h : encodeContainer p x prot = .ok c) :
    c.bytes = (encodedFields p prot x).layout p ∧ (encodedFields p prot x).payload.length < 2 ^ 32 := by
  rw [encodeContainer_eq] at h
  split at h
  · split at h
    · next hpl =>
      cases h
      exact ⟨rfl, hpl⟩
    · cases h
  · cases h

/-- Settles O37: the container is the layout of valid fields. -/
theorem truncatedContainerIsTrunc : Obligations.TruncatedContainerIsTrunc := by
  intro s x prot c hc hx hr hsrc
  obtain ⟨hbytes, hpl⟩ := encodeContainer_eq_ok hc
  have hcut := rejectedAs_dropLast_layout (encodedFields_valid s.cfg prot (hx.trans (by decide)) hpl) s.cfg
  rw [← hbytes] at hcut
  obtain ⟨t, ht, hfails, -⟩ := decode_fails (.of_decode hr hsrc) (decodeBody_of_parse_error (parseContainer_eq_error.2 hcut) _)
  exact ⟨t, ht, hfails⟩

end Sys2Proof.Machine
end

section
/-! The control family (44_control.md R350..R353, R360, R361): whose turn a step is, what a CMD write does, that a command uses the
latched operands alone, and the commands NOP and CLEAR. -/

namespace Sys2Proof.Machine

/-! ### The latch (44_control.md R351) -/

/-- A completion writes at the latched DST_ADDR and passes the live operand registers through. -/
theorem completeErr_withOps (s : State) (o : OperandRegs) (d : Bool) (e : Err) (f : ErrFlags) :
    State.completeErr { s with ops := o } d e f = { s.completeErr d e f with ops := o } := by
  unfold State.completeErr
  cases d && e.spoilsDst <;> rfl

theorem complete_withOps (s : State) (o : OperandRegs) (d : Bool) (onErr : Err → ErrFlags) (x : Except Err Success) :
    State.complete { s with ops := o } d onErr x = { s.complete d onErr x with ops := o } := by
  cases x with
  | error e => exact completeErr_withOps s o d e (onErr e)
  | ok r => rfl

/-- A command's checks, error flags and pseudocode read the latched operands alone. -/
theorem checks_withOps (i : Instr) (s : State) (o : OperandRegs) :
    State.checks { s with ops := o } i (execPre i { s with ops := o }) = s.checks i (execPre i s) := by
  cases i <;> rfl

theorem execOnErr_withOps (i : Instr) (s : State) (o : OperandRegs) : execOnErr i { s with ops := o } = execOnErr i s := by
  cases i <;> rfl

theorem execBody_withOps (i : Instr) (s : State) (o : OperandRegs) : execBody i { s with ops := o } = execBody i s := by
  cases i <;> rfl

theorem source_withOps (s : State) (o : OperandRegs) (p : Ports) : State.source { s with ops := o } p = s.source p := rfl

/-- Settles O9: checks, source bytes and pseudocode are the same, and a completion passes the live registers through. -/
theorem commandsUseOnlyTheLatch : Obligations.CommandsUseOnlyTheLatch := by
  intro i s o
  rw [exec_eq_run i s, exec_eq_run i { s with ops := o }, State.run_eq, State.run_eq, checks_withOps, source_withOps,
    execOnErr_withOps, execBody_withOps]
  cases s.checks i (execPre i s) with
  | error e => exact congrArg _ (completeErr_withOps s o (portsOf i).dst e (execOnErr i s e))
  | ok _ =>
    cases s.source (portsOf i) with
    | none => rfl
    | some x => exact congrArg _ (complete_withOps s o (portsOf i).dst (execOnErr i s) (execBody i s x))

/-! ### Turns (44_control.md R352, 20_memory.md R80) -/

/-- The opcode table's number of a 32-bit word gives the word back. -/
theorem tableWord_toNat (w : Word) : tableWord 32 w.toNat = w := by
  rw [tableWord, Nat.mod_eq_of_lt w.isLt, BitVec.ofNat_toNat, BitVec.setWidth_eq]

theorem nextAgent_of_turns_cons {s : State} {a : Agent} {ts : List Agent} (h : s.turns = a :: ts) : s.nextAgent = a := by
  rw [State.nextAgent, h]

/-- With no command in flight the engine's turn does nothing (60_exceptions.md R425). -/
theorem step_of_engine_idle {s : State} (ha : s.nextAgent = .engine) (hb : s.status.busy = false) :
    step s = .next { s with turns := s.turns.tail } := by
  simp only [step, ha, engineStep, hb, Bool.false_eq_true, if_false]

/-- With no access left the host's turn does nothing. -/
theorem step_of_host_nil {s : State} (ha : s.nextAgent = .host) (hh : s.host = []) :
    step s = .next { s with turns := s.turns.tail } := by
  simp only [step, ha, hostStep, hh]

/-- The word of a command, placed in the latch with the engine's turn next, is run by the next step. -/
theorem step_withFetchWord (s : State) (i : Instr) :
    step (s.withFetchWord 32 (encodeWord i).toNat) = exec i (s.issue (encodeWord i)) := by
  rw [State.withFetchWord, tableWord_toNat]
  exact step_of_engine (nextAgent_of_turns_cons rfl) rfl (decodeWord_encodeWord i)

/-- Settles O4: the agent whose turn it is and what stands before it decide the step. -/
theorem stepRunsTheLatchedCommand : Obligations.StepRunsTheLatchedCommand :=
  ⟨fun _ _ hb ha => step_of_engine ha hb, fun _ hb ha => step_of_engine_idle ha hb, fun _ _ _ => step_of_host,
    fun _ => step_of_host_nil, fun _ _ _ => nextAgent_of_turns_cons, fun _ => nextAgent_of_turns_nil, step_withFetchWord⟩

/-! ### A CMD write (44_control.md R350, R353) -/

/-- A write to CMD while BUSY = 1 is dropped. -/
theorem hostAccess_cmd_of_busy {s : State} (h : s.status.busy = true) (v : Word) :
    hostAccess (wrOp .cmd v) s = .next s.dropWrite := by
  have hw : s.writeOffset (regOffset .cmd) v = s.dropWrite := by
    rw [writeOffset_regOffset, State.writeReg, State.writeCmd, if_pos h]
  rw [← hw]; rfl

/-- Settles O7: the write is the issue, which clears DONE and so lets IRQ fall. -/
theorem cmdWriteIssues : Obligations.CmdWriteIssues :=
  fun s v hidle => ⟨s.issue v, hostAccess_cmd_of_idle hidle v, rfl, Bool.false_and s.ie⟩

/-- Settles O8: the write is the drop. -/
theorem cmdWriteWhileBusyIsDropped : Obligations.CmdWriteWhileBusyIsDropped := fun _ v hbusy => hostAccess_cmd_of_busy hbusy v

/-! ### NOP and CLEAR (44_control.md R360, R361) -/

/-- Settles O38: neither command has a range or needs a table, so both reach their pseudocode from every state. -/
theorem nopAndClearComplete : Obligations.NopAndClearComplete := by
  intro s
  have hnop : s.Reads .nop [] := .of_noRanges rfl rfl (stateCheck_ok_iff.1 rfl) rfl
  have hclear : s.Reads .clear [] := .of_noRanges rfl rfl (stateCheck_ok_iff.1 rfl) rfl
  obtain ⟨t, ht, hsucc, hflags⟩ := hclear.succeedsCleared rfl
  exact ⟨hnop.succeeds rfl, t, ht, hflags, hsucc⟩

end Sys2Proof.Machine
end

section
/-! Exceptions (60_exceptions.md R401..R406, R410): the completion of an illegal word, which errors a command's completion can
report and which check each comes from, what an error leaves, and the interrupt line. -/

namespace Sys2Proof.Machine

/-! ### An illegal word (60_exceptions.md R401) -/

/-- On the engine's turn an illegal word in flight completes with ILLEGAL. -/
theorem step_of_engine_illegal {s : State} {r : IllegalWord} (ha : s.nextAgent = .engine) (hb : s.status.busy = true)
    (hd : decodeWord s.latch.cmd = .error r) : step s = .next (State.completeIllegal { s with turns := s.turns.tail }) := by
  simp only [step, ha, engineStep, completeLatched, hb, hd, if_true]

/-- Settles O5: the step is the error completion of a command that has no destination range. -/
theorem illegalWordCompletesWithIllegal : Obligations.IllegalWordCompletesWithIllegal :=
  fun _ _ hb ha hd =>
    ⟨_, step_of_engine_illegal ha hb hd, rfl, rfl, rfl, rfl, rfl, rfl, completeErr_frame _ false .illegal _⟩

/-! ### Which error a command reports (60_exceptions.md R404..R406) -/

/-- Where error `e` of command `i` comes from: the range check, the state check behind it, or behind both the command's own
processing. -/
inductive ErrorCause (s : State) (i : Instr) : Err → Prop where
  | range (hr : ¬ s.RangesOk i) : ErrorCause s i .range
  | state (hr : s.RangesOk i) (hs : ¬ StateOk i s.status) : ErrorCause s i .state
  | own {e : Err} (hr : s.RangesOk i) (hs : StateOk i s.status) (he : e.spoilsDst = true) : ErrorCause s i e

/-- A command that reports an error ended in its error completion, and the error has one of the three causes. -/
theorem exec_next_err {i : Instr} {s t : State} {e : Err} (h : exec i s = .next t) (he : t.status.err = some e) :
    t = s.completeErr (hasDst i) e (execOnErr i s e) ∧ ErrorCause s i e := by
  obtain ⟨e', rfl, hcause⟩ | ⟨x, r, -, -, -, rfl⟩ := exec_next h
  · obtain rfl : e' = e := Option.some.inj he
    refine ⟨by rw [hasDst_eq], ?_⟩
    obtain hc | ⟨hc, x, -, hb⟩ := hcause
    · obtain ⟨rfl, hr⟩ | ⟨hr, rfl, hs⟩ | ⟨hr, hs, rfl, -⟩ := checks_error hc
      · exact .range hr
      · exact .state hr hs
      · exact .own hr hs rfl
    · obtain ⟨hr, hs, -⟩ := checks_ok_iff.1 hc
      exact .own hr hs (execBody_error hb)
  · cases he

theorem ErrorCause.not_rangesOk {s : State} {i : Instr} (h : ErrorCause s i .range) : ¬ s.RangesOk i := by
  cases h with
  | range hr => exact hr
  | own _ _ he => cases he

theorem ErrorCause.not_stateOk {s : State} {i : Instr} (h : ErrorCause s i .state) : ¬ StateOk i s.status := by
  cases h with
  | state _ hs => exact hs
  | own _ _ he => cases he

/-- Settles O39: unacceptable ranges fail the first check, and no later check and no pseudocode reports RANGE. -/
theorem badRangesGiveRange : Obligations.BadRangesGiveRange := by
  intro i s
  refine ⟨fun hr => ⟨_, exec_of_bad_range hr, completeErr_fails s i .range _⟩, fun t h => ⟨fun he => ?_, fun hr => ?_⟩⟩
  · exact (exec_next_err h he).2.not_rangesOk
  · cases h.symm.trans (exec_of_bad_range hr)
    rfl

/-! ### What an error leaves (60_exceptions.md R403, 10_state.md R43) -/

/-- The commands whose errors leave TV = CV = 0 (10_state.md R43). -/
def ErrorsClearFlags (i : Instr) : Prop := i = .treeBuild ∨ i = .decode ∨ ∃ prot, i = .encode prot

theorem execOnErr_of_clears {i : Instr} (h : ErrorsClearFlags i) (s : State) (e : Err) :
    execOnErr i s e = ErrFlags.cleared := by
  obtain rfl | rfl | ⟨prot, rfl⟩ := h <;> rfl

/-- Every other command's errors keep TV, and CV too but for ALLOC of CODE_GEN. -/
theorem execOnErr_of_not_clears {i : Instr} (h : ¬ ErrorsClearFlags i) (s : State) (e : Err) :
    (execOnErr i s e).tv = s.status.tv ∧ (¬ (i = .codeGen ∧ e = .alloc) → (execOnErr i s e).cv = s.status.cv) := by
  cases i with
  | treeBuild => exact absurd (.inl rfl) h
  | decode => exact absurd (.inr (.inl rfl)) h
  | encode prot => exact absurd (.inr (.inr ⟨prot, rfl⟩)) h
  | codeGen => exact ⟨rfl, fun ha => if_neg fun he => ha ⟨rfl, he⟩⟩
  | nop | rleEnc | rleDec | freq | codeQuery | pack | unpack | xor | clear => exact ⟨rfl, fun _ => rfl⟩

/-- TREE_BUILD, ENCODE and DECODE need no state (60_exceptions.md R405). -/
theorem stateOk_of_errorsClearFlags {i : Instr} (h : ErrorsClearFlags i) (st : Status) : StateOk i st := by
  obtain rfl | rfl | ⟨prot, rfl⟩ := h <;> exact stateCheck_ok_iff.1 rfl

/-- Settles O40: behind the range check a missing state fails the next one, and no command that needs a state clears flags on
STATE. -/
theorem missingTreeOrTableGivesState : Obligations.MissingTreeOrTableGivesState := by
  intro i s hr
  refine ⟨fun hs => ?_, fun t h => ⟨fun he => ?_, fun hs => ?_⟩⟩
  · obtain ⟨htv, hcv⟩ := execOnErr_of_not_clears (fun hc => hs (stateOk_of_errorsClearFlags hc _)) s .state
    exact ⟨_, exec_of_bad_state hr hs, completeErr_fails s i .state _, State.completeErr_tree .., State.completeErr_ct .., htv,
      hcv nofun⟩
  · exact (exec_next_err h he).2.not_stateOk
  · cases h.symm.trans (exec_of_bad_state hr hs)
    rfl

/-- Settles O41: an error is the one error completion, with the flags of the command's row. -/
theorem errorsLeaveWhatTheRuleSays : Obligations.ErrorsLeaveWhatTheRuleSays := by
  intro i s t e h he
  obtain ⟨rfl, -⟩ := exec_next_err h he
  refine ⟨completeErr_fails s i e _, State.completeErr_tree .., State.completeErr_ct .., fun hc => ?_, fun hn => ?_, ?_,
    fun hn => ?_⟩
  · rw [State.completeErr_status, execOnErr_of_clears hc]
    exact ⟨rfl, rfl⟩
  · exact (execOnErr_of_not_clears hn s e).1
  · rintro rfl rfl
    rfl
  · exact (execOnErr_of_not_clears hn s e).2

/-! ### The interrupt line (60_exceptions.md R410) -/

theorem State.irq_eq_true {s : State} : s.irq = true ↔ s.status.done = true ∧ s.ie = true := by
  rw [State.irq, Bool.and_eq_true]

theorem State.irq_of_done {s : State} (h : s.status.done = false) : s.irq = false := by
  rw [State.irq, h, Bool.false_and]

theorem State.irq_of_ie {s : State} (h : s.ie = false) : s.irq = false := by
  rw [State.irq, h, Bool.and_false]

/-- A write of 1 to STATUS bit 1 clears DONE (10_state.md R36). -/
theorem Status.done_write_of_bit (st : Status) {v : Word} (h : v.getLsbD 1 = true) : (st.write v).done = false := by
  rw [Status.write, h, Bool.not_true, Bool.and_false]

/-- A CMD write while BUSY = 0 is the issue (44_control.md R350). -/
theorem State.writeCmd_of_idle {s : State} (h : s.status.busy = false) (v : Word) : s.writeCmd v = s.issue v := by
  rw [State.writeCmd, h]
  rfl

/-- Settles O52: CTRL is IE alone, the acknowledge clears DONE, and so does the issue. -/
theorem interruptIsDoneAndEnable : Obligations.InterruptIsDoneAndEnable := by
  intro s
  have hctrl (v : Word) : s.writeOffset 0x00 v = { s with ie := v.getLsbD 0 } := writeOffset_regOffset s .ctrl v
  have hread : s.readOffset 0x00 = ctrlWord s.ie := readOffset_regOffset s .ctrl
  have hstatus (v : Word) : s.writeOffset 0x08 v = { s with status := s.status.write v } := writeOffset_regOffset s .status v
  have hcmd (v : Word) : s.writeOffset 0x04 v = s.writeCmd v := writeOffset_regOffset s .cmd v
  refine ⟨State.irq_eq_true, hctrl, ?_, fun v hv => ?_, fun v hv => ?_, fun v hidle => ?_⟩
  · rw [hread, ctrlWord, getLsbD_flagBit s.ie (by decide), decide_eq_true rfl, Bool.true_and]
  · rw [hctrl]
    exact State.irq_of_ie hv
  · rw [hstatus]
    exact State.irq_of_done (s.status.done_write_of_bit hv)
  · rw [hcmd, State.writeCmd_of_idle hidle]
    exact State.irq_of_done rfl

end Sys2Proof.Machine
end

section
/-! Completion in bounded time (70_reset_and_hazards.md R462) and the reset event (R450, R451): a step uses up one turn, the engine's
turn leaves the block idle, and with the turns used up a busy block gives the turn to the engine. -/

namespace Sys2Proof.Machine

/-! ### The turns left (20_memory.md R80) -/

theorem State.writeOffset_turns (s : State) (off : Nat) (v : Word) : (s.writeOffset off v).turns = s.turns := by
  obtain ⟨ie, ops, hw⟩ | hw | ⟨-, hw⟩ | ⟨-, hw⟩ := writeOffset_cases s off v
  · rw [hw]
  · rw [hw]
  · rw [hw, State.issue_turns]
  · rw [hw, State.dropWrite_turns]

theorem hostAccess_next_turns {s t : State} {op : HostOp} (h : hostAccess op s = .next t) : t.turns = s.turns := by
  obtain ⟨r, draws, host, rfl⟩ | ⟨off, v, -, -, rfl⟩ | ⟨a, b, -, -, -, -, rfl⟩ := hostAccess_next h
  · rfl
  · exact s.writeOffset_turns off v
  · rfl

theorem exec_next_turns {i : Instr} {s t : State} (h : exec i s = .next t) : t.turns = s.turns := by
  obtain ⟨e, rfl, -⟩ | ⟨x, r, -, -, -, rfl⟩ := exec_next h
  · exact s.completeErr_turns ..
  · exact s.completeOk_turns r

/-- Whoever moves, a step uses up one turn and schedules none. -/
theorem step_next_turns {s t : State} (h : step s = .next t) : t.turns = s.turns.tail := by
  obtain ⟨-, -, rfl⟩ | ⟨op, rest, -, -, hacc⟩ | ⟨i, -, -, -, hexec⟩ | ⟨-, -, -, rfl⟩ | ⟨-, -, rfl⟩ | ⟨-, rfl⟩ := step_next h
  · rfl
  · exact hostAccess_next_turns hacc
  · exact exec_next_turns hexec
  · exact State.completeErr_turns ..
  · rfl
  · exact State.resetEvent_turns _

/-! ### The engine's turn (44_control.md R352) -/

/-- Success or error, a completion clears BUSY. -/
theorem exec_next_idle {i : Instr} {s t : State} (h : exec i s = .next t) : t.status.busy = false := by
  obtain ⟨e, rfl, -⟩ | ⟨x, r, -, -, -, rfl⟩ := exec_next h <;> rfl

/-- Whatever word is latched, the engine's turn leaves no command in flight. -/
theorem step_next_idle_of_engine {s t : State} (ha : s.nextAgent = .engine) (h : step s = .next t) : t.status.busy = false := by
  obtain ⟨hn, -, -⟩ | ⟨_, _, hn, -, -⟩ | ⟨i, -, -, -, hexec⟩ | ⟨-, -, -, rfl⟩ | ⟨-, hidle, rfl⟩ | ⟨hn, -⟩ := step_next h
  · cases ha.symm.trans hn
  · cases ha.symm.trans hn
  · exact exec_next_idle hexec
  · rfl
  · exact hidle
  · cases ha.symm.trans hn

/-! ### Runs -/

/-- A run of one step is the step, stops included. -/
theorem core_run_one (M : Host.Core) (s : M.State) : M.run 1 s = M.step s := by
  rw [Host.Core.run]
  cases M.step s <;> rfl

theorem core_run_succ_of_next {M : Host.Core} {s t : M.State} (h : M.step s = .next t) (k : Nat) :
    M.run (k + 1) s = M.run k t := by
  rw [Host.Core.run, h]

/-- A run that comes this far finds the block idle: each step uses up a turn, and behind the last one the engine moves while
BUSY = 1 (notes/assumptions/2.md). -/
theorem exists_run_idle (s : State) :
    ∃ k ≤ s.turns.length + 1, ∀ t : State, core.run k s = .next t → t.status.busy = false := by
  induction hturns : s.turns generalizing s with
  | nil =>
    cases hb : s.status.busy with
    | false => exact ⟨0, Nat.zero_le _, fun t ht => Host.Outcome.next.inj ht ▸ hb⟩
    | true =>
      have hengine : s.nextAgent = .engine := by rw [nextAgent_of_turns_nil hturns, hb, if_pos rfl]
      exact ⟨1, le_rfl, fun t ht => step_next_idle_of_engine hengine ((core_run_one core s).symm.trans ht)⟩
  | cons a ts ih =>
    by_cases hstep : Continues (step s)
    · obtain ⟨u, hu⟩ := hstep
      have hleft : u.turns = ts := by rw [step_next_turns hu, hturns, List.tail_cons]
      obtain ⟨k, hk, hidle⟩ := ih u hleft
      exact ⟨k + 1, Nat.succ_le_succ hk, fun t ht => hidle t ((core_run_succ_of_next (M := core) hu k).symm.trans ht)⟩
    · exact ⟨1, Nat.le_add_left .., fun t ht => absurd ⟨t, (core_run_one core s).symm.trans ht⟩ hstep⟩

/-- Settles O6, by induction on the turns left: a run to that point ends in an idle block, unless it stops by name. -/
theorem commandInFlightCompletes : Obligations.CommandInFlightCompletes := by
  intro s _
  obtain ⟨k, hk, hidle⟩ := exists_run_idle s
  refine ⟨k, hk, ?_⟩
  split
  · exact hidle _ ‹_›
  · trivial
  · trivial

/-! ### The reset event (R450, R451) -/

/-- On a reset turn the step is the reset event, whatever the engine and the host were about to do. -/
theorem step_of_reset {s : State} (ha : s.nextAgent = .reset) :
    step s = .next (State.resetEvent { s with turns := s.turns.tail }) := by
  simp only [step, ha]

/-- Settles O57: the step is the reset event, which builds its state from the reset values. -/
theorem resetEventResetsTheBlock : Obligations.ResetEventResetsTheBlock := by
  intro s ts hturns
  rw [step_of_reset (nextAgent_of_turns_cons hturns), hturns]
  rfl

end Sys2Proof.Machine
end
